-- ==== Sys2Proof/Word.lean ====
section
/-! DEFINITION. The word types of the GFAT tile (spec 00_scope.md R5, R6, R8; 10_state.md R14, R17). -/

namespace Sys2Proof

/-- A byte: an 8-bit lane, a cell of IMEM or DMEM. -/
abbrev Byte := BitVec 8

/-- A scalar register's contents, an address, an instruction word, a control register (XLEN = 32, R5). -/
abbrev Word := BitVec 32

/-- An 8×8 bit matrix in the layout of 00_scope.md R10: a grid entry, a qword of a matrix operand. -/
abbrev Mat := BitVec 64

/-- A Wide Word. It is held in 512 bits, the widest W of R5; a tile of W bits uses the low W of them
and reads and writes the others as 0 (log 14). -/
abbrev Wide := BitVec 512

/-- The number of a vector register v0 … v15 (10_state.md R14). -/
abbrev VReg := Fin 16

/-- The number of a scalar register x0 … x15 (10_state.md R17). -/
abbrev XReg := Fin 16

end Sys2Proof
end

