-- ==== Sys2Proof/Config.lean ====
section
/-! DEFINITION. The parameters of a tile (spec 00_scope.md R5, R6), the basis-change ROMs over the open
row (10_state.md R24, 43_basis_change.md R146), and the values the spec leaves open, as constants with
no body. -/

namespace Sys2Proof

/-- The word width W of R5. HWCFG.WSEL's fourth code is never read (93 U16), so there are three values. -/
inductive WordSel where
  | w128
  | w256
  | w512
  deriving DecidableEq, Repr

/-- `W`, in bits. -/
def WordSel.bits : WordSel → Nat
  | .w128 => 128
  | .w256 => 256
  | .w512 => 512

/-- `WB = W/8` (R6). -/
def WordSel.bytes (w : WordSel) : Nat := w.bits / 8

/-- `WQ = W/64` (R6). -/
def WordSel.qwords (w : WordSel) : Nat := w.bits / 64

/-- `LMAX = log2(W) − 1`, the highest interleave level (R6). -/
def WordSel.lmax : WordSel → Nat
  | .w128 => 6
  | .w256 => 7
  | .w512 => 8

/-- The code of W in HWCFG.WSEL (10_state.md R28). -/
def WordSel.code : WordSel → BitVec 2
  | .w128 => 0
  | .w256 => 1
  | .w512 => 2

/-- The parameters of one tile (R5). A size is held as its place in the range R5 allows, so that no
tile outside R5 can be written down. -/
structure Config where
  /-- W -/
  word : WordSel
  /-- GRID_SIZE is 256, 512, 1024 or 2048 -/
  gridSel : Fin 4
  /-- IMEM_BYTES is a power of two from 4096 to 2^22 -/
  imemSel : Fin 11
  /-- DMEM_BYTES is a power of two from 4096 to 2^22 -/
  dmemSel : Fin 11
  /-- which of the eight rows of R146 the tile's T2A and A2T are -/
  row : Fin 8
  /-- the identification word HWID -/
  hwid : Word
  deriving DecidableEq, Repr

def Config.gridLog (c : Config) : Nat := 8 + c.gridSel.val
def Config.imemLog (c : Config) : Nat := 12 + c.imemSel.val
def Config.dmemLog (c : Config) : Nat := 12 + c.dmemSel.val

/-- GRID_SIZE, in entries. -/
def Config.gridSize (c : Config) : Nat := 2 ^ c.gridLog

/-- IMEM_BYTES. -/
def Config.imemBytes (c : Config) : Nat := 2 ^ c.imemLog

/-- DMEM_BYTES. -/
def Config.dmemBytes (c : Config) : Nat := 2 ^ c.dmemLog

/-- T2A of each row of 43_basis_change.md R146. -/
def t2aOfRow : Fin 8 → Mat
  | 0 => 0x3F301E7EC2D6A4A6
  | 1 => 0xF9C0F6061AF24882
  | 2 => 0x8BD0B2A29EDA64AA
  | 3 => 0x59C0E6167A72A802
  | 4 => 0x71500A8A86BE78CE
  | 5 => 0xABD032226EBAF4CA
  | 6 => 0x8F30EE8E42C634B6
  | 7 => 0x31506AEA964E983E

/-- A2T, the inverse, of each row of R146. -/
def a2tOfRow : Fin 8 → Mat
  | 0 => 0xABC09CF4ACAEA272
  | 1 => 0xE32C24EED2DCAEAC
  | 2 => 0xF1AAEC880C70DCD2
  | 3 => 0x4D805A30D2DCAEAC
  | 4 => 0xA1E4F8E072A2700C
  | 5 => 0x2D7832F60C70DCD2
  | 6 => 0x09B2428AACAEA272
  | 7 => 0xD1E8863E72A2700C

def Config.t2a (c : Config) : Mat := t2aOfRow c.row
def Config.a2t (c : Config) : Mat := a2tOfRow c.row

/-- The open row of the tile that `State.reset` describes. DESIGN CHOICE (log 2), safe: it has no body, so
no claim can rest on one row (R146: "It must not fix one row"). -/
opaque Config.openRow : Fin 8

/-- The open HWID of the tile that `State.reset` describes (R5). DESIGN CHOICE (log 2), safe. -/
opaque Config.openHwid : Word

/-- `Draw(512)` number n, of which VRAND keeps W bits (R9, 41_wide_word.md R110). Free, no body (log 7), safe. -/
opaque Config.freeWide : Nat → Wide

/-- `Draw(32)` number n, for a host read that the spec leaves open (20_memory.md R53, 93 U8, U9). Free, no
body (log 7), safe. -/
opaque Config.freeWord : Nat → Word

/-- The tile that `State.reset` describes. DESIGN CHOICE (log 1): the spec's own defaults, and W = 128, which R5
leaves open and the spec's examples use. Unsafe for a claim about `State.reset` alone. -/
def Config.chosen : Config :=
  { word := .w128, gridSel := 0, imemSel := 0, dmemSel := 4
    row := Config.openRow, hwid := Config.openHwid }

end Sys2Proof
end

