-- ==== Sys2Proof/Syntax.lean ====
section
/-! DEFINITION. The instructions of GFAT-ISA version 1: one constructor per row of spec/opcode_table.json,
with the operand fields of 30_encoding.md R61 and the register files of R64. -/

namespace Sys2Proof

/-- A decoded instruction. Fields keep the width R61 gives them; a register number names the register file
R64 gives the field. -/
inductive Instr where
  -- 40_control_scalar.md
  | nop
  | halt
  | j (off26 : BitVec 26)
  | bnez (d : XReg) (imm22 : BitVec 22)
  | beqz (d : XReg) (imm22 : BitVec 22)
  | bfs (imm22 : BitVec 22)
  | bfc (imm22 : BitVec 22)
  | li (d : XReg) (imm22 : BitVec 22)
  | addi (d a : XReg) (imm14 : BitVec 14)
  | csrr (d : XReg) (csr : BitVec 14)
  -- 42_packed.md
  | vld (d : VReg) (a : XReg) (imm14 : BitVec 14)
  | vst (d : VReg) (a : XReg) (imm14 : BitVec 14)
  | vmvx (d : VReg) (a : XReg)
  | xmvv (d : XReg) (a : VReg)
  | vbcast (d a : VReg) (lgs : BitVec 3)
  -- 41_wide_word.md
  | vand (d a b : VReg)
  | vor (d a b : VReg)
  | vxor (d a b : VReg)
  | vnot (d a : VReg)
  | vshl (d a : VReg) (b : XReg)
  | vshr (d a : VReg) (b : XReg)
  | vshli (d a : VReg) (imm14 : BitVec 14)
  | vshri (d a : VReg) (imm14 : BitVec 14)
  | veq (a b : VReg)
  | vrand (d : VReg)
  | vfill (d : VReg) (bit : Bool)
  | vfillx (d : VReg) (a : XReg)
  | vmask (d : VReg) (odd : Bool) (lvl : BitVec 4)
  | vblend (d a b : VReg) (lvl : BitVec 4)
  -- 43_basis_change.md
  | toaes (d a : VReg)
  | fromaes (d a : VReg)
  -- 44_gf8_arith.md
  | gfmul (d a b : VReg)
  | gfaff (d a b : VReg)
  | gfaffinv (d a b : VReg)
  | tmul (d a b : VReg)
  | tinv (d a : VReg)
  -- 45_affine8.md
  | mprep (d a : VReg)
  | affg (d a : VReg) (g : BitVec 11)
  | gwr (a : VReg) (g : BitVec 11)
  | grd (d : VReg) (g : BitVec 11)
  -- 46_affine_nxn.md
  | gbuild (a : XReg) (lgN : BitVec 3) (g : BitVec 11)
  | xform (d a : VReg) (lgN : BitVec 3) (g : BitVec 11)
  deriving DecidableEq, Repr

end Sys2Proof
end

