-- ==== Sys2Proof/WellFormed.lean ====
section
/-! DEFINITION. Which instruction terms an instruction word can mean on a tile of width W: the value conditions
of 30_encoding.md R67 items 3 to 5. Every other field admits every value of its width (R63, R64). -/

namespace Sys2Proof

/-- `lvl ≤ LMAX` (R67 item 3). -/
def levelOk (ww : WordSel) (lvl : BitVec 4) : Bool := decide (lvl.toNat ≤ ww.lmax)

/-- `lgN ≤ 4`, so N is 1, 2, 4, 8 or 16 (R67 item 4). -/
def widthOk (lgN : BitVec 3) : Bool := decide (lgN.toNat ≤ 4)

/-- The CSR is HWCFG (0) or HWID (1) (R67 item 5). -/
def csrOk (csr : BitVec 14) : Bool := csr == 0 || csr == 1

/-- The value conditions of R67 items 3, 4 and 5. -/
def Instr.wellFormed (ww : WordSel) : Instr → Bool
  | .vmask _ _ lvl => levelOk ww lvl
  | .vblend _ _ _ lvl => levelOk ww lvl
  | .gbuild _ lgN _ => widthOk lgN
  | .xform _ _ lgN _ => widthOk lgN
  | .csrr _ csr => csrOk csr
  | .nop | .halt | .j _ | .bnez _ _ | .beqz _ _ | .bfs _ | .bfc _ | .li _ _ | .addi _ _ _ => true
  | .vld _ _ _ | .vst _ _ _ | .vmvx _ _ | .xmvv _ _ | .vbcast _ _ _ => true
  | .vand _ _ _ | .vor _ _ _ | .vxor _ _ _ | .vnot _ _ => true
  | .vshl _ _ _ | .vshr _ _ _ | .vshli _ _ _ | .vshri _ _ _ | .veq _ _ => true
  | .vrand _ | .vfill _ _ | .vfillx _ _ => true
  | .toaes _ _ | .fromaes _ _ | .gfmul _ _ _ | .gfaff _ _ _ | .gfaffinv _ _ _ => true
  | .tmul _ _ _ | .tinv _ _ | .mprep _ _ | .affg _ _ _ | .gwr _ _ | .grd _ _ => true

end Sys2Proof
end

