-- ==== Sys2Proof/Decode.lean ====
section
/-! DEFINITION. The decoder and the encoder of 30_encoding.md: fields R61, formats R62, opcodes R65,
must-be-zero bits R66, illegal words R67; little-endian instruction words R60 and 20_memory.md R41. -/

namespace Sys2Proof

/-! ## Fields of an instruction word (R61) -/

def opOf (w : Word) : BitVec 6 := w.extractLsb' 26 6
def dOf (w : Word) : BitVec 4 := w.extractLsb' 22 4
def aOf (w : Word) : BitVec 4 := w.extractLsb' 18 4
def bOf (w : Word) : BitVec 4 := w.extractLsb' 14 4
def imm14Of (w : Word) : BitVec 14 := w.extractLsb' 0 14
def imm22Of (w : Word) : BitVec 22 := w.extractLsb' 0 22
def off26Of (w : Word) : BitVec 26 := w.extractLsb' 0 26

/-- The sub-fields of imm14 (R61). -/
def lgNOf (w : Word) : BitVec 3 := w.extractLsb' 11 3
def gOf (w : Word) : BitVec 11 := w.extractLsb' 0 11
def lvlOf (w : Word) : BitVec 4 := w.extractLsb' 0 4
def oddOf (w : Word) : Bool := w.getLsbD 4
def lgsOf (w : Word) : BitVec 3 := w.extractLsb' 0 3
def bitOf (w : Word) : Bool := w.getLsbD 0

/-- The register a 4-bit field names. -/
def regOf (f : BitVec 4) : Fin 16 := f.toFin

def rdOf (w : Word) : Fin 16 := regOf (dOf w)
def raOf (w : Word) : Fin 16 := regOf (aOf w)
def rbOf (w : Word) : Fin 16 := regOf (bOf w)

/-! ## The decoder -/

/-- Why a word is no instruction: the five items of R67, and a byte list too short to hold a word. -/
inductive Reject where
  /-- item 1: the opcode is reserved -/
  | reservedOpcode
  /-- item 2: a bit that must be zero is 1 -/
  | nonzeroReserved
  /-- item 3: `lvl > LMAX` -/
  | levelTooHigh
  /-- item 4: `lgN > 4` -/
  | widthTooLarge
  /-- item 5: a CSR number other than 0 and 1 -/
  | unknownCsr
  /-- fewer than four bytes: not an item of R67 (a fetch always reads four) -/
  | truncated
  deriving DecidableEq, Repr

/-- What the decoder reads from a word. -/
inductive Decoded where
  | instr (i : Instr)
  | illegal (r : Reject)
  deriving DecidableEq, Repr

/-- Accept `i` when the bits that must be zero are zero (R67 item 2). -/
def whenZero (zero : Bool) (i : Instr) : Decoded :=
  if zero then .instr i else .illegal .nonzeroReserved

/-- As `whenZero`, and then the value condition `ok` of R67 items 3 to 5. -/
def whenZeroAnd (zero ok : Bool) (r : Reject) (i : Instr) : Decoded :=
  if zero then (if ok then .instr i else .illegal r) else .illegal .nonzeroReserved

/-- The instruction a word means on a tile of width W, or why it is illegal (R67, R68). -/
def decode (ww : WordSel) (w : Word) : Decoded :=
  match opOf w with
  -- format N
  | 0x01#6 => whenZero (off26Of w == 0) .nop
  | 0x02#6 => whenZero (off26Of w == 0) .halt
  -- format J
  | 0x03#6 => .instr (.j (off26Of w))
  -- format B
  | 0x04#6 => .instr (.bnez (rdOf w) (imm22Of w))
  | 0x05#6 => .instr (.beqz (rdOf w) (imm22Of w))
  | 0x06#6 => whenZero (dOf w == 0) (.bfs (imm22Of w))
  | 0x07#6 => whenZero (dOf w == 0) (.bfc (imm22Of w))
  -- format L
  | 0x08#6 => .instr (.li (rdOf w) (imm22Of w))
  -- format I
  | 0x09#6 => whenZero (bOf w == 0) (.addi (rdOf w) (raOf w) (imm14Of w))
  | 0x0A#6 =>
    whenZeroAnd (aOf w == 0 && bOf w == 0) (csrOk (imm14Of w)) .unknownCsr (.csrr (rdOf w) (imm14Of w))
  | 0x10#6 => whenZero (bOf w == 0) (.vld (rdOf w) (raOf w) (imm14Of w))
  | 0x11#6 => whenZero (bOf w == 0) (.vst (rdOf w) (raOf w) (imm14Of w))
  -- format R
  | 0x12#6 => whenZero (bOf w == 0 && imm14Of w == 0) (.vmvx (rdOf w) (raOf w))
  | 0x13#6 => whenZero (bOf w == 0 && imm14Of w == 0) (.xmvv (rdOf w) (raOf w))
  | 0x14#6 =>
    whenZero (bOf w == 0 && (imm14Of w).extractLsb' 3 11 == 0) (.vbcast (rdOf w) (raOf w) (lgsOf w))
  | 0x20#6 => whenZero (imm14Of w == 0) (.vand (rdOf w) (raOf w) (rbOf w))
  | 0x21#6 => whenZero (imm14Of w == 0) (.vor (rdOf w) (raOf w) (rbOf w))
  | 0x22#6 => whenZero (imm14Of w == 0) (.vxor (rdOf w) (raOf w) (rbOf w))
  | 0x23#6 => whenZero (bOf w == 0 && imm14Of w == 0) (.vnot (rdOf w) (raOf w))
  | 0x24#6 => whenZero (imm14Of w == 0) (.vshl (rdOf w) (raOf w) (rbOf w))
  | 0x25#6 => whenZero (imm14Of w == 0) (.vshr (rdOf w) (raOf w) (rbOf w))
  | 0x26#6 => whenZero (bOf w == 0) (.vshli (rdOf w) (raOf w) (imm14Of w))
  | 0x27#6 => whenZero (bOf w == 0) (.vshri (rdOf w) (raOf w) (imm14Of w))
  | 0x28#6 => whenZero (dOf w == 0 && imm14Of w == 0) (.veq (raOf w) (rbOf w))
  | 0x29#6 => whenZero (aOf w == 0 && bOf w == 0 && imm14Of w == 0) (.vrand (rdOf w))
  | 0x2A#6 =>
    whenZero (aOf w == 0 && bOf w == 0 && (imm14Of w).extractLsb' 1 13 == 0) (.vfill (rdOf w) (bitOf w))
  | 0x2B#6 => whenZero (bOf w == 0 && imm14Of w == 0) (.vfillx (rdOf w) (raOf w))
  | 0x2C#6 =>
    whenZeroAnd (aOf w == 0 && bOf w == 0 && (imm14Of w).extractLsb' 5 9 == 0) (levelOk ww (lvlOf w))
      .levelTooHigh (.vmask (rdOf w) (oddOf w) (lvlOf w))
  | 0x2D#6 =>
    whenZeroAnd ((imm14Of w).extractLsb' 4 10 == 0) (levelOk ww (lvlOf w)) .levelTooHigh
      (.vblend (rdOf w) (raOf w) (rbOf w) (lvlOf w))
  | 0x30#6 => whenZero (bOf w == 0 && imm14Of w == 0) (.toaes (rdOf w) (raOf w))
  | 0x31#6 => whenZero (bOf w == 0 && imm14Of w == 0) (.fromaes (rdOf w) (raOf w))
  | 0x32#6 => whenZero (imm14Of w == 0) (.gfmul (rdOf w) (raOf w) (rbOf w))
  | 0x33#6 => whenZero (imm14Of w == 0) (.gfaff (rdOf w) (raOf w) (rbOf w))
  | 0x34#6 => whenZero (imm14Of w == 0) (.gfaffinv (rdOf w) (raOf w) (rbOf w))
  | 0x35#6 => whenZero (imm14Of w == 0) (.tmul (rdOf w) (raOf w) (rbOf w))
  | 0x36#6 => whenZero (bOf w == 0 && imm14Of w == 0) (.tinv (rdOf w) (raOf w))
  | 0x37#6 => whenZero (bOf w == 0 && imm14Of w == 0) (.mprep (rdOf w) (raOf w))
  -- format G
  | 0x38#6 => whenZero (bOf w == 0 && lgNOf w == 0) (.affg (rdOf w) (raOf w) (gOf w))
  | 0x39#6 => whenZero (dOf w == 0 && bOf w == 0 && lgNOf w == 0) (.gwr (raOf w) (gOf w))
  | 0x3A#6 => whenZero (aOf w == 0 && bOf w == 0 && lgNOf w == 0) (.grd (rdOf w) (gOf w))
  | 0x3B#6 =>
    whenZeroAnd (dOf w == 0 && bOf w == 0) (widthOk (lgNOf w)) .widthTooLarge
      (.gbuild (raOf w) (lgNOf w) (gOf w))
  | 0x3C#6 =>
    whenZeroAnd (bOf w == 0) (widthOk (lgNOf w)) .widthTooLarge
      (.xform (rdOf w) (raOf w) (lgNOf w) (gOf w))
  | _ => .illegal .reservedOpcode

/-- An instruction word from the four bytes that hold it, the lowest address first (20_memory.md R41). -/
def wordOfBytes (b0 b1 b2 b3 : Byte) : Word := b3 ++ b2 ++ b1 ++ b0

/-- The bytes of a word as memory holds them, the lowest address first. -/
def bytesOfWord (w : Word) : List Byte :=
  [w.extractLsb' 0 8, w.extractLsb' 8 8, w.extractLsb' 16 8, w.extractLsb' 24 8]

/-- The decoder on any list of bytes: it consumes exactly four (R60) and returns the rest. -/
def decodeBytes (ww : WordSel) : List Byte → Decoded × List Byte
  | b0 :: b1 :: b2 :: b3 :: rest => (decode ww (wordOfBytes b0 b1 b2 b3), rest)
  | short => (.illegal .truncated, short)

/-! ## The encoder -/

/-- `op << 26 | d << 22 | a << 18 | b << 14 | imm14` (R65). -/
def pack (op : BitVec 6) (d a b : BitVec 4) (imm14 : BitVec 14) : Word := op ++ d ++ a ++ b ++ imm14

/-- `op << 26 | d << 22 | imm22`, formats B and L (R65). -/
def packBranch (op : BitVec 6) (d : BitVec 4) (imm22 : BitVec 22) : Word := op ++ d ++ imm22

/-- `op << 26 | off26`, formats J and N (R65). -/
def packJump (op : BitVec 6) (off26 : BitVec 26) : Word := op ++ off26

/-- The field that names a register. -/
def fieldOf (r : Fin 16) : BitVec 4 := BitVec.ofFin r

/-- The word of an instruction (R62, R65). -/
def encode : Instr → Word
  | .nop => packJump 0x01 0
  | .halt => packJump 0x02 0
  | .j off26 => packJump 0x03 off26
  | .bnez d imm22 => packBranch 0x04 (fieldOf d) imm22
  | .beqz d imm22 => packBranch 0x05 (fieldOf d) imm22
  | .bfs imm22 => packBranch 0x06 0 imm22
  | .bfc imm22 => packBranch 0x07 0 imm22
  | .li d imm22 => packBranch 0x08 (fieldOf d) imm22
  | .addi d a imm14 => pack 0x09 (fieldOf d) (fieldOf a) 0 imm14
  | .csrr d csr => pack 0x0A (fieldOf d) 0 0 csr
  | .vld d a imm14 => pack 0x10 (fieldOf d) (fieldOf a) 0 imm14
  | .vst d a imm14 => pack 0x11 (fieldOf d) (fieldOf a) 0 imm14
  | .vmvx d a => pack 0x12 (fieldOf d) (fieldOf a) 0 0
  | .xmvv d a => pack 0x13 (fieldOf d) (fieldOf a) 0 0
  | .vbcast d a lgs => pack 0x14 (fieldOf d) (fieldOf a) 0 (0#11 ++ lgs)
  | .vand d a b => pack 0x20 (fieldOf d) (fieldOf a) (fieldOf b) 0
  | .vor d a b => pack 0x21 (fieldOf d) (fieldOf a) (fieldOf b) 0
  | .vxor d a b => pack 0x22 (fieldOf d) (fieldOf a) (fieldOf b) 0
  | .vnot d a => pack 0x23 (fieldOf d) (fieldOf a) 0 0
  | .vshl d a b => pack 0x24 (fieldOf d) (fieldOf a) (fieldOf b) 0
  | .vshr d a b => pack 0x25 (fieldOf d) (fieldOf a) (fieldOf b) 0
  | .vshli d a imm14 => pack 0x26 (fieldOf d) (fieldOf a) 0 imm14
  | .vshri d a imm14 => pack 0x27 (fieldOf d) (fieldOf a) 0 imm14
  | .veq a b => pack 0x28 0 (fieldOf a) (fieldOf b) 0
  | .vrand d => pack 0x29 (fieldOf d) 0 0 0
  | .vfill d bit => pack 0x2A (fieldOf d) 0 0 (0#13 ++ BitVec.ofBool bit)
  | .vfillx d a => pack 0x2B (fieldOf d) (fieldOf a) 0 0
  | .vmask d odd lvl => pack 0x2C (fieldOf d) 0 0 (0#9 ++ BitVec.ofBool odd ++ lvl)
  | .vblend d a b lvl => pack 0x2D (fieldOf d) (fieldOf a) (fieldOf b) (0#10 ++ lvl)
  | .toaes d a => pack 0x30 (fieldOf d) (fieldOf a) 0 0
  | .fromaes d a => pack 0x31 (fieldOf d) (fieldOf a) 0 0
  | .gfmul d a b => pack 0x32 (fieldOf d) (fieldOf a) (fieldOf b) 0
  | .gfaff d a b => pack 0x33 (fieldOf d) (fieldOf a) (fieldOf b) 0
  | .gfaffinv d a b => pack 0x34 (fieldOf d) (fieldOf a) (fieldOf b) 0
  | .tmul d a b => pack 0x35 (fieldOf d) (fieldOf a) (fieldOf b) 0
  | .tinv d a => pack 0x36 (fieldOf d) (fieldOf a) 0 0
  | .mprep d a => pack 0x37 (fieldOf d) (fieldOf a) 0 0
  | .affg d a g => pack 0x38 (fieldOf d) (fieldOf a) 0 (0#3 ++ g)
  | .gwr a g => pack 0x39 0 (fieldOf a) 0 (0#3 ++ g)
  | .grd d g => pack 0x3A (fieldOf d) 0 0 (0#3 ++ g)
  | .gbuild a lgN g => pack 0x3B 0 (fieldOf a) 0 (lgN ++ g)
  | .xform d a lgN g => pack 0x3C (fieldOf d) (fieldOf a) 0 (lgN ++ g)

/-! ## The host's question -/

/-- The instruction the decoder reads from the bits `w` of a row of `nbits` bits, on the tile that
`State.reset` describes (W = 128, log 1, log 22). The bytes are laid out as IMEM stores them. -/
def decodeTableWord (nbits w : Nat) : Option Instr :=
  match (decodeBytes Config.chosen.word (bytesOfWord (BitVec.ofNat 32 (w % 2 ^ nbits)))).1 with
  | .instr i => some i
  | .illegal _ => none

/-! ## The opcode table (R65, R66) -/

/-- A row of the opcode table: a word belongs to it when `word AND mask = match` (R68). -/
structure TableRow where
  mnemonic : String
  mask : Word
  bits : Word
  deriving DecidableEq, Repr

/-- `word AND mask = match`. -/
def TableRow.hits (r : TableRow) (w : Word) : Bool := w &&& r.mask == r.bits

def tableControl : List TableRow :=
  [⟨"NOP", 0xFFFFFFFF, 0x04000000⟩, ⟨"HALT", 0xFFFFFFFF, 0x08000000⟩, ⟨"J", 0xFC000000, 0x0C000000⟩,
   ⟨"BNEZ", 0xFC000000, 0x10000000⟩, ⟨"BEQZ", 0xFC000000, 0x14000000⟩, ⟨"BFS", 0xFFC00000, 0x18000000⟩,
   ⟨"BFC", 0xFFC00000, 0x1C000000⟩, ⟨"LI", 0xFC000000, 0x20000000⟩, ⟨"ADDI", 0xFC03C000, 0x24000000⟩,
   ⟨"CSRR", 0xFC3FC000, 0x28000000⟩]

def tablePacked : List TableRow :=
  [⟨"VLD", 0xFC03C000, 0x40000000⟩, ⟨"VST", 0xFC03C000, 0x44000000⟩, ⟨"VMVX", 0xFC03FFFF, 0x48000000⟩,
   ⟨"XMVV", 0xFC03FFFF, 0x4C000000⟩, ⟨"VBCAST", 0xFC03FFF8, 0x50000000⟩]

def tableWide : List TableRow :=
  [⟨"VAND", 0xFC003FFF, 0x80000000⟩, ⟨"VOR", 0xFC003FFF, 0x84000000⟩, ⟨"VXOR", 0xFC003FFF, 0x88000000⟩,
   ⟨"VNOT", 0xFC03FFFF, 0x8C000000⟩, ⟨"VSHL", 0xFC003FFF, 0x90000000⟩, ⟨"VSHR", 0xFC003FFF, 0x94000000⟩,
   ⟨"VSHLI", 0xFC03C000, 0x98000000⟩, ⟨"VSHRI", 0xFC03C000, 0x9C000000⟩, ⟨"VEQ", 0xFFC03FFF, 0xA0000000⟩,
   ⟨"VRAND", 0xFC3FFFFF, 0xA4000000⟩, ⟨"VFILL", 0xFC3FFFFE, 0xA8000000⟩, ⟨"VFILLX", 0xFC03FFFF, 0xAC000000⟩,
   ⟨"VMASK", 0xFC3FFFE0, 0xB0000000⟩, ⟨"VBLEND", 0xFC003FF0, 0xB4000000⟩]

def tableField : List TableRow :=
  [⟨"TOAES", 0xFC03FFFF, 0xC0000000⟩, ⟨"FROMAES", 0xFC03FFFF, 0xC4000000⟩, ⟨"GFMUL", 0xFC003FFF, 0xC8000000⟩,
   ⟨"GFAFF", 0xFC003FFF, 0xCC000000⟩, ⟨"GFAFFINV", 0xFC003FFF, 0xD0000000⟩, ⟨"TMUL", 0xFC003FFF, 0xD4000000⟩,
   ⟨"TINV", 0xFC03FFFF, 0xD8000000⟩, ⟨"MPREP", 0xFC03FFFF, 0xDC000000⟩]

def tableGrid : List TableRow :=
  [⟨"AFFG", 0xFC03F800, 0xE0000000⟩, ⟨"GWR", 0xFFC3F800, 0xE4000000⟩, ⟨"GRD", 0xFC3FF800, 0xE8000000⟩,
   ⟨"GBUILD", 0xFFC3C000, 0xEC000000⟩, ⟨"XFORM", 0xFC03C000, 0xF0000000⟩]

/-- The 42 rows of spec/opcode_table.json, in its order. -/
def opcodeTable : List TableRow := tableControl ++ tablePacked ++ tableWide ++ tableField ++ tableGrid

/-- The value conditions of R67 items 3 to 5, on the word itself. -/
def valueConditions (ww : WordSel) (r : TableRow) (w : Word) : Bool :=
  if r.mnemonic = "VMASK" ∨ r.mnemonic = "VBLEND" then levelOk ww (lvlOf w)
  else if r.mnemonic = "GBUILD" ∨ r.mnemonic = "XFORM" then widthOk (lgNOf w)
  else if r.mnemonic = "CSRR" then csrOk (imm14Of w)
  else true

/-- The row of an instruction, by its mnemonic in the table. -/
def Instr.mnemonic : Instr → String
  | .nop => "NOP" | .halt => "HALT" | .j _ => "J" | .bnez _ _ => "BNEZ" | .beqz _ _ => "BEQZ"
  | .bfs _ => "BFS" | .bfc _ => "BFC" | .li _ _ => "LI" | .addi _ _ _ => "ADDI" | .csrr _ _ => "CSRR"
  | .vld _ _ _ => "VLD" | .vst _ _ _ => "VST" | .vmvx _ _ => "VMVX" | .xmvv _ _ => "XMVV"
  | .vbcast _ _ _ => "VBCAST" | .vand _ _ _ => "VAND" | .vor _ _ _ => "VOR" | .vxor _ _ _ => "VXOR"
  | .vnot _ _ => "VNOT" | .vshl _ _ _ => "VSHL" | .vshr _ _ _ => "VSHR" | .vshli _ _ _ => "VSHLI"
  | .vshri _ _ _ => "VSHRI" | .veq _ _ => "VEQ" | .vrand _ => "VRAND" | .vfill _ _ => "VFILL"
  | .vfillx _ _ => "VFILLX" | .vmask _ _ _ => "VMASK" | .vblend _ _ _ _ => "VBLEND"
  | .toaes _ _ => "TOAES" | .fromaes _ _ => "FROMAES" | .gfmul _ _ _ => "GFMUL" | .gfaff _ _ _ => "GFAFF"
  | .gfaffinv _ _ _ => "GFAFFINV" | .tmul _ _ _ => "TMUL" | .tinv _ _ => "TINV" | .mprep _ _ => "MPREP"
  | .affg _ _ _ => "AFFG" | .gwr _ _ => "GWR" | .grd _ _ => "GRD" | .gbuild _ _ _ => "GBUILD"
  | .xform _ _ _ _ => "XFORM"

end Sys2Proof
end

