-- ==== Sys2Proof/Machine/State.lean ====
section
/-! DEFINITION. The state of the tile (spec 10_state.md), what its host still does (60_exceptions.md R226), the
ways a step can stop, and the state after reset (10_state.md R31). All plain data. -/

namespace Sys2Proof.Machine

/-- STATUS.STATE (10_state.md R28). -/
inductive RunState where
  | idle
  | running
  | halted
  | faulted
  deriving DecidableEq, Repr

/-- CAUSE.CODE (60_exceptions.md R201). Codes 7 to 15 are never recorded (93 U15), so they have no name. -/
inductive Cause where
  | none
  | illegalInstruction
  | instrAccessFault
  | dataMisaligned
  | dataAccessFault
  | illegalOperand
  | gridRange
  deriving DecidableEq, Repr

/-- One move of the agents outside the tile, made at a step boundary (60_exceptions.md R226; 70_reset_and_hazards.md
R240, R250). An access names a 32-bit word of the 16 MiB host window by its index, so an access of another
width or alignment has no move (R225, R227; log 17). -/
inductive HostMove where
  /-- the host does nothing at this boundary: the tile takes its step -/
  | wait
  /-- write `value` to the word at byte offset `4 * index` of the window -/
  | write (index : BitVec 22) (value : Word)
  /-- read the word at byte offset `4 * index` of the window -/
  | read (index : BitVec 22)
  /-- the platform asserts reset (R240) -/
  | assertReset
  /-- the platform releases reset (R240) -/
  | releaseReset
  deriving DecidableEq, Repr

/-- A memory: the cells that have been written, as (address, contents) pairs in strictly rising address order.
An unlisted address has never been written: it holds no value (log 6). -/
abbrev Memory (α : Type) := List (Nat × α)

/-- The tile, its parameters and the moves of its host. -/
structure State where
  /-- the parameters of this tile (00_scope.md R5); no step changes them -/
  cfg : Config
  /-- v0 … v15 (R14), each held in 512 bits (log 14) -/
  v : Vector Wide 16
  /-- x0 … x15 (R17); the cell of x0 is neither read nor written (R19) -/
  x : Vector Word 16
  /-- the equality flag F (R21) -/
  flag : Bool
  /-- the program counter (R20) -/
  pc : Word
  /-- STATUS.STATE (R28) -/
  run : RunState
  /-- CAUSE.CODE (R28) -/
  cause : Cause
  /-- EPC (R28) -/
  epc : Word
  /-- FINFO (R28) -/
  finfo : Word
  /-- START_PC (R28) -/
  startPc : Word
  /-- the abort request latch (R29) -/
  abortLatch : Bool
  /-- the platform holds the reset input asserted (70_reset_and_hazards.md R240) -/
  resetAsserted : Bool
  /-- the grid memory G (R22), by entry index -/
  grid : Memory Mat
  /-- IMEM (20_memory.md R41), by byte address -/
  imem : List Host.Cell
  /-- DMEM (20_memory.md R42), by byte address -/
  dmem : List Host.Cell
  /-- the model's own: how many free values have been taken (log 7) -/
  draws : Nat
  /-- the model's own: the moves the host and the platform still make, the next one first (log 8) -/
  host : List HostMove
  /-- the model's own: the words answered to the host's reads, newest first (log 8) -/
  hostReads : List Word
  deriving DecidableEq, Repr

/-- Why a step stops without a next state. The hardware's own exceptions are next states, not these. -/
inductive Fault where
  /-- `UninitRead` (10_state.md R31): the fetch at this pc reads a byte of IMEM that nothing has written. Raised by the
  fetch. Safe: the hardware goes on with some word (log 6). -/
  | uninitImem (addr : Nat)
  /-- `UninitRead` (R31): an access that starts at this address reads a byte of DMEM that nothing has written. Raised by
  VLD and GBUILD. Safe (log 6). -/
  | uninitDmem (addr : Nat)
  /-- `UninitRead` (R31): a grid range that starts at this entry holds an entry that nothing has written. Raised by
  AFFG, GRD and XFORM. Safe (log 6). -/
  | uninitGrid (entry : Nat)
  deriving DecidableEq, Repr

/-- Why an instruction has no meaning here. -/
inductive Refusal where
  /-- An instruction whose meaning has not been written, by its mnemonic. No arm of `exec` raises it. Safe: a step that
  is refused proves nothing about the hardware. -/
  | notModelled (mnemonic : String)
  deriving DecidableEq, Repr

/-- What an instruction, and a step, answers. -/
abbrev Result := Host.Outcome State Fault Refusal

/-- The state after reset of a tile with the given parameters: the reset table of 10_state.md R31. Where the table
says "unspecified" the registers and F hold the zero that logs 3, 4 and 5 name (DESIGN CHOICE, unsafe), and no cell
of a memory is written (log 6). -/
def State.resetWith (c : Config) : State where
  cfg := c
  v := Vector.replicate 16 0
  x := Vector.replicate 16 0
  flag := false
  pc := 0
  run := .idle
  cause := .none
  epc := 0
  finfo := 0
  startPc := 0
  abortLatch := false
  resetAsserted := false
  grid := []
  imem := []
  dmem := []
  draws := 0
  host := []
  hostReads := []

/-- The machine right after reset (R31, R240), for the parameters `Config.chosen` (log 1). -/
def State.reset : State := State.resetWith Config.chosen

end Sys2Proof.Machine
end

