-- ==== Sys2Proof/Machine/Ops.lean ====
section
/-! DEFINITION. The named operations the meanings are written over: bit and lane assembly (00_scope.md R8, R9),
memories (20_memory.md), registers (10_state.md), the pc, taking an exception (60_exceptions.md R203), and the
host's return from one (R211). -/

namespace Sys2Proof.Machine

/-! ## Bits and lanes (00_scope.md R8) -/

/-- The `n`-bit value whose bit `i` is `f i`. -/
def ofBits (f : Nat → Bool) : (n : Nat) → BitVec n
  | 0 => 0#0
  | n + 1 => BitVec.cons (f n) (ofBits f n)

/-- `lane_s(w, i) = w[(i+1)·s−1 : i·s]`. -/
def laneAt {n : Nat} (s : Nat) (w : BitVec n) (i : Nat) : BitVec s := w.extractLsb' (s * i) s

/-- The value whose lanes `0 … k−1` of width `s` are `f 0 … f (k−1)`, and 0 above them. -/
def ofLanes {n : Nat} (s : Nat) (f : Nat → BitVec s) : (k : Nat) → BitVec n
  | 0 => 0
  | k + 1 => ofLanes s f k ||| ((f k).setWidth n <<< (s * k))

/-- `byte(w, p)`. -/
abbrev byteAt {n : Nat} (w : BitVec n) (p : Nat) : Byte := laneAt 8 w p

/-- `qw(w, q)`. -/
abbrev qwordAt (w : Wide) (q : Nat) : Mat := laneAt 64 w q

/-- The XOR of `f 0 … f (k−1)`. -/
def xorUpTo {n : Nat} (f : Nat → BitVec n) : (k : Nat) → BitVec n
  | 0 => 0
  | k + 1 => xorUpTo f k ^^^ f k

/-- The low W bits of a 512-bit value, 0 above them: what a register of a W-bit tile holds (log 14). -/
def keep (ww : WordSel) (u : Wide) : Wide := (u.setWidth ww.bits).setWidth 512

/-- The word whose byte `p` is `f p`, for `p` in `0 … WB−1`. -/
def ofByteLanes (ww : WordSel) (f : Nat → Byte) : Wide := ofLanes 8 f ww.bytes

/-- The word whose qword `q` is `f q`, for `q` in `0 … WQ−1`. -/
def ofQwordLanes (ww : WordSel) (f : Nat → Mat) : Wide := ofLanes 64 f ww.qwords

/-- `u << c` of 41_wide_word.md R104, on a word of W bits. -/
def shiftLeft (ww : WordSel) (u : Wide) (c : Nat) : Wide := if ww.bits ≤ c then 0 else keep ww (u <<< c)

/-- `u >> c` of R104. -/
def shiftRight (ww : WordSel) (u : Wide) (c : Nat) : Wide := if ww.bits ≤ c then 0 else keep ww u >>> c

/-- All W bits 1. -/
def allOnes (ww : WordSel) : Wide := keep ww (BitVec.allOnes 512)

/-- `EVEN_ℓ` (10_state.md R25). -/
def evenMask (ww : WordSel) (lvl : Nat) : Wide := keep ww (ofBits (fun b => b / 2 ^ lvl % 2 == 0) 512)

/-- `ODD_ℓ = NOT EVEN_ℓ` (R25). -/
def oddMask (ww : WordSel) (lvl : Nat) : Wide := keep ww (~~~ evenMask ww lvl)

/-! ## Memories (20_memory.md) -/

/-- The contents of a cell, none where nothing has been written (log 6). -/
def Memory.read {α : Type} : Memory α → Nat → Option α
  | [], _ => none
  | (k, c) :: m, a => if k = a then some c else Memory.read m a

/-- Write one cell, keeping the addresses in strictly rising order. -/
def Memory.write {α : Type} : Memory α → Nat → α → Memory α
  | [], a, c => [(a, c)]
  | (k, c') :: m, a, c =>
    if a < k then (a, c) :: (k, c') :: m
    else if a = k then (a, c) :: m
    else (k, c') :: Memory.write m a c

/-- Write `f 0 … f (n−1)` to the cells from `a`. -/
def Memory.writeRange {α : Type} (m : Memory α) (a : Nat) (f : Nat → α) : (n : Nat) → Memory α
  | 0 => m
  | n + 1 => (Memory.writeRange m a f n).write (a + n) (f n)

/-- Every cell `a … a+n−1` has been written. -/
def Memory.written {α : Type} (m : Memory α) (a : Nat) : (n : Nat) → Bool
  | 0 => true
  | n + 1 => Memory.written m a n && (m.read (a + n)).isSome

/-- The canonical form: addresses strictly rising. (An unlisted address holds no value, so no entry can equal it.) -/
abbrev Memory.wf {α : Type} (m : Memory α) : Prop := m.Pairwise fun p q => p.1 < q.1

/-- Every written cell lies below `n`. -/
abbrev Memory.within {α : Type} (m : Memory α) (n : Nat) : Prop := ∀ p ∈ m, p.1 < n

/-- The byte of DMEM at `a`; only asked for where it has been written. -/
def State.dmemByte (s : State) (a : Nat) : Byte := (Memory.read s.dmem a).getD 0

/-- `G[k]`; only asked for where it has been written. -/
def State.gridEntry (s : State) (k : Nat) : Mat := (Memory.read s.grid k).getD 0

/-- `MemRead(addr, n)` (R43): n bytes, little-endian. -/
def State.memRead (s : State) (addr n : Nat) : Wide := ofLanes 8 (fun k => s.dmemByte (addr + k)) n

/-- `MemWrite(addr, n, val)` (R43). -/
def State.memWrite (s : State) (addr n : Nat) (val : Wide) : State :=
  { s with dmem := Memory.writeRange s.dmem addr (byteAt val) n }

/-- `G[g+k] <- f k` for `k` in `0 … n−1`. -/
def State.writeGrid (s : State) (g n : Nat) (f : Nat → Mat) : State :=
  { s with grid := Memory.writeRange s.grid g f n }

/-- `addr + n ≤ DMEM_BYTES`, the sum exact (R48). -/
def State.inDmem (s : State) (addr n : Nat) : Bool := decide (addr + n ≤ s.cfg.dmemBytes)

/-- `g + n ≤ GRID_SIZE` (60_exceptions.md R208). -/
def State.inGrid (s : State) (g n : Nat) : Bool := decide (g + n ≤ s.cfg.gridSize)

/-! ## Registers (10_state.md) -/

/-- Read a scalar register; x0 reads 0 (R19). -/
def State.getX (s : State) (r : XReg) : Word := if r = 0 then 0 else s.x[r.val]

/-- Write a scalar register; a write to x0 is discarded (R19). -/
def State.setX (s : State) (r : XReg) (u : Word) : State :=
  if r = 0 then s else { s with x := s.x.set r.val u }

/-- Read a vector register: W bits (R14). -/
def State.getV (s : State) (r : VReg) : Wide := keep s.cfg.word s.v[r.val]

/-- Write a vector register: all W bits (R16). -/
def State.setV (s : State) (r : VReg) (u : Wide) : State :=
  { s with v := s.v.set r.val (keep s.cfg.word u) }

/-- HWCFG (R28). -/
def hwcfg (c : Config) : Word :=
  BitVec.ofNat 8 c.dmemLog ++ BitVec.ofNat 8 c.imemLog ++ BitVec.ofNat 8 c.gridLog ++ 0#6 ++ c.word.code

/-- The code of CAUSE.CODE (60_exceptions.md R201). -/
def Cause.code : Cause → Nat
  | .none => 0
  | .illegalInstruction => 1
  | .instrAccessFault => 2
  | .dataMisaligned => 3
  | .dataAccessFault => 4
  | .illegalOperand => 5
  | .gridRange => 6

/-- The code of STATUS.STATE (R28). -/
def RunState.code : RunState → Nat
  | .idle => 0
  | .running => 1
  | .halted => 2
  | .faulted => 3

/-- The DONE output (60_exceptions.md R221). -/
def State.done (s : State) : Bool := s.run == .halted || s.run == .faulted

/-! ## The program counter (10_state.md R20) -/

/-- `pc <- pc + 4`. -/
def State.advance (s : State) : State := { s with pc := s.pc + 4 }

/-- `pc <- target`. -/
def State.jump (s : State) (target : Word) : State := { s with pc := target }

/-! ## Stopping, exceptions, and starting again -/

/-- Exception entry (60_exceptions.md R203): the record, STATE, and the abort latch; the pc stays. -/
def State.enterException (s : State) (e : Cause) (info : Word) : State :=
  { s with cause := e, epc := s.pc, finfo := info, run := .faulted, abortLatch := false }

/-- `raise E(info)` (00_scope.md R9): the instruction's next state is the exception entry. -/
def raise (e : Cause) (info : Word) (s : State) : Result := .next (s.enterException e info)

/-- ILLEGAL_INSTRUCTION on an instruction term whose fields R67 items 3 to 5 rule out: FINFO is its word (log 12). -/
def raiseIllegal (i : Instr) (s : State) : Result := raise .illegalInstruction (encode i) s

/-- HALT (40_control_scalar.md R82). -/
def State.halt (s : State) : State := { s with epc := s.pc, run := .halted, abortLatch := false }

/-- The abort taken at a step boundary (R80). -/
def State.takeAbort (s : State) : State := { s with epc := s.pc, run := .idle, abortLatch := false }

/-- CTRL.START when not RUNNING (10_state.md R27): also the host's return from an exception (60_exceptions.md R211). -/
def State.start (s : State) : State :=
  { s with pc := s.startPc, cause := .none, epc := 0, finfo := 0, run := .running }

/-- One free `Draw(512)` (log 7): the value and the state that has taken it. -/
def State.drawWide (s : State) : Wide × State := (Config.freeWide s.draws, { s with draws := s.draws + 1 })

/-- One free `Draw(32)` (log 7). -/
def State.drawWord (s : State) : Word × State := (Config.freeWord s.draws, { s with draws := s.draws + 1 })

/-! ## Instruction memory -/

/-- The byte of IMEM at `a`; only asked for where it has been written. -/
def State.imemByte (s : State) (a : Nat) : Byte := (Memory.read s.imem a).getD 0

/-- The instruction word at `a` (20_memory.md R41). -/
def State.imemWord (s : State) (a : Nat) : Word :=
  wordOfBytes (s.imemByte a) (s.imemByte (a + 1)) (s.imemByte (a + 2)) (s.imemByte (a + 3))

/-- The pc holds the address of a word of IMEM. -/
def State.pcFits (s : State) : Bool := s.pc.toNat % 4 == 0 && decide (s.pc.toNat + 4 ≤ s.cfg.imemBytes)

/-- The word `w` stored where the tile fetches next, and the tile RUNNING, out of reset, with its step next: what a host's load of
IMEM and its START leave (log 11). A pc that names no word of IMEM is set to 0. -/
def State.placeWord (s : State) (w : Word) : State :=
  let pc := if s.pcFits then s.pc else 0
  { s with
    pc := pc
    run := .running
    abortLatch := false
    resetAsserted := false
    imem := Memory.writeRange s.imem pc.toNat (byteAt w) 4
    host := if s.host = [] then [] else .wait :: s.host }

end Sys2Proof.Machine
end

