-- ==== Sys2Proof/Machine/Field.lean ====
section
/-! DEFINITION. The bit-matrix and field primitives: `parity` (00_scope.md R9), `affine` (R10), the AES field (R11,
93_implementation_defined.md G1), the basis changes (43_basis_change.md R145), one qword of MPREP (45_affine8.md R170),
and the tower field in which R160 says what TMUL and TINV compute (93 G3). -/

namespace Sys2Proof.Machine

/-- The XOR of the eight bits of a byte (R9). -/
def parity (u : Byte) : Bool :=
  u.getLsbD 0 ^^ u.getLsbD 1 ^^ u.getLsbD 2 ^^ u.getLsbD 3 ^^ u.getLsbD 4 ^^ u.getLsbD 5 ^^ u.getLsbD 6 ^^ u.getLsbD 7

/-- `affine(A, y)`: output bit r is the parity of byte 7−r of A ANDed with y (R10). No constant is added. -/
def affine (A : Mat) (y : Byte) : Byte := ofBits (fun r => parity (byteAt A (7 - r) &&& y)) 8

/-- The product of two bytes as polynomials over GF(2), not reduced. -/
def polyMul (a b : Byte) : BitVec 16 :=
  xorUpTo (fun i => if b.getLsbD i then a.setWidth 16 <<< i else 0) 8

/-- Subtract the multiple of 0x11B that clears bit `8 + k`. -/
def reduceAt (k : Nat) (u : BitVec 16) : BitVec 16 := if u.getLsbD (8 + k) then u ^^^ (0x11B#16 <<< k) else u

/-- The remainder modulo X^8+X^4+X^3+X+1 of a polynomial of degree at most 14. -/
def reduceAes (u : BitVec 16) : Byte :=
  (reduceAt 0 (reduceAt 1 (reduceAt 2 (reduceAt 3 (reduceAt 4 (reduceAt 5 (reduceAt 6 u))))))).setWidth 8

/-- `aesmul(a, b)`: the product in GF(2)[X]/(X^8+X^4+X^3+X+1) (R11). -/
def aesmul (a b : Byte) : Byte := reduceAes (polyMul a b)

/-- `a^(2^n)` in the AES field. -/
def aesFrobenius (a : Byte) : Nat → Byte
  | 0 => a
  | n + 1 => let r := aesFrobenius a n; aesmul r r

/-- The product of `a^(2^1) … a^(2^n)`. -/
def aesPowers (a : Byte) : Nat → Byte
  | 0 => 1
  | n + 1 => aesmul (aesPowers a n) (aesFrobenius a (n + 1))

/-- `aesinv(a)`, computed as a^254 = a^2 · a^4 ⋯ a^128 (DEDUCED, log 13: in a field of 256 elements a^255 = 1 for
a ≠ 0). It gives 0 for 0. -/
def aesinv (a : Byte) : Byte := aesPowers a 7

/-- `toaes(y)` (R145). -/
def toaes (c : Config) (y : Byte) : Byte := affine c.t2a y

/-- `fromaes(y)` (R145). -/
def fromaes (c : Config) (y : Byte) : Byte := affine c.a2t y

/-- One qword of MPREP: `m[8·(7−r)+t] = c[8·t+r]` (R170). Bit k of m has r = 7 − k/8 and t = k mod 8. -/
def mprep64 (c : Mat) : Mat := ofBits (fun k => c.getLsbD (8 * (k % 8) + (7 - k / 8))) 64

/-- `towmul_k(a, b)` of 93 G3, on values of 2^k bits held in a byte. -/
def towmulAt : Nat → Byte → Byte → Byte
  | 0, a, b => a &&& b
  | k + 1, a, b =>
    let h := 2 ^ k
    let low := BitVec.ofNat 8 (2 ^ h - 1)
    let z0 := towmulAt k (a &&& low) (b &&& low)
    let z2 := towmulAt k (a >>> h) (b >>> h)
    let z1 := towmulAt k ((a &&& low) ^^^ (a >>> h)) ((b &&& low) ^^^ (b >>> h)) ^^^ z0 ^^^ z2
    let alpha : Byte := if k = 0 then 1 else BitVec.ofNat 8 (2 ^ (h / 2))
    (z0 ^^^ z2) ||| ((z1 ^^^ towmulAt k z2 alpha) <<< h)

/-- `towmul(a, b) = towmul_3(a, b)` (R11, 93 G3). No instruction's meaning uses it; R145 and R160 are stated in it. -/
def towmul (a b : Byte) : Byte := towmulAt 3 a b

end Sys2Proof.Machine
end

