-- ==== Sys2Proof/Machine/Affine8.lean ====
section
/-! DEFINITION. 8-bit affine transformation instructions (spec 45_affine8.md R170 to R175). -/

namespace Sys2Proof.Machine

/-- R170. -/
def execMprep (d a : VReg) (s : State) : Result :=
  .next (s.setV d (ofQwordLanes s.cfg.word fun q => mprep64 (qwordAt (s.getV a) q))).advance

/-- R173. An entry nothing has written is `UninitRead` (10_state.md R31, log 6). -/
def execAffg (d a : VReg) (g : BitVec 11) (s : State) : Result :=
  if !s.inGrid g.toNat 1 then raise .gridRange (g.setWidth 32) s
  else if !Memory.written s.grid g.toNat 1 then .fault (.uninitGrid g.toNat)
  else .next (s.setV d (ofByteLanes s.cfg.word fun p =>
    affine (s.gridEntry g.toNat) (byteAt (s.getV a) p))).advance

/-- R174. -/
def execGwr (a : VReg) (g : BitVec 11) (s : State) : Result :=
  if !s.inGrid g.toNat 1 then raise .gridRange (g.setWidth 32) s
  else .next (s.writeGrid g.toNat 1 fun _ => qwordAt (s.getV a) 0).advance

/-- R175. An entry nothing has written is `UninitRead` (10_state.md R31, log 6). -/
def execGrd (d : VReg) (g : BitVec 11) (s : State) : Result :=
  if !s.inGrid g.toNat 1 then raise .gridRange (g.setWidth 32) s
  else if !Memory.written s.grid g.toNat 1 then .fault (.uninitGrid g.toNat)
  else .next (s.setV d (ofQwordLanes s.cfg.word fun _ => s.gridEntry g.toNat)).advance

end Sys2Proof.Machine
end

