-- ==== Sys2Proof/Machine/Operands.lean ====
section
/-! DEFINITION. The operand forms of 30_encoding.md R63 and R64: how each immediate is extended and scaled, and the
address, target, count or width an instruction computes from it. -/

namespace Sys2Proof.Machine

/-- `pc + 4·sext_32(off26)`: J's target (R63, 40_control_scalar.md R83). -/
def State.jumpTarget (s : State) (off26 : BitVec 26) : Word := s.pc + 4 * off26.signExtend 32

/-- `pc + 4·sext_32(imm22)`: a branch's target (R63, R84 to R87). -/
def State.branchTarget (s : State) (imm22 : BitVec 22) : Word := s.pc + 4 * imm22.signExtend 32

/-- Take the branch or go on (R84). -/
def State.branchIf (s : State) (taken : Bool) (imm22 : BitVec 22) : State :=
  if taken then s.jump (s.branchTarget imm22) else s.advance

/-- `zext_32(imm22)`: LI's value (R63, R88). -/
def liValue (imm22 : BitVec 22) : Word := imm22.setWidth 32

/-- `sext_32(imm14)`: the addend of ADDI and the byte offset of VLD and VST (R63). -/
def offset (imm14 : BitVec 14) : Word := imm14.signExtend 32

/-- `(x[a] + sext_32(imm14)) mod 2^32`: the effective address of VLD and VST (42_packed.md R133). -/
def State.effectiveAddress (s : State) (a : XReg) (imm14 : BitVec 14) : Word := s.getX a + offset imm14

/-- `zext_32(imm14)`: an immediate shift count (R63). -/
def immCount (imm14 : BitVec 14) : Nat := imm14.toNat

/-- A register shift count: the whole unsigned `x[b]` (41_wide_word.md R105). -/
def State.regCount (s : State) (b : XReg) : Nat := (s.getX b).toNat

/-- `N = 1 << lgN` (R63). -/
def widthN (lgN : BitVec 3) : Nat := 2 ^ lgN.toNat

/-- `s = 1 << lgs`, in bits (R63). -/
def laneBits (lgs : BitVec 3) : Nat := 2 ^ lgs.toNat

/-- The configuration register a CSR number names, for the numbers 0 and 1 (40_control_scalar.md R90). -/
def State.csrValue (s : State) (csr : BitVec 14) : Word := if csr = 0 then hwcfg s.cfg else s.cfg.hwid

end Sys2Proof.Machine
end

