-- ==== Sys2Proof/Machine/AffineNxN.lean ====
section
/-! DEFINITION. The N×N block-decomposed affine transformation engine (spec 46_affine_nxn.md R185 to R188). -/

namespace Sys2Proof.Machine

/-- The qword whose byte t is `byte(bases[8i+t], j)` (R186, R187). `bases[k]` is the N bytes from `A + k·N`, little-endian, so
its byte j is the byte of DMEM at `A + k·N + j` (20_memory.md R43). -/
def State.basisColumn (s : State) (A N i j : Nat) : Mat :=
  ofLanes 8 (fun t => s.dmemByte (A + (8 * i + t) * N + j)) 8

/-- `grid(i, j)` of R186, from the basis images at A. -/
def State.gridMatrix (s : State) (A N i j : Nat) : Mat := mprep64 (s.basisColumn A N i j)

/-- R187. The grid range is checked before the DMEM range (60_exceptions.md R210); a byte nothing has written is
`UninitRead` (10_state.md R31, log 6). `lgN > 4` is illegal (R67 item 4, log 12). -/
def execGbuild (a : XReg) (lgN : BitVec 3) (g : BitVec 11) (s : State) : Result :=
  let N := widthN lgN
  let A := s.getX a
  if !widthOk lgN then raiseIllegal (.gbuild a lgN g) s
  else if !s.inGrid g.toNat (N * N) then raise .gridRange (g.setWidth 32) s
  else if !s.inDmem A.toNat (8 * N * N) then raise .dataAccessFault A s
  else if !Memory.written s.dmem A.toNat (8 * N * N) then .fault (.uninitDmem A.toNat)
  else .next (s.writeGrid g.toNat (N * N) fun k => s.gridMatrix A.toNat N (k / N) (k % N)).advance

/-- Byte `p = s·N + i` of XFORM's result: the XOR over j of `affine(G[g + j·N + i], byte(src, s·N + j))` (R188). -/
def State.xformByte (s : State) (g N : Nat) (src : Wide) (p : Nat) : Byte :=
  xorUpTo (fun j => affine (s.gridEntry (g + j * N + p % N)) (byteAt src (p / N * N + j))) N

/-- R188. An entry nothing has written is `UninitRead` (10_state.md R31, log 6). `lgN > 4` is illegal (R67 item 4,
log 12). -/
def execXform (d a : VReg) (lgN : BitVec 3) (g : BitVec 11) (s : State) : Result :=
  let N := widthN lgN
  if !widthOk lgN then raiseIllegal (.xform d a lgN g) s
  else if !s.inGrid g.toNat (N * N) then raise .gridRange (g.setWidth 32) s
  else if !Memory.written s.grid g.toNat (N * N) then .fault (.uninitGrid g.toNat)
  else .next (s.setV d (ofByteLanes s.cfg.word (s.xformByte g.toNat N (s.getV a)))).advance

end Sys2Proof.Machine
end

