-- ==== Sys2Proof/Machine/BasisChange.lean ====
section
/-! DEFINITION. Basis-change instructions (spec 43_basis_change.md R147, R148). -/

namespace Sys2Proof.Machine

/-- R147. -/
def execToaes (d a : VReg) (s : State) : Result :=
  .next (s.setV d (ofByteLanes s.cfg.word fun p => toaes s.cfg (byteAt (s.getV a) p))).advance

/-- R148. -/
def execFromaes (d a : VReg) (s : State) : Result :=
  .next (s.setV d (ofByteLanes s.cfg.word fun p => fromaes s.cfg (byteAt (s.getV a) p))).advance

end Sys2Proof.Machine
end

