-- ==== Sys2Proof/Machine/Control.lean ====
section
/-! DEFINITION. Sequencer, control transfer and scalar instructions (spec 40_control_scalar.md R81 to R90). -/

namespace Sys2Proof.Machine

/-- R81. -/
def execNop (s : State) : Result := .next s.advance

/-- R82. -/
def execHalt (s : State) : Result := .next s.halt

/-- R83. The target is checked at the next fetch, not here. -/
def execJ (off26 : BitVec 26) (s : State) : Result := .next (s.jump (s.jumpTarget off26))

/-- R84. -/
def execBnez (d : XReg) (imm22 : BitVec 22) (s : State) : Result := .next (s.branchIf (s.getX d != 0) imm22)

/-- R85. -/
def execBeqz (d : XReg) (imm22 : BitVec 22) (s : State) : Result := .next (s.branchIf (s.getX d == 0) imm22)

/-- R86. F holds a value at reset (log 5), so the read is no fault. -/
def execBfs (imm22 : BitVec 22) (s : State) : Result := .next (s.branchIf s.flag imm22)

/-- R87. F holds a value at reset (log 5), so the read is no fault. -/
def execBfc (imm22 : BitVec 22) (s : State) : Result := .next (s.branchIf (!s.flag) imm22)

/-- R88. -/
def execLi (d : XReg) (imm22 : BitVec 22) (s : State) : Result := .next (s.setX d (liValue imm22)).advance

/-- R89. -/
def execAddi (d a : XReg) (imm14 : BitVec 14) (s : State) : Result :=
  .next (s.setX d (s.getX a + offset imm14)).advance

/-- R90. A CSR number other than 0 and 1 is illegal (R67 item 5, log 12). -/
def execCsrr (d : XReg) (csr : BitVec 14) (s : State) : Result :=
  if csrOk csr then .next (s.setX d (s.csrValue csr)).advance else raiseIllegal (.csrr d csr) s

end Sys2Proof.Machine
end

