-- ==== Sys2Proof/Machine/GfArith.lean ====
section
/-! DEFINITION. GF(2^8) multiply, affine and inverse instructions (spec 44_gf8_arith.md R155 to R159). -/

namespace Sys2Proof.Machine

/-- R155. -/
def execGfmul (d a b : VReg) (s : State) : Result :=
  .next (s.setV d (ofByteLanes s.cfg.word fun p => aesmul (byteAt (s.getV a) p) (byteAt (s.getV b) p))).advance

/-- R156: the matrix of byte p is qword p/8 of the second operand. -/
def execGfaff (d a b : VReg) (s : State) : Result :=
  .next (s.setV d (ofByteLanes s.cfg.word fun p =>
    affine (qwordAt (s.getV b) (p / 8)) (byteAt (s.getV a) p))).advance

/-- R157: the inverse first, the matrix second. -/
def execGfaffinv (d a b : VReg) (s : State) : Result :=
  .next (s.setV d (ofByteLanes s.cfg.word fun p =>
    affine (qwordAt (s.getV b) (p / 8)) (aesinv (byteAt (s.getV a) p)))).advance

/-- R158, one byte: into the AES basis, multiply, and back (log 23). -/
def tmulByte (c : Config) (p q : Byte) : Byte := fromaes c (aesmul (toaes c p) (toaes c q))

/-- R159, one byte: into the AES basis, invert, and back (log 23). -/
def tinvByte (c : Config) (p : Byte) : Byte := fromaes c (aesinv (toaes c p))

/-- R158. -/
def execTmul (d a b : VReg) (s : State) : Result :=
  .next (s.setV d (ofByteLanes s.cfg.word fun p =>
    tmulByte s.cfg (byteAt (s.getV a) p) (byteAt (s.getV b) p))).advance

/-- R159. -/
def execTinv (d a : VReg) (s : State) : Result :=
  .next (s.setV d (ofByteLanes s.cfg.word fun p => tinvByte s.cfg (byteAt (s.getV a) p))).advance

end Sys2Proof.Machine
end

