-- ==== Sys2Proof/Machine/Packed.lean ====
section
/-! DEFINITION. Packed-container instructions and wide-word load and store (spec 42_packed.md R130 to R134). -/

namespace Sys2Proof.Machine

/-- R130: lane 0 of width s in every lane. -/
def execVbcast (d a : VReg) (lgs : BitVec 3) (s : State) : Result :=
  let lane := laneAt (laneBits lgs) (s.getV a) 0
  .next (s.setV d (ofLanes (laneBits lgs) (fun _ => lane) (s.cfg.word.bits / laneBits lgs))).advance

/-- R131. -/
def execVmvx (d : VReg) (a : XReg) (s : State) : Result := .next (s.setV d ((s.getX a).setWidth 512)).advance

/-- R132. -/
def execXmvv (d : XReg) (a : VReg) (s : State) : Result := .next (s.setX d ((s.getV a).setWidth 32)).advance

/-- R133. The alignment check comes before the range check (60_exceptions.md R210); reading an unwritten byte is
`UninitRead` (10_state.md R31, log 6). -/
def execVld (d : VReg) (a : XReg) (imm14 : BitVec 14) (s : State) : Result :=
  let addr := s.effectiveAddress a imm14
  let wb := s.cfg.word.bytes
  if addr.toNat % wb ≠ 0 then raise .dataMisaligned addr s
  else if !s.inDmem addr.toNat wb then raise .dataAccessFault addr s
  else if !Memory.written s.dmem addr.toNat wb then .fault (.uninitDmem addr.toNat)
  else .next (s.setV d (s.memRead addr.toNat wb)).advance

/-- R134. -/
def execVst (d : VReg) (a : XReg) (imm14 : BitVec 14) (s : State) : Result :=
  let addr := s.effectiveAddress a imm14
  let wb := s.cfg.word.bytes
  if addr.toNat % wb ≠ 0 then raise .dataMisaligned addr s
  else if !s.inDmem addr.toNat wb then raise .dataAccessFault addr s
  else .next (s.memWrite addr.toNat wb (s.getV d)).advance

end Sys2Proof.Machine
end

