-- ==== Sys2Proof/Machine/Flags.lean ====
section
/-! DEFINITION. The one flag of the tile, F (10_state.md R21): VEQ alone writes it, BFS and BFC read it. -/

namespace Sys2Proof.Machine

/-- `(u == u') ? 1 : 0` on W-bit words (41_wide_word.md R109). -/
def equalityFlag (u u' : Wide) : Bool := u == u'

/-- `F <- b`. -/
def State.setFlag (s : State) (b : Bool) : State := { s with flag := b }

end Sys2Proof.Machine
end

