-- ==== Sys2Proof/Machine/WideWord.lean ====
section
/-! DEFINITION. Wide-word instructions (spec 41_wide_word.md R100 to R114). -/

namespace Sys2Proof.Machine

/-- R100. -/
def execVand (d a b : VReg) (s : State) : Result := .next (s.setV d (s.getV a &&& s.getV b)).advance

/-- R101. -/
def execVor (d a b : VReg) (s : State) : Result := .next (s.setV d (s.getV a ||| s.getV b)).advance

/-- R102. -/
def execVxor (d a b : VReg) (s : State) : Result := .next (s.setV d (s.getV a ^^^ s.getV b)).advance

/-- R103. -/
def execVnot (d a : VReg) (s : State) : Result := .next (s.setV d (~~~ s.getV a)).advance

/-- R105. -/
def execVshl (d a : VReg) (b : XReg) (s : State) : Result :=
  .next (s.setV d (shiftLeft s.cfg.word (s.getV a) (s.regCount b))).advance

/-- R106. -/
def execVshr (d a : VReg) (b : XReg) (s : State) : Result :=
  .next (s.setV d (shiftRight s.cfg.word (s.getV a) (s.regCount b))).advance

/-- R107. -/
def execVshli (d a : VReg) (imm14 : BitVec 14) (s : State) : Result :=
  .next (s.setV d (shiftLeft s.cfg.word (s.getV a) (immCount imm14))).advance

/-- R108. -/
def execVshri (d a : VReg) (imm14 : BitVec 14) (s : State) : Result :=
  .next (s.setV d (shiftRight s.cfg.word (s.getV a) (immCount imm14))).advance

/-- R109. -/
def execVeq (a b : VReg) (s : State) : Result := .next (s.setFlag (equalityFlag (s.getV a) (s.getV b))).advance

/-- R110: a fresh `Draw(W)`, free (log 7). -/
def execVrand (d : VReg) (s : State) : Result :=
  let (u, s') := s.drawWide
  .next (s'.setV d u).advance

/-- R111. -/
def execVfill (d : VReg) (bit : Bool) (s : State) : Result :=
  .next (s.setV d (if bit then allOnes s.cfg.word else 0)).advance

/-- R112. -/
def execVfillx (d : VReg) (a : XReg) (s : State) : Result :=
  if s.getX a = 0 then .next (s.setV d 0).advance
  else if s.getX a = 1 then .next (s.setV d (allOnes s.cfg.word)).advance
  else raise .illegalOperand (s.getX a) s

/-- R113. A level above LMAX is illegal (R67 item 3, log 12). -/
def execVmask (d : VReg) (odd : Bool) (lvl : BitVec 4) (s : State) : Result :=
  if levelOk s.cfg.word lvl then
    .next (s.setV d (if odd then oddMask s.cfg.word lvl.toNat else evenMask s.cfg.word lvl.toNat)).advance
  else raiseIllegal (.vmask d odd lvl) s

/-- R114. A level above LMAX is illegal (R67 item 3, log 12). -/
def execVblend (d a b : VReg) (lvl : BitVec 4) (s : State) : Result :=
  if levelOk s.cfg.word lvl then
    .next (s.setV d ((s.getV a &&& evenMask s.cfg.word lvl.toNat) |||
      (s.getV b &&& oddMask s.cfg.word lvl.toNat))).advance
  else raiseIllegal (.vblend d a b lvl) s

end Sys2Proof.Machine
end

