-- ==== Sys2Proof/Machine/Dispatch.lean ====
section
/-! DEFINITION. Which meaning each instruction has: one arm per row of spec/opcode_table.json. -/

namespace Sys2Proof.Machine
open Sys2Proof

def exec (i : Instr) (s : State) : Host.Outcome State Fault Refusal :=
  match i with
  | .nop => Sys2Proof.Machine.execNop s
  | .halt => Sys2Proof.Machine.execHalt s
  | .j off26 => Sys2Proof.Machine.execJ off26 s
  | .bnez d imm22 => Sys2Proof.Machine.execBnez d imm22 s
  | .beqz d imm22 => Sys2Proof.Machine.execBeqz d imm22 s
  | .bfs imm22 => Sys2Proof.Machine.execBfs imm22 s
  | .bfc imm22 => Sys2Proof.Machine.execBfc imm22 s
  | .li d imm22 => Sys2Proof.Machine.execLi d imm22 s
  | .addi d a imm14 => Sys2Proof.Machine.execAddi d a imm14 s
  | .csrr d csr => Sys2Proof.Machine.execCsrr d csr s
  | .vld d a imm14 => Sys2Proof.Machine.execVld d a imm14 s
  | .vst d a imm14 => Sys2Proof.Machine.execVst d a imm14 s
  | .vmvx d a => Sys2Proof.Machine.execVmvx d a s
  | .xmvv d a => Sys2Proof.Machine.execXmvv d a s
  | .vbcast d a lgs => Sys2Proof.Machine.execVbcast d a lgs s
  | .vand d a b => Sys2Proof.Machine.execVand d a b s
  | .vor d a b => Sys2Proof.Machine.execVor d a b s
  | .vxor d a b => Sys2Proof.Machine.execVxor d a b s
  | .vnot d a => Sys2Proof.Machine.execVnot d a s
  | .vshl d a b => Sys2Proof.Machine.execVshl d a b s
  | .vshr d a b => Sys2Proof.Machine.execVshr d a b s
  | .vshli d a imm14 => Sys2Proof.Machine.execVshli d a imm14 s
  | .vshri d a imm14 => Sys2Proof.Machine.execVshri d a imm14 s
  | .veq a b => Sys2Proof.Machine.execVeq a b s
  | .vrand d => Sys2Proof.Machine.execVrand d s
  | .vfill d bit => Sys2Proof.Machine.execVfill d bit s
  | .vfillx d a => Sys2Proof.Machine.execVfillx d a s
  | .vmask d odd lvl => Sys2Proof.Machine.execVmask d odd lvl s
  | .vblend d a b lvl => Sys2Proof.Machine.execVblend d a b lvl s
  | .toaes d a => Sys2Proof.Machine.execToaes d a s
  | .fromaes d a => Sys2Proof.Machine.execFromaes d a s
  | .gfmul d a b => Sys2Proof.Machine.execGfmul d a b s
  | .gfaff d a b => Sys2Proof.Machine.execGfaff d a b s
  | .gfaffinv d a b => Sys2Proof.Machine.execGfaffinv d a b s
  | .tmul d a b => Sys2Proof.Machine.execTmul d a b s
  | .tinv d a => Sys2Proof.Machine.execTinv d a s
  | .mprep d a => Sys2Proof.Machine.execMprep d a s
  | .affg d a g => Sys2Proof.Machine.execAffg d a g s
  | .gwr a g => Sys2Proof.Machine.execGwr a g s
  | .grd d g => Sys2Proof.Machine.execGrd d g s
  | .gbuild a lgN g => Sys2Proof.Machine.execGbuild a lgN g s
  | .xform d a lgN g => Sys2Proof.Machine.execXform d a lgN g s

end Sys2Proof.Machine
end

