-- ==== Sys2Proof/Machine/HostInterface.lean ====
section
/-! DEFINITION. The host interface: CTRL (spec 10_state.md R27), the register window (R26, 60_exceptions.md R225), the
host's operations (R226) and reset (70_reset_and_hazards.md R240). -/

namespace Sys2Proof.Machine

/-- CTRL.ABORT (R27). With START in the same write the abort is taken at this boundary, so that START then finds the
tile IDLE ("aborts it and restarts it at START_PC"); alone it sets the latch the next step samples (R80) (log 10). Bit numbers
are those of R27's table (log 25). -/
def State.ctrlAbort (s : State) (withStart : Bool) : State :=
  if s.run = .running then (if withStart then s.takeAbort else { s with abortLatch := true }) else s

/-- CTRL.ACK (R27). -/
def State.ctrlAck (s : State) : State :=
  if s.run = .halted ∨ s.run = .faulted then { s with run := .idle } else s

/-- CTRL.START (R27). -/
def State.ctrlStart (s : State) : State := if s.run = .running then s else s.start

/-- A write of CTRL: ABORT, then ACK, then START (R27). Bits 31:3 are ignored. -/
def State.writeCtrl (s : State) (value : Word) : State :=
  let s := if value.getLsbD 1 then s.ctrlAbort (value.getLsbD 0) else s
  let s := if value.getLsbD 2 then s.ctrlAck else s
  if value.getLsbD 0 then s.ctrlStart else s

/-- HostWriteStartPc (R226). -/
def State.writeStartPc (s : State) (value : Word) : State :=
  if s.run = .running then s else { s with startPc := value &&& 0xFFFFFFFC }

/-- HostWriteImem at byte offset `off` of IMEM (R226). -/
def State.hostWriteImem (s : State) (off : Nat) (value : Word) : State :=
  if s.run = .running then s else { s with imem := Memory.writeRange s.imem off (byteAt value) 4 }

/-- HostWriteDmem at byte offset `off` of DMEM (R226). -/
def State.hostWriteDmem (s : State) (off : Nat) (value : Word) : State :=
  if s.run = .running then s else { s with dmem := Memory.writeRange s.dmem off (byteAt value) 4 }

/-- Where a word of the window lies (R225, R26). -/
inductive WindowPlace where
  | register (off : Nat)
  | imem (off : Nat)
  | dmem (off : Nat)
  | reserved
  deriving DecidableEq, Repr

/-- The place of the word with index `index`, at byte offset `4 * index` (R225). -/
def windowPlace (c : Config) (index : BitVec 22) : WindowPlace :=
  let off := 4 * index.toNat
  if off ≤ 0x01C then .register off
  else if 0x400000 ≤ off ∧ off < 0x400000 + c.imemBytes then .imem (off - 0x400000)
  else if 0x800000 ≤ off ∧ off < 0x800000 + c.dmemBytes then .dmem (off - 0x800000)
  else .reserved

/-- A host write of one word of the window: ignored while reset is asserted (70 R240), and by read-only registers and reserved
places. -/
def State.hostWrite (s : State) (index : BitVec 22) (value : Word) : State :=
  if s.resetAsserted then s else
  match windowPlace s.cfg index with
  | .register off => if off = 0x000 then s.writeCtrl value else if off = 0x014 then s.writeStartPc value else s
  | .imem off => s.hostWriteImem off value
  | .dmem off => s.hostWriteDmem off value
  | .reserved => s

/-- A control or status register as the host reads it (R28); CTRL reads 0. -/
def State.readRegister (s : State) (off : Nat) : Word :=
  if off = 0x004 then BitVec.ofNat 32 s.run.code
  else if off = 0x008 then BitVec.ofNat 32 s.cause.code
  else if off = 0x00C then s.epc
  else if off = 0x010 then s.finfo
  else if off = 0x014 then s.startPc
  else if off = 0x018 then hwcfg s.cfg
  else if off = 0x01C then s.cfg.hwid
  else 0

/-- The word of `m` at `off`, each byte nothing has written taken from the free word `u` (93 U8, log 19). -/
def hostWord (m : List Host.Cell) (off : Nat) (u : Word) : Word :=
  ofLanes 8 (fun k => (Memory.read m (off + k)).getD (byteAt u k)) 4

/-- A host read of a word of memory: a free value while RUNNING (20_memory.md R53), else the word. -/
def State.hostReadMemory (s : State) (m : List Host.Cell) (off : Nat) : Word × State :=
  let (u, s') := s.drawWord
  (if s.run = .running then u else hostWord m off u, s')

/-- A host read of one word of the window; reserved places read 0. While reset is asserted the tile ignores the read (70 R240), so
the word the host finds is a free value (log 26). -/
def State.hostRead (s : State) (index : BitVec 22) : Word × State :=
  if s.resetAsserted then s.drawWord else
  match windowPlace s.cfg index with
  | .register off => (s.readRegister off, s)
  | .imem off => s.hostReadMemory s.imem off
  | .dmem off => s.hostReadMemory s.dmem off
  | .reserved => (0, s)

/-- The word a host read answers, kept where the host finds it (log 8, log 24). -/
def State.answerRead (s : State) (index : BitVec 22) : State :=
  let (u, s') := s.hostRead index
  { s' with hostReads := u :: s'.hostReads }

/-- R31's state of the same tile (70 R240, R242). The model's own fields go on (log 15). -/
def State.afterReset (s : State) : State :=
  { State.resetWith s.cfg with draws := s.draws, host := s.host, hostReads := s.hostReads }

/-- Reset is asserted (70 R240): from here on the tile takes no step and ignores host accesses. The state R31 names is there when
reset is released; until then the tile keeps the one it had (log 15). -/
def State.assertReset (s : State) : State := { s with resetAsserted := true }

/-- Reset is released (70 R240). Where it was not asserted, nothing happens (log 15). -/
def State.releaseReset (s : State) : State := if s.resetAsserted then s.afterReset else s

end Sys2Proof.Machine
end

