-- ==== Sys2Proof/Machine/Sequencer.lean ====
section
/-! DEFINITION. The sequencer's step (spec 40_control_scalar.md R80) and the moves of the agents outside the tile
(60_exceptions.md R226, 70_reset_and_hazards.md R250). -/

namespace Sys2Proof.Machine

/-- Run the word the fetch read: decode it, or take ILLEGAL_INSTRUCTION with the word (R80, 60_exceptions.md R206). -/
def runWord (w : Word) (s : State) : Result :=
  match decode s.cfg.word w with
  | .instr i => exec i s
  | .illegal _ => raise .illegalInstruction w s

/-- Fetch and run (R80): the range check of 60_exceptions.md R205, then the word at pc. A byte of it that nothing has
written is `UninitRead` (10_state.md R31, log 6). -/
def fetchAndRun (s : State) : Result :=
  if s.cfg.imemBytes ≤ s.pc.toNat then raise .instrAccessFault s.pc s
  else if !Memory.written s.imem s.pc.toNat 4 then .fault (.uninitImem s.pc.toNat)
  else runWord (s.imemWord s.pc.toNat) s

/-- The tile's step (R80). When it is not RUNNING, and while reset is asserted (70 R240), it takes none: nothing changes
(log 9). -/
def tileStep (s : State) : Result :=
  if s.resetAsserted then .next s
  else if s.run = .running then (if s.abortLatch then .next s.takeAbort else fetchAndRun s) else .next s

/-- One move at a step boundary: the host's or the platform's next move, or the tile's step (70 R250, log 8). -/
def nextMove (s : State) : Result :=
  match s.host with
  | [] => tileStep s
  | .wait :: rest => tileStep { s with host := rest }
  | .write index value :: rest => .next (State.hostWrite { s with host := rest } index value)
  | .read index :: rest => .next (State.answerRead { s with host := rest } index)
  | .assertReset :: rest => .next (State.assertReset { s with host := rest })
  | .releaseReset :: rest => .next (State.releaseReset { s with host := rest })

end Sys2Proof.Machine
end

