-- ==== Sys2Proof/Machine/Step.lean ====
section
/-! DEFINITION. The step of the machine, and how the host's word is placed where the step fetches. -/

namespace Sys2Proof.Machine

/-- One step: `nextMove` of Machine/Sequencer.lean. -/
def step (s : State) : Host.Outcome State Fault Refusal := nextMove s

/-- `s` with the word of `nbits` bits `w` stored where `step` fetches its next instruction, the tile RUNNING and its
step next (log 11). -/
def State.withFetchWord (s : State) (nbits w : Nat) : State := s.placeWord (BitVec.ofNat 32 (w % 2 ^ nbits))

end Sys2Proof.Machine
end

