-- ==== Sys2Proof/Safety.lean ====
section
/-! DEFINITION. The terms in which claims about the machine are stated: its invariant, what an instruction may change, which
register an instruction writes, how a rule's encoding clause reads, and the linear maps and the reference procedure of
46_affine_nxn.md. No meaning uses any of them. -/

namespace Sys2Proof.Machine

/-! ## The invariant -/

/-- What every step keeps. A record (CAUSE, EPC, FINFO) is empty while RUNNING (10_state.md R27), names the HALT's pc after
HALT (R28), and names an exception and its pc in FAULTED (60_exceptions.md R203). -/
structure State.Inv (s : State) : Prop where
  /-- 10_state.md R20 -/
  pcAligned : s.pc.toNat % 4 = 0
  /-- R28: START_PC[1:0] read 0 -/
  startPcAligned : s.startPc.toNat % 4 = 0
  /-- R14: a vector register holds W bits -/
  vectorWidth : ∀ r : VReg, (s.v[r.val]).toNat < 2 ^ s.cfg.word.bits
  imemCanonical : Memory.wf s.imem
  dmemCanonical : Memory.wf s.dmem
  gridCanonical : Memory.wf s.grid
  /-- 20_memory.md R40: no cell outside the space -/
  imemBounded : Memory.within s.imem s.cfg.imemBytes
  dmemBounded : Memory.within s.dmem s.cfg.dmemBytes
  gridBounded : Memory.within s.grid s.cfg.gridSize
  /-- 92 D44: the latch is clear outside RUNNING -/
  latchOnlyRunning : s.abortLatch = true → s.run = .running
  runningRecord : s.run = .running → s.cause = .none ∧ s.epc = 0 ∧ s.finfo = 0
  haltedRecord : s.run = .halted → s.cause = .none ∧ s.finfo = 0 ∧ s.epc = s.pc
  faultedRecord : s.run = .faulted → s.cause ≠ .none ∧ s.epc = s.pc

/-! ## Frames -/

/-- Which parts of the state an instruction may change. The pc may always change. -/
structure Footprint where
  vec : VReg → Prop := fun _ => False
  scalar : XReg → Prop := fun _ => False
  flag : Prop := False
  /-- entries of the grid memory -/
  grid : Nat → Prop := fun _ => False
  /-- addresses of DMEM -/
  dmem : Nat → Prop := fun _ => False
  /-- the model's count of free values -/
  draws : Prop := False
  /-- STATE, CAUSE, EPC, FINFO and the abort latch -/
  control : Prop := False

/-- Everything outside the footprint is as before. No footprint lets an instruction change IMEM, START_PC, the parameters, the
reset input or what the host does. -/
structure ChangesOnly (p : Footprint) (s t : State) : Prop where
  cfg : t.cfg = s.cfg
  vec : ∀ r, ¬ p.vec r → t.getV r = s.getV r
  scalar : ∀ r, ¬ p.scalar r → t.getX r = s.getX r
  flag : ¬ p.flag → t.flag = s.flag
  grid : ∀ k, ¬ p.grid k → Memory.read t.grid k = Memory.read s.grid k
  dmem : ∀ a, ¬ p.dmem a → Memory.read t.dmem a = Memory.read s.dmem a
  imem : ∀ a, Memory.read t.imem a = Memory.read s.imem a
  draws : ¬ p.draws → t.draws = s.draws
  control : ¬ p.control →
    t.run = s.run ∧ t.cause = s.cause ∧ t.epc = s.epc ∧ t.finfo = s.finfo ∧ t.abortLatch = s.abortLatch
  startPc : t.startPc = s.startPc
  resetAsserted : t.resetAsserted = s.resetAsserted
  host : t.host = s.host
  hostReads : t.hostReads = s.hostReads

/-- The vector register an instruction writes (10_state.md R30). -/
def vectorDest : Instr → Option VReg
  | .vld d _ _ | .vmvx d _ | .vbcast d _ _ | .vand d _ _ | .vor d _ _ | .vxor d _ _ | .vnot d _ => some d
  | .vshl d _ _ | .vshr d _ _ | .vshli d _ _ | .vshri d _ _ | .vrand d | .vfill d _ | .vfillx d _ => some d
  | .vmask d _ _ | .vblend d _ _ _ | .toaes d _ | .fromaes d _ | .gfmul d _ _ | .gfaff d _ _ => some d
  | .gfaffinv d _ _ | .tmul d _ _ | .tinv d _ | .mprep d _ | .affg d _ _ | .grd d _ | .xform d _ _ _ => some d
  | .nop | .halt | .j _ | .bnez _ _ | .beqz _ _ | .bfs _ | .bfc _ | .li _ _ | .addi _ _ _ | .csrr _ _ => none
  | .vst _ _ _ | .xmvv _ _ | .veq _ _ | .gwr _ _ | .gbuild _ _ _ => none

/-- The scalar register an instruction writes (R30). -/
def scalarDest : Instr → Option XReg
  | .li d _ | .addi d _ _ | .csrr d _ | .xmvv d _ => some d
  | .nop | .halt | .j _ | .bnez _ _ | .beqz _ _ | .bfs _ | .bfc _ => none
  | .vld _ _ _ | .vst _ _ _ | .vmvx _ _ | .vbcast _ _ _ | .vand _ _ _ | .vor _ _ _ | .vxor _ _ _ => none
  | .vnot _ _ | .vshl _ _ _ | .vshr _ _ _ | .vshli _ _ _ | .vshri _ _ _ | .veq _ _ | .vrand _ => none
  | .vfill _ _ | .vfillx _ _ | .vmask _ _ _ | .vblend _ _ _ _ | .toaes _ _ | .fromaes _ _ | .gfmul _ _ _ => none
  | .gfaff _ _ _ | .gfaffinv _ _ _ | .tmul _ _ _ | .tinv _ _ | .mprep _ _ | .affg _ _ _ | .gwr _ _ => none
  | .grd _ _ | .gbuild _ _ _ | .xform _ _ _ _ => none

/-- The instruction transfers control (40_control_scalar.md R83 to R87). -/
def transfersControl : Instr → Bool
  | .j _ | .bnez _ _ | .beqz _ _ | .bfs _ | .bfc _ => true
  | .nop | .halt | .li _ _ | .addi _ _ _ | .csrr _ _ | .vld _ _ _ | .vst _ _ _ | .vmvx _ _ | .xmvv _ _ => false
  | .vbcast _ _ _ | .vand _ _ _ | .vor _ _ _ | .vxor _ _ _ | .vnot _ _ | .vshl _ _ _ | .vshr _ _ _ => false
  | .vshli _ _ _ | .vshri _ _ _ | .veq _ _ | .vrand _ | .vfill _ _ | .vfillx _ _ | .vmask _ _ _ => false
  | .vblend _ _ _ _ | .toaes _ _ | .fromaes _ _ | .gfmul _ _ _ | .gfaff _ _ _ | .gfaffinv _ _ _ => false
  | .tmul _ _ _ | .tinv _ _ | .mprep _ _ | .affg _ _ _ | .gwr _ _ | .grd _ _ | .gbuild _ _ _ => false
  | .xform _ _ _ _ => false

/-! ## Clauses shared by the statements -/

/-- A rule's encoding clause and its ILLEGAL_INSTRUCTION clause: a word with opcode `op` means `mk w` when it is legal, and is
an illegal word otherwise. -/
def EncodedAs (op : BitVec 6) (legal : WordSel → Word → Bool) (mk : Word → Instr) : Prop :=
  ∀ ww w, opOf w = op →
    (legal ww w = true → decode ww w = .instr (mk w)) ∧
    (legal ww w = false → ∃ r, decode ww w = .illegal r)

/-- At this boundary it is the tile that moves, as the state `u`: the host has no more moves, or its next one lets the tile step
(log 8). -/
def State.TileMoves (s u : State) : Prop := (s.host = [] ∧ u = s) ∨ ∃ rest, s.host = .wait :: rest ∧ u = { s with host := rest }

/-- The tile that moves is about to fetch (40_control_scalar.md R80): out of reset, RUNNING, no abort requested. -/
def State.Fetching (u : State) : Prop := u.resetAsserted = false ∧ u.run = .running ∧ u.abortLatch = false

/-- "A bad target faults at the next fetch" (40_control_scalar.md R83): INSTR_ACCESS_FAULT with EPC = FINFO = the target. -/
def FaultsAtFetch (t : State) : Prop :=
  ∀ u, t.TileMoves u → u.Fetching → u.cfg.imemBytes ≤ u.pc.toNat → step t = .next (u.enterException .instrAccessFault u.pc)

/-! ## The linear maps and the reference procedure of 46_affine_nxn.md -/

/-- `bases[k]`: the N bytes of DMEM from `A + k·N`, little-endian (46 R187). -/
def State.basis (s : State) (A N k : Nat) : Wide := s.memRead (A + k * N) N

/-- `T(x)`: the XOR of `bases[k]` over the bits `k` of `x` that are 1 (R185). -/
def linearMap {m : Nat} (bases : Nat → BitVec m) (x : BitVec m) : BitVec m :=
  xorUpTo (fun k => if x.getLsbD k then bases k else 0) m

/-- AFFG's result word: one grid matrix applied to every byte. -/
def affineWord (ww : WordSel) (A : Mat) (u : Wide) : Wide := ofByteLanes ww fun p => affine A (byteAt u p)

/-- `Shift(u, 8·(i − j))` of R190. -/
def shiftBytes (ww : WordSel) (u : Wide) (i j : Nat) : Wide :=
  if j ≤ i then shiftLeft ww u (8 * (i - j)) else shiftRight ww u (8 * (j - i))

/-- `P_i` of R190. -/
def State.partialWord (s : State) (g N : Nat) (src : Wide) (i : Nat) : Wide :=
  xorUpTo (fun j => shiftBytes s.cfg.word (affineWord s.cfg.word (s.gridEntry (g + j * N + i)) src) i j) N

/-- VBLEND's result word (41_wide_word.md R114). -/
def blendWord (ww : WordSel) (lvl : Nat) (u u' : Wide) : Wide :=
  (u &&& evenMask ww lvl) ||| (u' &&& oddMask ww lvl)

/-- One level of the blend tree of R191. -/
def blendPairs (ww : WordSel) (lvl : Nat) : List Wide → List Wide
  | u :: u' :: rest => blendWord ww lvl u u' :: blendPairs ww lvl rest
  | short => short

/-- `k` levels of the blend tree of R191, from level `lvl` on. -/
def blendTree (ww : WordSel) : (k lvl : Nat) → List Wide → List Wide
  | 0, _, l => l
  | k + 1, lvl, l => blendTree ww k (lvl + 1) (blendPairs ww lvl l)

end Sys2Proof.Machine
end

