-- ==== Sys2Proof/Certificates/Slice0/Obligations.lean ====
section
/-! DEFINITION. The statements about the GFAT tile, for the provers. Each docstring names the rules of spec/ it formalises;
"log n" is an entry of the model's assumption log and marks a clause that is the model's, not the spec's. -/

open Sys2Proof Sys2Proof.Machine

/-! ## Encoding (30_encoding.md) -/

/-- R71: the thirteen encoding examples. -/
def Obligations.EncodingExamplesDecode : Prop :=
  decode .w128 0x04000000 = .instr .nop ∧
  decode .w128 0x08000000 = .instr .halt ∧
  decode .w128 0x20400100 = .instr (.li 1 0x100) ∧
  decode .w128 0x24883FFF = .instr (.addi 2 2 (-1)) ∧
  decode .w128 0x40440000 = .instr (.vld 1 1 0) ∧
  decode .w128 0x44C40010 = .instr (.vst 3 1 16) ∧
  decode .w128 0x8848C000 = .instr (.vxor 1 2 3) ∧
  decode .w128 0x98480008 = .instr (.vshli 1 2 8) ∧
  decode .w128 0xB5158003 = .instr (.vblend 4 5 6 3) ∧
  decode .w128 0xC848C000 = .instr (.gfmul 1 2 3) ∧
  decode .w128 0xF0841010 = .instr (.xform 2 1 2 16) ∧
  decode .w128 0xEC041010 = .instr (.gbuild 1 2 16) ∧
  decode .w128 0x10BFFFFD = .instr (.bnez 2 (-3))

/-- Headline: on every tile width, decoding the encoding of a well-formed instruction gives it back, with every operand at every
value the encoding admits. -/
def Obligations.DecodeOfEncodeIsTheInstruction : Prop :=
  ∀ (ww : WordSel) (i : Instr), i.wellFormed ww = true → decode ww (encode i) = .instr i

/-- The other direction: a word that decodes is the encoding of a well-formed instruction, so no two words mean the same
instruction and no bit of a legal word is dropped. -/
def Obligations.EncodeOfDecodeIsTheWord : Prop :=
  ∀ (ww : WordSel) (w : Word) (i : Instr), decode ww w = .instr i → encode i = w ∧ i.wellFormed ww = true

/-- R68: every word is exactly one row of the opcode table with its value conditions met, and then decodes to an instruction
of that row, or is illegal; no two rows overlap. -/
def Obligations.EveryWordIsOneTableRowOrIllegal : Prop :=
  (∀ r ∈ opcodeTable, ∀ r' ∈ opcodeTable, ∀ w, r.hits w = true → r'.hits w = true → r = r') ∧
  (∀ ww w i, decode ww w = .instr i →
    ∃ r ∈ opcodeTable, r.hits w = true ∧ valueConditions ww r w = true ∧ r.mnemonic = i.mnemonic) ∧
  (∀ ww w e, decode ww w = .illegal e →
    ∀ r ∈ opcodeTable, r.hits w = true → valueConditions ww r w = false)

/-- R67: a word is illegal exactly when one of the rule's five items holds: its opcode is reserved; it has the opcode of a row but a
must-be-zero bit is 1; or it is a row's word and the row's value condition fails. The row of an opcode is the one with the same
bits 31:26. -/
def Obligations.IllegalWordsAreTheFiveItems : Prop :=
  ∀ ww w, (∃ e, decode ww w = .illegal e) ↔
    (opOf w ∈ [0x00#6, 0x0B#6, 0x0C#6, 0x0D#6, 0x0E#6, 0x0F#6, 0x15#6, 0x16#6, 0x17#6, 0x18#6, 0x19#6, 0x1A#6, 0x1B#6,
        0x1C#6, 0x1D#6, 0x1E#6, 0x1F#6, 0x2E#6, 0x2F#6, 0x3D#6, 0x3E#6, 0x3F#6]) ∨
    (∃ r ∈ opcodeTable, opOf r.bits = opOf w ∧ r.hits w = false) ∨
    ((opOf w = 0x2C#6 ∨ opOf w = 0x2D#6) ∧ ww.lmax < (lvlOf w).toNat) ∨
    ((opOf w = 0x3B#6 ∨ opOf w = 0x3C#6) ∧ 4 < (lgNOf w).toNat) ∨
    (opOf w = 0x0A#6 ∧ imm14Of w ≠ 0 ∧ imm14Of w ≠ 1)

/-! ## The step (40_control_scalar.md R80, 60_exceptions.md) -/

/-- A step runs the decoded instruction: where the tile moves as `u` (the host is silent, or lets the tile step: log 8), out of reset, RUNNING
and with no abort requested, when the four bytes at the pc are in IMEM, have been written, and decode to `i`, the step is `exec i`. -/
def Obligations.StepRunsTheDecodedInstruction : Prop :=
  ∀ (s u : State) (i : Instr), s.TileMoves u → u.Fetching → u.pc.toNat < u.cfg.imemBytes →
    Memory.written u.imem u.pc.toNat 4 = true → decode u.cfg.word (u.imemWord u.pc.toNat) = .instr i → step s = exec i u

/-- The host's word placed where the machine fetches is the instruction that the next step runs (log 11). -/
def Obligations.PlacedInstructionRunsNext : Prop :=
  ∀ (s : State) (i : Instr), i.wellFormed s.cfg.word = true →
    step (s.withFetchWord 32 (encode i).toNat) =
      exec i { s.placeWord (encode i) with host := s.host }

/-- R205 and R206: a fetch at a pc outside IMEM raises INSTR_ACCESS_FAULT with EPC = FINFO = the pc, and a word that decodes to no
instruction raises ILLEGAL_INSTRUCTION with the word in FINFO; neither has another effect. A fetch that reads a byte nothing has
written stops the model with UninitRead (R31, log 6). The tile moves as `u` (log 8). -/
def Obligations.FetchAndDecodeFaults : Prop :=
  ∀ s u : State, s.TileMoves u → u.Fetching →
    (u.cfg.imemBytes ≤ u.pc.toNat →
      ∃ t, step s = .next t ∧ t.run = .faulted ∧ t.cause = .instrAccessFault ∧ t.epc = u.pc ∧ t.finfo = u.pc ∧
        t.pc = u.pc ∧ ChangesOnly { control := True } u t) ∧
    (∀ e : Reject, u.pc.toNat < u.cfg.imemBytes → Memory.written u.imem u.pc.toNat 4 = true →
      decode u.cfg.word (u.imemWord u.pc.toNat) = .illegal e →
      ∃ t, step s = .next t ∧ t.run = .faulted ∧ t.cause = .illegalInstruction ∧ t.epc = u.pc ∧
        t.finfo = u.imemWord u.pc.toNat ∧ t.pc = u.pc ∧ ChangesOnly { control := True } u t) ∧
    (∀ k, k < 4 → u.pc.toNat < u.cfg.imemBytes → Memory.read u.imem (u.pc.toNat + k) = none →
      step s = .fault (.uninitImem u.pc.toNat))

/-- The abort request is taken before the fetch (R80), and outside RUNNING the tile takes no step: nothing changes (R228; that the
machine then answers the same state is the model's form, log 9). The tile moves as `u` (log 8). -/
def Obligations.AbortIsTakenBeforeTheFetchAndStoppedTilesRest : Prop :=
  (∀ s u : State, s.TileMoves u → u.resetAsserted = false → u.run = .running → u.abortLatch = true →
    ∃ t, step s = .next t ∧ t.run = .idle ∧ t.epc = u.pc ∧ t.abortLatch = false ∧ t.pc = u.pc ∧ t.cause = u.cause ∧
      t.finfo = u.finfo ∧ ChangesOnly { control := True } u t) ∧
  (∀ s u : State, s.TileMoves u → u.run ≠ .running → step s = .next u)

/-- R203: exception entry. CAUSE, EPC, FINFO and STATE are written, the abort latch is cleared, DONE rises, the pc stays at the
instruction, and nothing else changes. R201: the codes. -/
def Obligations.ExceptionEntryRecordsAndStops : Prop :=
  (∀ (s : State) (e : Cause) (info : Word), ∃ t, raise e info s = .next t ∧
    t.cause = e ∧ t.epc = s.pc ∧ t.finfo = info ∧ t.run = .faulted ∧ t.abortLatch = false ∧ t.done = true ∧ t.pc = s.pc ∧
    ChangesOnly { control := True } s t) ∧
  Cause.none.code = 0 ∧ Cause.illegalInstruction.code = 1 ∧ Cause.instrAccessFault.code = 2 ∧
  Cause.dataMisaligned.code = 3 ∧ Cause.dataAccessFault.code = 4 ∧ Cause.illegalOperand.code = 5 ∧ Cause.gridRange.code = 6

/-! ## Rules about the whole machine -/

/-- The invariant holds in the state after reset of every tile, in `State.reset` among them. -/
def Obligations.InvariantHoldsAfterReset : Prop := (∀ c, (State.resetWith c).Inv) ∧ State.reset.Inv

/-- Headline: every step, of the tile, of its host or of the platform, keeps the invariant. -/
def Obligations.EveryStepKeepsTheInvariant : Prop :=
  ∀ s t : State, s.Inv → step s = .next t → t.Inv

/-- R242 and R5: no step changes a parameter, so HWCFG, HWID, T2A, A2T and the interleave masks stay, through resets too. -/
def Obligations.NoStepChangesTheParameters : Prop :=
  ∀ s t : State, step s = .next t → t.cfg = s.cfg

/-- R41, R56 and R252: no instruction writes IMEM, and while RUNNING no move but the release of reset changes it. -/
def Obligations.ImemIsNotWrittenWhileRunning : Prop :=
  (∀ (i : Instr) (s t : State), exec i s = .next t → t.imem = s.imem) ∧
  (∀ s t : State, s.run = .running → (∀ rest, s.host ≠ .releaseReset :: rest) → step s = .next t → t.imem = s.imem)

/-- R30, the writers: a vector or scalar register changes only as the destination, F only by VEQ, G only by GBUILD and GWR, DMEM only
by VST; and no instruction changes START_PC, the parameters or what the host does (R220). -/
def Obligations.OnlyTheListedInstructionsWriteEachPart : Prop :=
  ∀ (i : Instr) (s t : State), exec i s = .next t →
    (∀ r, t.getV r ≠ s.getV r → vectorDest i = some r) ∧
    (∀ r, t.getX r ≠ s.getX r → scalarDest i = some r) ∧
    (t.flag ≠ s.flag → ∃ a b, i = .veq a b) ∧
    (t.grid ≠ s.grid → (∃ a g, i = .gwr a g) ∨ ∃ a lgN g, i = .gbuild a lgN g) ∧
    (t.dmem ≠ s.dmem → ∃ d a imm, i = .vst d a imm) ∧
    t.startPc = s.startPc ∧ t.cfg = s.cfg ∧ t.host = s.host ∧ t.hostReads = s.hostReads

/-- R200 and R203: exceptions are precise and fatal. An instruction of a RUNNING tile that leaves it FAULTED has written its record
and nothing else, whatever the instruction and the exception. -/
def Obligations.EveryExceptionIsPrecise : Prop :=
  ∀ (i : Instr) (s t : State), s.run = .running → exec i s = .next t → t.run = .faulted →
    t.cause ≠ .none ∧ t.epc = s.pc ∧ t.pc = s.pc ∧ ChangesOnly { control := True } s t

/-- R220: a program cannot stop itself except by HALT or an exception; an instruction that does neither leaves STATE, CAUSE, EPC,
FINFO and the abort latch alone. -/
def Obligations.OnlyHaltAndExceptionsStopAProgram : Prop :=
  ∀ (i : Instr) (s t : State), s.run = .running → exec i s = .next t →
    (t.run = .halted ∧ i = .halt) ∨ (t.run = .faulted ∧ t.cause ≠ .none) ∨
    (t.run = .running ∧ t.cause = s.cause ∧ t.epc = s.epc ∧ t.finfo = s.finfo ∧ t.abortLatch = s.abortLatch)

/-- R20: an instruction that neither transfers control nor stops adds 4 to the pc, and every target is a whole number of
instructions away. -/
def Obligations.PcMovesByWholeInstructions : Prop :=
  ∀ (i : Instr) (s t : State), s.run = .running → exec i s = .next t → t.run = .running →
    (transfersControl i = false → t.pc = s.pc + 4) ∧ (∃ k : Word, t.pc = s.pc + 4 * k)

/-- No instruction is refused, and the only faults are reads of cells that nothing has written (R31's UninitRead, which the model
keeps for IMEM, DMEM and G alone, log 6), each of the very range the instruction reads: VLD's word, GBUILD's basis images, the entry
of AFFG and GRD, XFORM's grid. -/
def Obligations.InstructionsStopOnlyOnUnwrittenCells : Prop :=
  ∀ (i : Instr) (s : State),
    (∀ r, exec i s ≠ .refused r) ∧
    (∀ f, exec i s = .fault f →
      (∃ d a imm14, i = .vld d a imm14 ∧ f = .uninitDmem (s.effectiveAddress a imm14).toNat ∧
        ∃ k, k < s.cfg.word.bytes ∧ Memory.read s.dmem ((s.effectiveAddress a imm14).toNat + k) = none) ∨
      (∃ a lgN g, i = .gbuild a lgN g ∧ f = .uninitDmem (s.getX a).toNat ∧
        ∃ k, k < 8 * 2 ^ lgN.toNat * 2 ^ lgN.toNat ∧ Memory.read s.dmem ((s.getX a).toNat + k) = none) ∨
      (∃ g : BitVec 11, ((∃ d a, i = .affg d a g) ∨ ∃ d, i = .grd d g) ∧ f = .uninitGrid g.toNat ∧
        Memory.read s.grid g.toNat = none) ∨
      (∃ d a lgN g, i = .xform d a lgN g ∧ f = .uninitGrid g.toNat ∧
        ∃ k, k < 2 ^ lgN.toNat * 2 ^ lgN.toNat ∧ Memory.read s.grid (g.toNat + k) = none))

/-! ## Control and scalar instructions (40_control_scalar.md) -/

/-- R19: x0 reads 0, a write to it is discarded and has no other effect; every other register holds what was written. -/
def Obligations.ScalarZeroIsHardwired : Prop :=
  (∀ s : State, s.getX 0 = 0) ∧ (∀ (s : State) (u : Word), s.setX 0 u = s) ∧
  (∀ (s : State) (r : XReg) (u : Word), r ≠ 0 → (s.setX r u).getX r = u ∧ ∀ q, q ≠ r → (s.setX r u).getX q = s.getX q)

/-- R81. -/
def Obligations.NopOnlyAdvancesThePc : Prop :=
  EncodedAs 0x01 (fun _ w => off26Of w == 0) (fun _ => .nop) ∧ encode .nop = 0x04000000 ∧
  ∀ s : State, ∃ t, exec .nop s = .next t ∧ t.pc = s.pc + 4 ∧ ChangesOnly {} s t

/-- R82. What the host then reads of DMEM is what DMEM holds. -/
def Obligations.HaltStopsTheProgram : Prop :=
  EncodedAs 0x02 (fun _ w => off26Of w == 0) (fun _ => .halt) ∧ encode .halt = 0x08000000 ∧
  ∀ s : State, ∃ t, exec .halt s = .next t ∧ t.epc = s.pc ∧ t.run = .halted ∧ t.abortLatch = false ∧ t.pc = s.pc ∧
    t.cause = s.cause ∧ t.finfo = s.finfo ∧ t.done = true ∧ ChangesOnly { control := True } s t ∧
    (∀ off, (∀ k, k < 4 → (Memory.read s.dmem (off + k)).isSome = true) →
      ∀ k, k < 4 → some (byteAt (t.hostReadMemory t.dmem off).1 k) = Memory.read s.dmem (off + k))

/-- R83: the target is `pc + 4·off26`, off26 signed, modulo 2^32; a target outside IMEM faults at the next fetch. -/
def Obligations.JumpGoesToItsTarget : Prop :=
  EncodedAs 0x03 (fun _ _ => true) (fun w => .j (off26Of w)) ∧
  ∀ (off26 : BitVec 26) (s : State), ∃ t, exec (.j off26) s = .next t ∧
    t.pc = s.pc + BitVec.ofInt 32 (4 * off26.toInt) ∧ ChangesOnly {} s t ∧ FaultsAtFetch t

/-- R84 and R85: BNEZ and BEQZ go to `pc + 4·imm22`, imm22 signed, or on, as the register is zero or not; x0 never branches under BNEZ and
always under BEQZ. -/
def Obligations.ScalarBranchesTestOneRegister : Prop :=
  EncodedAs 0x04 (fun _ _ => true) (fun w => .bnez (rdOf w) (imm22Of w)) ∧
  EncodedAs 0x05 (fun _ _ => true) (fun w => .beqz (rdOf w) (imm22Of w)) ∧
  (∀ (d : XReg) (imm22 : BitVec 22) (s : State), ∃ t, exec (.bnez d imm22) s = .next t ∧
    t.pc = (if s.getX d ≠ 0 then s.pc + BitVec.ofInt 32 (4 * imm22.toInt) else s.pc + 4) ∧
    ChangesOnly {} s t ∧ FaultsAtFetch t) ∧
  (∀ (d : XReg) (imm22 : BitVec 22) (s : State), ∃ t, exec (.beqz d imm22) s = .next t ∧
    t.pc = (if s.getX d = 0 then s.pc + BitVec.ofInt 32 (4 * imm22.toInt) else s.pc + 4) ∧
    ChangesOnly {} s t ∧ FaultsAtFetch t) ∧
  (∀ (imm22 : BitVec 22) (s : State), exec (.bnez 0 imm22) s = exec .nop s) ∧
  (∀ (imm22 : BitVec 22) (s : State), ∃ t, exec (.beqz 0 imm22) s = .next t ∧
    t.pc = s.pc + BitVec.ofInt 32 (4 * imm22.toInt))

/-- BFS and BFC (40_control_scalar.md §2). F holds a value in every state, so the read is never a fault (log 5). -/
def Obligations.FlagBranchesTestTheFlag : Prop :=
  EncodedAs 0x06 (fun _ w => dOf w == 0) (fun w => .bfs (imm22Of w)) ∧
  EncodedAs 0x07 (fun _ w => dOf w == 0) (fun w => .bfc (imm22Of w)) ∧
  (∀ (imm22 : BitVec 22) (s : State), ∃ t, exec (.bfs imm22) s = .next t ∧
    t.pc = (if s.flag = true then s.pc + BitVec.ofInt 32 (4 * imm22.toInt) else s.pc + 4) ∧
    ChangesOnly {} s t ∧ FaultsAtFetch t) ∧
  (∀ (imm22 : BitVec 22) (s : State), ∃ t, exec (.bfc imm22) s = .next t ∧
    t.pc = (if s.flag = false then s.pc + BitVec.ofInt 32 (4 * imm22.toInt) else s.pc + 4) ∧
    ChangesOnly {} s t ∧ FaultsAtFetch t)

/-- R88 and R89: LI zero-extends, ADDI adds its signed immediate modulo 2^32, a write to x0 is discarded, no flag. -/
def Obligations.LiAndAddiWriteOneScalar : Prop :=
  EncodedAs 0x08 (fun _ _ => true) (fun w => .li (rdOf w) (imm22Of w)) ∧
  EncodedAs 0x09 (fun _ w => bOf w == 0) (fun w => .addi (rdOf w) (raOf w) (imm14Of w)) ∧
  (∀ (d : XReg) (imm22 : BitVec 22) (s : State), ∃ t, exec (.li d imm22) s = .next t ∧
    t.getX d = (if d = 0 then 0 else BitVec.ofNat 32 imm22.toNat) ∧
    t.pc = s.pc + 4 ∧ ChangesOnly { scalar := fun r => r = d } s t) ∧
  (∀ (d a : XReg) (imm14 : BitVec 14) (s : State), ∃ t, exec (.addi d a imm14) s = .next t ∧
    t.getX d = (if d = 0 then 0 else BitVec.ofInt 32 ((s.getX a).toNat + imm14.toInt)) ∧
    t.pc = s.pc + 4 ∧ ChangesOnly { scalar := fun r => r = d } s t)

/-- R90, with HWCFG's fields of R28. A word with a CSR number other than 0 and 1 is illegal; that `exec` on such a term, which no word
means, takes the exception is the model's (log 12). -/
def Obligations.CsrrReadsHwcfgOrHwid : Prop :=
  EncodedAs 0x0A (fun _ w => aOf w == 0 && bOf w == 0 && (imm14Of w == 0 || imm14Of w == 1))
    (fun w => .csrr (rdOf w) (imm14Of w)) ∧
  (∀ (d : XReg) (s : State), ∃ t, exec (.csrr d 0) s = .next t ∧ (d ≠ 0 → t.getX d = hwcfg s.cfg) ∧
    t.pc = s.pc + 4 ∧ ChangesOnly { scalar := fun r => r = d } s t) ∧
  (∀ (d : XReg) (s : State), ∃ t, exec (.csrr d 1) s = .next t ∧ (d ≠ 0 → t.getX d = s.cfg.hwid) ∧
    t.pc = s.pc + 4 ∧ ChangesOnly { scalar := fun r => r = d } s t) ∧
  (∀ (d : XReg) (csr : BitVec 14) (s : State), csr ≠ 0 → csr ≠ 1 →
    exec (.csrr d csr) s = .next (s.enterException .illegalInstruction (encode (.csrr d csr)))) ∧
  (∀ c : Config, (hwcfg c).extractLsb' 0 2 = c.word.code ∧ (hwcfg c).extractLsb' 2 6 = 0 ∧
    2 ^ ((hwcfg c).extractLsb' 8 8).toNat = c.gridSize ∧ 2 ^ ((hwcfg c).extractLsb' 16 8).toNat = c.imemBytes ∧
    2 ^ ((hwcfg c).extractLsb' 24 8).toNat = c.dmemBytes)

/-! ## Wide-word instructions (41_wide_word.md) -/

/-- R100, R101, R103 and the result of VXOR: bit i of the W bits, and 0 above them. -/
def Obligations.BitwiseLogicActsOnEveryBit : Prop :=
  EncodedAs 0x20 (fun _ w => imm14Of w == 0) (fun w => .vand (rdOf w) (raOf w) (rbOf w)) ∧
  EncodedAs 0x21 (fun _ w => imm14Of w == 0) (fun w => .vor (rdOf w) (raOf w) (rbOf w)) ∧
  EncodedAs 0x22 (fun _ w => imm14Of w == 0) (fun w => .vxor (rdOf w) (raOf w) (rbOf w)) ∧
  EncodedAs 0x23 (fun _ w => bOf w == 0 && imm14Of w == 0) (fun w => .vnot (rdOf w) (raOf w)) ∧
  ∀ (d a b : VReg) (s : State),
    (∃ t, exec (.vand d a b) s = .next t ∧
      (∀ i, (t.getV d).getLsbD i = ((s.getV a).getLsbD i && (s.getV b).getLsbD i)) ∧
      t.pc = s.pc + 4 ∧ ChangesOnly { vec := fun r => r = d } s t) ∧
    (∃ t, exec (.vor d a b) s = .next t ∧
      (∀ i, (t.getV d).getLsbD i = ((s.getV a).getLsbD i || (s.getV b).getLsbD i)) ∧
      t.pc = s.pc + 4 ∧ ChangesOnly { vec := fun r => r = d } s t) ∧
    (∃ t, exec (.vxor d a b) s = .next t ∧
      (∀ i, (t.getV d).getLsbD i = ((s.getV a).getLsbD i ^^ (s.getV b).getLsbD i)) ∧
      t.pc = s.pc + 4 ∧ ChangesOnly { vec := fun r => r = d } s t) ∧
    (∃ t, exec (.vnot d a) s = .next t ∧
      (∀ i, (t.getV d).getLsbD i = (decide (i < s.cfg.word.bits) && !(s.getV a).getLsbD i)) ∧
      t.pc = s.pc + 4 ∧ ChangesOnly { vec := fun r => r = d } s t)

/-- R104, R105 and R106: the whole W-bit word by the whole unsigned 32-bit register; a count of W or more gives 0. -/
def Obligations.RegisterShiftsFollowTheShiftPrimitives : Prop :=
  EncodedAs 0x24 (fun _ w => imm14Of w == 0) (fun w => .vshl (rdOf w) (raOf w) (rbOf w)) ∧
  EncodedAs 0x25 (fun _ w => imm14Of w == 0) (fun w => .vshr (rdOf w) (raOf w) (rbOf w)) ∧
  ∀ (d a : VReg) (b : XReg) (s : State),
    (∃ t, exec (.vshl d a b) s = .next t ∧
      (t.getV d).toNat = (if s.cfg.word.bits ≤ (s.getX b).toNat then 0
        else (s.getV a).toNat * 2 ^ (s.getX b).toNat % 2 ^ s.cfg.word.bits) ∧
      t.pc = s.pc + 4 ∧ ChangesOnly { vec := fun r => r = d } s t) ∧
    (∃ t, exec (.vshr d a b) s = .next t ∧
      (t.getV d).toNat = (if s.cfg.word.bits ≤ (s.getX b).toNat then 0
        else (s.getV a).toNat / 2 ^ (s.getX b).toNat) ∧
      t.pc = s.pc + 4 ∧ ChangesOnly { vec := fun r => r = d } s t)

/-- R107 and R108: as the register shifts, by the unsigned 14-bit count. -/
def Obligations.ImmediateShiftsFollowTheShiftPrimitives : Prop :=
  EncodedAs 0x26 (fun _ w => bOf w == 0) (fun w => .vshli (rdOf w) (raOf w) (imm14Of w)) ∧
  EncodedAs 0x27 (fun _ w => bOf w == 0) (fun w => .vshri (rdOf w) (raOf w) (imm14Of w)) ∧
  ∀ (d a : VReg) (imm14 : BitVec 14) (s : State),
    (∃ t, exec (.vshli d a imm14) s = .next t ∧
      (t.getV d).toNat = (if s.cfg.word.bits ≤ imm14.toNat then 0
        else (s.getV a).toNat * 2 ^ imm14.toNat % 2 ^ s.cfg.word.bits) ∧
      t.pc = s.pc + 4 ∧ ChangesOnly { vec := fun r => r = d } s t) ∧
    (∃ t, exec (.vshri d a imm14) s = .next t ∧
      (t.getV d).toNat = (if s.cfg.word.bits ≤ imm14.toNat then 0 else (s.getV a).toNat / 2 ^ imm14.toNat) ∧
      t.pc = s.pc + 4 ∧ ChangesOnly { vec := fun r => r = d } s t)

/-- R109: F is 1 exactly when the two words agree in all W bits; no vector register is written. -/
def Obligations.VeqSetsTheFlagOnEquality : Prop :=
  EncodedAs 0x28 (fun _ w => dOf w == 0 && imm14Of w == 0) (fun w => .veq (raOf w) (rbOf w)) ∧
  ∀ (a b : VReg) (s : State), ∃ t, exec (.veq a b) s = .next t ∧
    (t.flag = true ↔ ∀ i, i < s.cfg.word.bits → (s.getV a).getLsbD i = (s.getV b).getLsbD i) ∧
    t.pc = s.pc + 4 ∧ ChangesOnly { flag := True } s t

/-- VRAND (41_wide_word.md §4) takes the next free draw, W bits of it, and the next VRAND another one. The draw is the model's own form of
`Draw(W)` (log 7): a constant with no body, at a count the statement leaves free. -/
def Obligations.VrandTakesAFreshDraw : Prop :=
  EncodedAs 0x29 (fun _ w => aOf w == 0 && bOf w == 0 && imm14Of w == 0) (fun w => .vrand (rdOf w)) ∧
  ∀ (d : VReg) (s : State), ∃ t, exec (.vrand d) s = .next t ∧
    (∀ i, (t.getV d).getLsbD i = (decide (i < s.cfg.word.bits) && (Config.freeWide s.draws).getLsbD i)) ∧
    t.draws = s.draws + 1 ∧ t.pc = s.pc + 4 ∧ ChangesOnly { vec := fun r => r = d, draws := True } s t

/-- R111. -/
def Obligations.VfillFillsWithTheBit : Prop :=
  EncodedAs 0x2A (fun _ w => aOf w == 0 && bOf w == 0 && (imm14Of w).extractLsb' 1 13 == 0)
    (fun w => .vfill (rdOf w) (bitOf w)) ∧
  ∀ (d : VReg) (bit : Bool) (s : State), ∃ t, exec (.vfill d bit) s = .next t ∧
    (t.getV d).toNat = (if bit = true then 2 ^ s.cfg.word.bits - 1 else 0) ∧
    t.pc = s.pc + 4 ∧ ChangesOnly { vec := fun r => r = d } s t

/-- R112: 0 and 1 fill, any other value raises ILLEGAL_OPERAND with the value in FINFO and writes nothing. -/
def Obligations.VfillxFillsOrRaisesIllegalOperand : Prop :=
  EncodedAs 0x2B (fun _ w => bOf w == 0 && imm14Of w == 0) (fun w => .vfillx (rdOf w) (raOf w)) ∧
  ∀ (d : VReg) (a : XReg) (s : State),
    (s.getX a = 0 → ∃ t, exec (.vfillx d a) s = .next t ∧ t.getV d = 0 ∧
      t.pc = s.pc + 4 ∧ ChangesOnly { vec := fun r => r = d } s t) ∧
    (s.getX a = 1 → ∃ t, exec (.vfillx d a) s = .next t ∧ (t.getV d).toNat = 2 ^ s.cfg.word.bits - 1 ∧
      t.pc = s.pc + 4 ∧ ChangesOnly { vec := fun r => r = d } s t) ∧
    (s.getX a ≠ 0 → s.getX a ≠ 1 → exec (.vfillx d a) s = .next (s.enterException .illegalOperand (s.getX a)))

/-- R113, with the masks of R25: bit b of EVEN is 1 when `b / 2^lvl` is even, ODD is its complement in W bits; a word with
`lvl > LMAX` is illegal, and that `exec` on such a term takes the exception is the model's (log 12). -/
def Obligations.VmaskLoadsTheInterleaveMask : Prop :=
  EncodedAs 0x2C (fun ww w => aOf w == 0 && bOf w == 0 && (imm14Of w).extractLsb' 5 9 == 0 &&
    decide ((lvlOf w).toNat ≤ ww.lmax)) (fun w => .vmask (rdOf w) (oddOf w) (lvlOf w)) ∧
  ∀ (d : VReg) (odd : Bool) (lvl : BitVec 4) (s : State),
    (lvl.toNat ≤ s.cfg.word.lmax → ∃ t, exec (.vmask d odd lvl) s = .next t ∧
      (∀ b, (t.getV d).getLsbD b = (decide (b < s.cfg.word.bits) &&
        (if odd = true then decide (b / 2 ^ lvl.toNat % 2 = 1) else decide (b / 2 ^ lvl.toNat % 2 = 0)))) ∧
      t.pc = s.pc + 4 ∧ ChangesOnly { vec := fun r => r = d } s t) ∧
    (s.cfg.word.lmax < lvl.toNat →
      exec (.vmask d odd lvl) s = .next (s.enterException .illegalInstruction (encode (.vmask d odd lvl))))

/-- R114: even blocks of 2^lvl bits from the first operand, odd blocks from the second; a word with `lvl > LMAX` is
illegal, and that `exec` on such a term takes the exception is the model's (log 12). -/
def Obligations.VblendMergesAlternatingBlocks : Prop :=
  EncodedAs 0x2D (fun ww w => (imm14Of w).extractLsb' 4 10 == 0 && decide ((lvlOf w).toNat ≤ ww.lmax))
    (fun w => .vblend (rdOf w) (raOf w) (rbOf w) (lvlOf w)) ∧
  ∀ (d a b : VReg) (lvl : BitVec 4) (s : State),
    (lvl.toNat ≤ s.cfg.word.lmax → ∃ t, exec (.vblend d a b lvl) s = .next t ∧
      (∀ i, (t.getV d).getLsbD i =
        if i / 2 ^ lvl.toNat % 2 = 0 then (s.getV a).getLsbD i else (s.getV b).getLsbD i) ∧
      t.pc = s.pc + 4 ∧ ChangesOnly { vec := fun r => r = d } s t) ∧
    (s.cfg.word.lmax < lvl.toNat →
      exec (.vblend d a b lvl) s = .next (s.enterException .illegalInstruction (encode (.vblend d a b lvl))))

/-! ## Packed-container instructions (42_packed.md) -/

/-- R130: every lane of width s = 2^lgs is lane 0 of the source. -/
def Obligations.VbcastCopiesLaneZero : Prop :=
  EncodedAs 0x14 (fun _ w => bOf w == 0 && (imm14Of w).extractLsb' 3 11 == 0)
    (fun w => .vbcast (rdOf w) (raOf w) (lgsOf w)) ∧
  ∀ (d a : VReg) (lgs : BitVec 3) (s : State), ∃ t, exec (.vbcast d a lgs) s = .next t ∧
    (∀ i, i < s.cfg.word.bits / 2 ^ lgs.toNat →
      laneAt (2 ^ lgs.toNat) (t.getV d) i = laneAt (2 ^ lgs.toNat) (s.getV a) 0) ∧
    t.pc = s.pc + 4 ∧ ChangesOnly { vec := fun r => r = d } s t

/-- R131 and R132. -/
def Obligations.MovesBetweenScalarAndVector : Prop :=
  EncodedAs 0x12 (fun _ w => bOf w == 0 && imm14Of w == 0) (fun w => .vmvx (rdOf w) (raOf w)) ∧
  EncodedAs 0x13 (fun _ w => bOf w == 0 && imm14Of w == 0) (fun w => .xmvv (rdOf w) (raOf w)) ∧
  (∀ (d : VReg) (a : XReg) (s : State), ∃ t, exec (.vmvx d a) s = .next t ∧
    (t.getV d).toNat = (s.getX a).toNat ∧ t.pc = s.pc + 4 ∧ ChangesOnly { vec := fun r => r = d } s t) ∧
  (∀ (d : XReg) (a : VReg) (s : State), ∃ t, exec (.xmvv d a) s = .next t ∧
    t.getX d = (if d = 0 then 0 else BitVec.ofNat 32 (s.getV a).toNat) ∧
    t.pc = s.pc + 4 ∧ ChangesOnly { scalar := fun r => r = d } s t)

/-- R133: alignment first, then range, then the load, byte p from address addr + p. Bytes that nothing has written stop the model with
UninitRead (R31, log 6). -/
def Obligations.VldLoadsAlignedWords : Prop :=
  EncodedAs 0x10 (fun _ w => bOf w == 0) (fun w => .vld (rdOf w) (raOf w) (imm14Of w)) ∧
  ∀ (d : VReg) (a : XReg) (imm14 : BitVec 14) (s : State) (addr : Word),
    addr = BitVec.ofInt 32 ((s.getX a).toNat + imm14.toInt) →
    (addr.toNat % s.cfg.word.bytes ≠ 0 → exec (.vld d a imm14) s = .next (s.enterException .dataMisaligned addr)) ∧
    (addr.toNat % s.cfg.word.bytes = 0 → s.cfg.dmemBytes < addr.toNat + s.cfg.word.bytes →
      exec (.vld d a imm14) s = .next (s.enterException .dataAccessFault addr)) ∧
    (addr.toNat % s.cfg.word.bytes = 0 → addr.toNat + s.cfg.word.bytes ≤ s.cfg.dmemBytes →
      ((∀ p, p < s.cfg.word.bytes → (Memory.read s.dmem (addr.toNat + p)).isSome = true) →
        ∃ t, exec (.vld d a imm14) s = .next t ∧
          (∀ p, p < s.cfg.word.bytes → some (byteAt (t.getV d) p) = Memory.read s.dmem (addr.toNat + p)) ∧
          t.pc = s.pc + 4 ∧ ChangesOnly { vec := fun r => r = d } s t) ∧
      (∀ p, p < s.cfg.word.bytes → Memory.read s.dmem (addr.toNat + p) = none →
        exec (.vld d a imm14) s = .fault (.uninitDmem addr.toNat)))

/-- R134: as VLD's checks, then the W/8 bytes from the effective address hold the register's bytes, the lowest address byte 0, and every other
byte of DMEM reads as before. -/
def Obligations.VstStoresAlignedWords : Prop :=
  EncodedAs 0x11 (fun _ w => bOf w == 0) (fun w => .vst (rdOf w) (raOf w) (imm14Of w)) ∧
  ∀ (d : VReg) (a : XReg) (imm14 : BitVec 14) (s : State) (addr : Word),
    addr = s.effectiveAddress a imm14 →
    addr = BitVec.ofInt 32 ((s.getX a).toNat + imm14.toInt) ∧
    (addr.toNat % s.cfg.word.bytes ≠ 0 → exec (.vst d a imm14) s = .next (s.enterException .dataMisaligned addr)) ∧
    (addr.toNat % s.cfg.word.bytes = 0 → s.cfg.dmemBytes < addr.toNat + s.cfg.word.bytes →
      exec (.vst d a imm14) s = .next (s.enterException .dataAccessFault addr)) ∧
    (addr.toNat % s.cfg.word.bytes = 0 → addr.toNat + s.cfg.word.bytes ≤ s.cfg.dmemBytes →
      ∃ t, exec (.vst d a imm14) s = .next t ∧
        (∀ p, p < s.cfg.word.bytes → Memory.read t.dmem (addr.toNat + p) = some (byteAt (s.getV d) p)) ∧
        t.pc = s.pc + 4 ∧
        ChangesOnly { dmem := fun k => addr.toNat ≤ k ∧ k < addr.toNat + s.cfg.word.bytes } s t)

/-- R135: a store and then a load of the same word, with the stored bytes not stored to in between, gives the register back. -/
def Obligations.StoreThenLoadReturnsTheWord : Prop :=
  ∀ (k d : VReg) (a a' : XReg) (imm imm' : BitVec 14) (s t u : State) (addr : Word),
    addr = s.effectiveAddress a imm → addr.toNat % s.cfg.word.bytes = 0 →
    addr.toNat + s.cfg.word.bytes ≤ s.cfg.dmemBytes → exec (.vst k a imm) s = .next t →
    u.cfg = t.cfg → u.effectiveAddress a' imm' = addr →
    (∀ p, p < s.cfg.word.bytes → Memory.read u.dmem (addr.toNat + p) = Memory.read t.dmem (addr.toNat + p)) →
    ∃ t', exec (.vld d a' imm') u = .next t' ∧ t'.getV d = s.getV k

/-! ## Basis change (43_basis_change.md) -/

/-- R147 and R148: every byte through T2A or A2T; 0 and 1 are fixed; TOAES is GFAFF with T2A in every qword; and FROMAES after TOAES gives
the word back. -/
def Obligations.BasisChangeInstructionsMapEveryByte : Prop :=
  EncodedAs 0x30 (fun _ w => bOf w == 0 && imm14Of w == 0) (fun w => .toaes (rdOf w) (raOf w)) ∧
  EncodedAs 0x31 (fun _ w => bOf w == 0 && imm14Of w == 0) (fun w => .fromaes (rdOf w) (raOf w)) ∧
  (∀ c : Config, affine c.t2a 0 = 0 ∧ affine c.t2a 1 = 1) ∧
  (∀ (d a b : VReg) (s : State), (∀ q, q < s.cfg.word.qwords → qwordAt (s.getV b) q = s.cfg.t2a) →
    exec (.toaes d a) s = exec (.gfaff d a b) s) ∧
  ∀ (d a : VReg) (s : State),
    (∃ t, exec (.toaes d a) s = .next t ∧
      (∀ p, p < s.cfg.word.bytes → byteAt (t.getV d) p = affine s.cfg.t2a (byteAt (s.getV a) p)) ∧
      t.pc = s.pc + 4 ∧ ChangesOnly { vec := fun r => r = d } s t ∧
      ∀ d', ∃ u, exec (.fromaes d' d) t = .next u ∧ u.getV d' = s.getV a) ∧
    (∃ t, exec (.fromaes d a) s = .next t ∧
      (∀ p, p < s.cfg.word.bytes → byteAt (t.getV d) p = affine s.cfg.a2t (byteAt (s.getV a) p)) ∧
      t.pc = s.pc + 4 ∧ ChangesOnly { vec := fun r => r = d } s t)

/-- R145: on every one of the eight rows, `toaes` and `fromaes` are inverse to each other on every byte, and `toaes` carries the tower
product to the AES product. -/
def Obligations.BasisChangeIsAFieldIsomorphism : Prop :=
  ∀ c : Config,
    (∀ y, fromaes c (toaes c y) = y ∧ toaes c (fromaes c y) = y) ∧
    (∀ p q, toaes c (towmul p q) = aesmul (toaes c p) (toaes c q))

/-! ## GF(2^8) arithmetic (44_gf8_arith.md, 00_scope.md R10, R11) -/

/-- The affine primitive (00_scope.md R10): output bit r is the XOR over k of matrix bit 8·(7−r)+k times input bit k. The matrix of R149 is
its identity, and no other matrix is. -/
def Obligations.AffinePrimitiveIsTheMatrixProduct : Prop :=
  (∀ (A : Mat) (y : Byte) (r : Nat), r < 8 → (affine A y).getLsbD r =
    ((List.range 8).map fun k => A.getLsbD (8 * (7 - r) + k) && y.getLsbD k).foldl xor false) ∧
  (∀ A : Mat, (∀ y, affine A y = y) ↔ A = 0x0102040810204080)

/-- `aesmul` and `aesinv` (00_scope.md §4, R11): commutative, associative, linear, with identity 1, and the product by 0x02 the shift left by one
with 0x1B XORed in when bit 7 was set (the reduction by 0x11B), which together fix the product; the inverse, 0 for 0. (That `aesinv` is
computed as a power is the model's choice, log 13.) -/
def Obligations.AesFieldLaws : Prop :=
  (∀ a b : Byte, aesmul a b = aesmul b a) ∧
  (∀ a b c : Byte, aesmul a (b ^^^ c) = aesmul a b ^^^ aesmul a c) ∧
  (∀ a b c : Byte, aesmul (aesmul a b) c = aesmul a (aesmul b c)) ∧
  (∀ a : Byte, aesmul a 1 = a ∧ aesmul a 0 = 0) ∧
  (∀ a : Byte, aesmul 0x02 a = (a <<< 1) ^^^ (if a.getLsbD 7 = true then 0x1B else 0)) ∧
  aesinv 0 = 0 ∧ (∀ a : Byte, a ≠ 0 → aesmul a (aesinv a) = 1)

/-- R155, with its corner cases: commutative, 0 for a zero byte, 0x01 the identity. -/
def Obligations.GfmulMultipliesEveryByte : Prop :=
  EncodedAs 0x32 (fun _ w => imm14Of w == 0) (fun w => .gfmul (rdOf w) (raOf w) (rbOf w)) ∧
  (∀ (d a b : VReg) (s : State), exec (.gfmul d a b) s = exec (.gfmul d b a) s) ∧
  (∀ y : Byte, aesmul y 0 = 0 ∧ aesmul y 1 = y) ∧
  ∀ (d a b : VReg) (s : State), ∃ t, exec (.gfmul d a b) s = .next t ∧
    (∀ p, p < s.cfg.word.bytes → byteAt (t.getV d) p = aesmul (byteAt (s.getV a) p) (byteAt (s.getV b) p)) ∧
    t.pc = s.pc + 4 ∧ ChangesOnly { vec := fun r => r = d } s t

/-- R156 and R157: the matrix of byte p is qword p/8 of the second operand; GFAFFINV inverts first; 0 goes to 0 in both; GFAFF is linear in its
data, with the identity and the bit-reverse matrices the rule names. -/
def Obligations.GfaffAndGfaffinvUseTheQwordsMatrix : Prop :=
  EncodedAs 0x33 (fun _ w => imm14Of w == 0) (fun w => .gfaff (rdOf w) (raOf w) (rbOf w)) ∧
  EncodedAs 0x34 (fun _ w => imm14Of w == 0) (fun w => .gfaffinv (rdOf w) (raOf w) (rbOf w)) ∧
  (∀ (A : Mat) (y z : Byte), affine A (y ^^^ z) = affine A y ^^^ affine A z) ∧ (∀ A : Mat, affine A 0 = 0) ∧ aesinv 0 = 0 ∧
  (∀ y, affine 0x0102040810204080 y = y) ∧
  (∀ (y : Byte) (r : Nat), r < 8 → (affine 0x8040201008040201 y).getLsbD r = y.getLsbD (7 - r)) ∧
  ∀ (d a b : VReg) (s : State),
    (∃ t, exec (.gfaff d a b) s = .next t ∧
      (∀ p, p < s.cfg.word.bytes →
        byteAt (t.getV d) p = affine (qwordAt (s.getV b) (p / 8)) (byteAt (s.getV a) p)) ∧
      t.pc = s.pc + 4 ∧ ChangesOnly { vec := fun r => r = d } s t) ∧
    (∃ t, exec (.gfaffinv d a b) s = .next t ∧
      (∀ p, p < s.cfg.word.bytes →
        byteAt (t.getV d) p = affine (qwordAt (s.getV b) (p / 8)) (aesinv (byteAt (s.getV a) p))) ∧
      t.pc = s.pc + 4 ∧ ChangesOnly { vec := fun r => r = d } s t)

/-- R158 and R159: into the AES basis, multiply or invert there, and back. -/
def Obligations.TmulAndTinvGoThroughTheAesBasis : Prop :=
  EncodedAs 0x35 (fun _ w => imm14Of w == 0) (fun w => .tmul (rdOf w) (raOf w) (rbOf w)) ∧
  EncodedAs 0x36 (fun _ w => bOf w == 0 && imm14Of w == 0) (fun w => .tinv (rdOf w) (raOf w)) ∧
  ∀ (d a b : VReg) (s : State),
    (∃ t, exec (.tmul d a b) s = .next t ∧
      (∀ p, p < s.cfg.word.bytes → byteAt (t.getV d) p =
        affine s.cfg.a2t (aesmul (affine s.cfg.t2a (byteAt (s.getV a) p)) (affine s.cfg.t2a (byteAt (s.getV b) p)))) ∧
      t.pc = s.pc + 4 ∧ ChangesOnly { vec := fun r => r = d } s t) ∧
    (∃ t, exec (.tinv d a) s = .next t ∧
      (∀ p, p < s.cfg.word.bytes →
        byteAt (t.getV d) p = affine s.cfg.a2t (aesinv (affine s.cfg.t2a (byteAt (s.getV a) p)))) ∧
      t.pc = s.pc + 4 ∧ ChangesOnly { vec := fun r => r = d } s t)

/-- R160: whatever row T2A is, TMUL computes the tower product of every byte and TINV its tower inverse, 0 for 0. -/
def Obligations.TmulAndTinvDoNotDependOnTheRow : Prop :=
  (∀ (d a b : VReg) (s : State), ∃ t, exec (.tmul d a b) s = .next t ∧
    ∀ p, p < s.cfg.word.bytes → byteAt (t.getV d) p = towmul (byteAt (s.getV a) p) (byteAt (s.getV b) p)) ∧
  (∀ (d a : VReg) (s : State), ∃ t, exec (.tinv d a) s = .next t ∧
    ∀ p, p < s.cfg.word.bytes →
      (byteAt (s.getV a) p = 0 → byteAt (t.getV d) p = 0) ∧
      (byteAt (s.getV a) p ≠ 0 → towmul (byteAt (s.getV a) p) (byteAt (t.getV d) p) = 1))

/-! ## 8-bit affine transformations (45_affine8.md) -/

/-- R170: bit 8·(7−r)+t of each result qword is bit 8·t+r of the source qword. R171: a prepared matrix applies the linear map whose basis
images are the bytes of the qword. -/
def Obligations.MprepPreparesTheMatrix : Prop :=
  EncodedAs 0x37 (fun _ w => bOf w == 0 && imm14Of w == 0) (fun w => .mprep (rdOf w) (raOf w)) ∧
  (∀ (d a : VReg) (s : State), ∃ t, exec (.mprep d a) s = .next t ∧
    (∀ q r k, q < s.cfg.word.qwords → r < 8 → k < 8 →
      (qwordAt (t.getV d) q).getLsbD (8 * (7 - r) + k) = (qwordAt (s.getV a) q).getLsbD (8 * k + r)) ∧
    t.pc = s.pc + 4 ∧ ChangesOnly { vec := fun r => r = d } s t) ∧
  (∀ (c : Mat) (y : Byte), affine (mprep64 c) y = linearMap (fun k => byteAt c k) y)

/-- R173, R174 and R175: GRID_RANGE when `g ≥ GRID_SIZE`, with nothing written; AFFG applies one entry to every byte, GWR writes qword 0 as it
is, GRD copies the entry to every qword; an entry nothing has written stops the model with UninitRead. -/
def Obligations.GridEntryInstructions : Prop :=
  EncodedAs 0x38 (fun _ w => bOf w == 0 && lgNOf w == 0) (fun w => .affg (rdOf w) (raOf w) (gOf w)) ∧
  EncodedAs 0x39 (fun _ w => dOf w == 0 && bOf w == 0 && lgNOf w == 0) (fun w => .gwr (raOf w) (gOf w)) ∧
  EncodedAs 0x3A (fun _ w => aOf w == 0 && bOf w == 0 && lgNOf w == 0) (fun w => .grd (rdOf w) (gOf w)) ∧
  ∀ (d a : VReg) (g : BitVec 11) (s : State),
    (s.cfg.gridSize ≤ g.toNat →
      exec (.affg d a g) s = .next (s.enterException .gridRange (BitVec.ofNat 32 g.toNat)) ∧
      exec (.gwr a g) s = .next (s.enterException .gridRange (BitVec.ofNat 32 g.toNat)) ∧
      exec (.grd d g) s = .next (s.enterException .gridRange (BitVec.ofNat 32 g.toNat))) ∧
    (g.toNat < s.cfg.gridSize →
      (∀ A, Memory.read s.grid g.toNat = some A →
        (∃ t, exec (.affg d a g) s = .next t ∧
          (∀ p, p < s.cfg.word.bytes → byteAt (t.getV d) p = affine A (byteAt (s.getV a) p)) ∧
          t.pc = s.pc + 4 ∧ ChangesOnly { vec := fun r => r = d } s t) ∧
        (∃ t, exec (.grd d g) s = .next t ∧ (∀ q, q < s.cfg.word.qwords → qwordAt (t.getV d) q = A) ∧
          t.pc = s.pc + 4 ∧ ChangesOnly { vec := fun r => r = d } s t)) ∧
      (Memory.read s.grid g.toNat = none →
        exec (.affg d a g) s = .fault (.uninitGrid g.toNat) ∧ exec (.grd d g) s = .fault (.uninitGrid g.toNat)) ∧
      (∃ t, exec (.gwr a g) s = .next t ∧ Memory.read t.grid g.toNat = some ((s.getV a).extractLsb' 0 64) ∧
        t.pc = s.pc + 4 ∧ ChangesOnly { grid := fun k => k = g.toNat } s t))

/-! ## The N×N engine (46_affine_nxn.md) -/

/-- R186 and R187: a word with `lgN > 4` is illegal (that `exec` on such a term takes the exception is the model's, log 12); then the grid
range, then the DMEM range, with nothing written; else G[g + i·N + j] is the matrix whose bit 8·(7−r)+t is bit r of byte j of
`bases[8i+t]`, and every other entry is as before. A byte of the basis images that nothing has written stops the model with UninitRead
(R31, log 6). -/
def Obligations.GbuildBuildsTheGrid : Prop :=
  EncodedAs 0x3B (fun _ w => dOf w == 0 && bOf w == 0 && decide ((lgNOf w).toNat ≤ 4))
    (fun w => .gbuild (raOf w) (lgNOf w) (gOf w)) ∧
  ∀ (a : XReg) (lgN : BitVec 3) (g : BitVec 11) (s : State) (N : Nat), N = 2 ^ lgN.toNat →
    (4 < lgN.toNat → exec (.gbuild a lgN g) s =
      .next (s.enterException .illegalInstruction (encode (.gbuild a lgN g)))) ∧
    (lgN.toNat ≤ 4 → s.cfg.gridSize < g.toNat + N * N →
      exec (.gbuild a lgN g) s = .next (s.enterException .gridRange (BitVec.ofNat 32 g.toNat))) ∧
    (lgN.toNat ≤ 4 → g.toNat + N * N ≤ s.cfg.gridSize → s.cfg.dmemBytes < (s.getX a).toNat + 8 * N * N →
      exec (.gbuild a lgN g) s = .next (s.enterException .dataAccessFault (s.getX a))) ∧
    (lgN.toNat ≤ 4 → g.toNat + N * N ≤ s.cfg.gridSize → (s.getX a).toNat + 8 * N * N ≤ s.cfg.dmemBytes →
      ∀ k, k < 8 * N * N → Memory.read s.dmem ((s.getX a).toNat + k) = none →
        exec (.gbuild a lgN g) s = .fault (.uninitDmem (s.getX a).toNat)) ∧
    (lgN.toNat ≤ 4 → g.toNat + N * N ≤ s.cfg.gridSize → (s.getX a).toNat + 8 * N * N ≤ s.cfg.dmemBytes →
      (∀ k, k < 8 * N * N → (Memory.read s.dmem ((s.getX a).toNat + k)).isSome = true) →
      ∃ t, exec (.gbuild a lgN g) s = .next t ∧
        (∀ i j, i < N → j < N → ∃ m, Memory.read t.grid (g.toNat + i * N + j) = some m ∧
          ∀ r k, r < 8 → k < 8 → m.getLsbD (8 * (7 - r) + k) =
            (byteAt (s.basis (s.getX a).toNat N (8 * i + k)) j).getLsbD r) ∧
        t.pc = s.pc + 4 ∧
        ChangesOnly { grid := fun k => g.toNat ≤ k ∧ k < g.toNat + N * N } s t)

/-- R188: a word with `lgN > 4` is illegal (that `exec` on such a term takes the exception is the model's, log 12); then the grid range, with
nothing written; else byte i of N-byte lane l is the XOR over j of entry (j, i) applied
to byte j of the same lane; an entry nothing has written stops the model with UninitRead. -/
def Obligations.XformAppliesTheGrid : Prop :=
  EncodedAs 0x3C (fun _ w => bOf w == 0 && decide ((lgNOf w).toNat ≤ 4))
    (fun w => .xform (rdOf w) (raOf w) (lgNOf w) (gOf w)) ∧
  ∀ (d a : VReg) (lgN : BitVec 3) (g : BitVec 11) (s : State) (N : Nat), N = 2 ^ lgN.toNat →
    (4 < lgN.toNat → exec (.xform d a lgN g) s =
      .next (s.enterException .illegalInstruction (encode (.xform d a lgN g)))) ∧
    (lgN.toNat ≤ 4 → s.cfg.gridSize < g.toNat + N * N →
      exec (.xform d a lgN g) s = .next (s.enterException .gridRange (BitVec.ofNat 32 g.toNat))) ∧
    (lgN.toNat ≤ 4 → g.toNat + N * N ≤ s.cfg.gridSize →
      (∀ k, k < N * N → Memory.read s.grid (g.toNat + k) = none →
        exec (.xform d a lgN g) s = .fault (.uninitGrid g.toNat)) ∧
      ((∀ k, k < N * N → (Memory.read s.grid (g.toNat + k)).isSome = true) →
        ∃ t, exec (.xform d a lgN g) s = .next t ∧
          (∀ l i, l < s.cfg.word.bytes / N → i < N → byteAt (t.getV d) (l * N + i) =
            xorUpTo (fun j => affine ((Memory.read s.grid (g.toNat + j * N + i)).getD 0)
              (byteAt (s.getV a) (l * N + j))) N) ∧
          t.pc = s.pc + 4 ∧ ChangesOnly { vec := fun r => r = d } s t))

/-- R189: GBUILD and then XFORM with the same g and N applies the linear map of the basis images to every N-byte lane, whatever runs
in between as long as the grid's entries stay. -/
def Obligations.GbuildThenXformAppliesTheLinearMap : Prop :=
  ∀ (a : XReg) (lgN : BitVec 3) (g : BitVec 11) (s t u : State) (N : Nat), N = 2 ^ lgN.toNat → lgN.toNat ≤ 4 →
    g.toNat + N * N ≤ s.cfg.gridSize → (s.getX a).toNat + 8 * N * N ≤ s.cfg.dmemBytes →
    exec (.gbuild a lgN g) s = .next t → u.cfg = s.cfg →
    (∀ k, k < N * N → Memory.read u.grid (g.toNat + k) = Memory.read t.grid (g.toNat + k)) →
    ∀ d v : VReg, ∃ t', exec (.xform d v lgN g) u = .next t' ∧
      ∀ l, l < u.cfg.word.bytes / N →
        laneAt (8 * N) (t'.getV d) l =
          linearMap (fun k => (s.basis (s.getX a).toNat N k).setWidth (8 * N)) (laneAt (8 * N) (u.getV v) l)

/-- R190 and R191: the source's decomposition (N² grid applications, whole-word byte shifts, XOR, and the blend tree) gives
XFORM's word. -/
def Obligations.ShiftAndBlendDecompositionEqualsXform : Prop :=
  ∀ (d a : VReg) (lgN : BitVec 3) (g : BitVec 11) (s t : State) (N : Nat), N = 2 ^ lgN.toNat → lgN.toNat ≤ 4 →
    g.toNat + N * N ≤ s.cfg.gridSize → exec (.xform d a lgN g) s = .next t →
    blendTree s.cfg.word lgN.toNat 3 ((List.range N).map fun i => s.partialWord g.toNat N (s.getV a) i) = [t.getV d]

/-! ## Host interface and reset (10_state.md R26 to R28, R31; 60_exceptions.md R221 to R226) -/

/-- R27's table as moves of the host: START from any state but RUNNING, ignored in RUNNING; ABORT requests in RUNNING, ignored elsewhere; ACK
from HALTED and FAULTED keeps the record; ABORT is applied first, then ACK, then START; other bits do nothing. The model's, not the rule's:
that ABORT alone is held in the latch to the next step boundary while ABORT with START is taken at this one (log 10), and that the write
that aborts and restarts is 0b011, by the table's bit numbers, not the 0b101 of the rule's example (log 25). -/
def Obligations.ControlRegisterCommands : Prop :=
  ∀ (s : State) (value : Word) (rest : List HostMove), s.resetAsserted = false → s.host = .write 0 value :: rest →
    ∃ t, step s = .next t ∧ t.host = rest ∧
      (value.getLsbD 0 = true → s.run ≠ .running →
        t = { s with host := rest, pc := s.startPc, cause := .none, epc := 0, finfo := 0, run := .running }) ∧
      (value.getLsbD 0 = true → value.getLsbD 1 = true → s.run = .running →
        t = { s with host := rest, pc := s.startPc, cause := .none, epc := 0, finfo := 0, abortLatch := false }) ∧
      (value.getLsbD 1 = true → value.getLsbD 0 = false → s.run = .running → t = { s with host := rest, abortLatch := true }) ∧
      (value.getLsbD 1 = false → s.run = .running → t = { s with host := rest }) ∧
      (value.getLsbD 2 = true → value.getLsbD 0 = false → (s.run = .halted ∨ s.run = .faulted) →
        t = { s with host := rest, run := .idle }) ∧
      (value.getLsbD 2 = false → value.getLsbD 0 = false → s.run ≠ .running → t = { s with host := rest }) ∧
      (s.run = .idle → value.getLsbD 0 = false → t = { s with host := rest })

/-- R53, R225 and R226: while RUNNING a host write of anything but CTRL changes nothing, and a host read of IMEM or DMEM answers a free draw
(log 7). Outside RUNNING, out of reset, a write of START_PC stores the value with bits 1:0 cleared; a write of a read-only register or a
reserved place changes nothing; a write of a word of IMEM or DMEM stores its four bytes, changes nothing else, and reads back. An access
names the word at byte offset `4 * index` of the window (log 17). -/
def Obligations.HostAndTileNeverShareMemory : Prop :=
  (∀ (s : State) (index : BitVec 22) (value : Word) (rest : List HostMove), s.run = .running → index ≠ 0 →
    s.host = .write index value :: rest → step s = .next { s with host := rest }) ∧
  (∀ (s : State) (index : BitVec 22) (rest : List HostMove), s.run = .running →
    ((0x400000 ≤ 4 * index.toNat ∧ 4 * index.toNat < 0x400000 + s.cfg.imemBytes) ∨
      (0x800000 ≤ 4 * index.toNat ∧ 4 * index.toNat < 0x800000 + s.cfg.dmemBytes)) →
    s.host = .read index :: rest →
    step s = .next { s with host := rest, hostReads := Config.freeWord s.draws :: s.hostReads, draws := s.draws + 1 }) ∧
  (∀ (s : State) (index : BitVec 22) (value : Word) (rest : List HostMove), s.run ≠ .running → s.resetAsserted = false →
    s.host = .write index value :: rest →
    (index = 5 → step s = .next { s with host := rest, startPc := value &&& 0xFFFFFFFC }) ∧
    (index ≠ 0 → index ≠ 5 → ¬ (0x400000 ≤ 4 * index.toNat ∧ 4 * index.toNat < 0x400000 + s.cfg.imemBytes) →
      ¬ (0x800000 ≤ 4 * index.toNat ∧ 4 * index.toNat < 0x800000 + s.cfg.dmemBytes) → step s = .next { s with host := rest }) ∧
    (∀ off, 4 * index.toNat = 0x400000 + off → off < s.cfg.imemBytes →
      ∃ t, step s = .next t ∧ t = { s with host := rest, imem := t.imem } ∧ (t.hostRead index).1 = value ∧
        (∀ k, k < 4 → Memory.read t.imem (off + k) = some (byteAt value k)) ∧
        ∀ a, ¬ (off ≤ a ∧ a < off + 4) → Memory.read t.imem a = Memory.read s.imem a) ∧
    (∀ off, 4 * index.toNat = 0x800000 + off → off < s.cfg.dmemBytes →
      ∃ t, step s = .next t ∧ t = { s with host := rest, dmem := t.dmem } ∧ (t.hostRead index).1 = value ∧
        (∀ k, k < 4 → Memory.read t.dmem (off + k) = some (byteAt value k)) ∧
        ∀ a, ¬ (off ≤ a ∧ a < off + 4) → Memory.read t.dmem a = Memory.read s.dmem a))

/-- R28: what the host reads of each control register out of reset (CTRL reads 0, and so does every reserved place of R225), and DONE (R221). -/
def Obligations.HostReadsTheControlRegisters : Prop :=
  (∀ s : State, s.resetAsserted = false →
    (s.hostRead 0).1 = 0 ∧ (s.hostRead 1).1 = BitVec.ofNat 32 s.run.code ∧ (s.hostRead 2).1 = BitVec.ofNat 32 s.cause.code ∧
    (s.hostRead 3).1 = s.epc ∧ (s.hostRead 4).1 = s.finfo ∧ (s.hostRead 5).1 = s.startPc ∧
    (s.hostRead 6).1 = hwcfg s.cfg ∧ (s.hostRead 7).1 = s.cfg.hwid ∧
    (∀ index : BitVec 22, 8 ≤ index.toNat → ¬ (0x400000 ≤ 4 * index.toNat ∧ 4 * index.toNat < 0x400000 + s.cfg.imemBytes) →
      ¬ (0x800000 ≤ 4 * index.toNat ∧ 4 * index.toNat < 0x800000 + s.cfg.dmemBytes) → (s.hostRead index).1 = 0)) ∧
  (∀ s : State, s.done = true ↔ s.run = .halted ∨ s.run = .faulted) ∧
  RunState.idle.code = 0 ∧ RunState.running.code = 1 ∧ RunState.halted.code = 2 ∧ RunState.faulted.code = 3

/-- R240 with the table of R31: `State.reset`, and the state when the platform releases a reset it asserted, hold the values the spec gives,
with the parameters kept; while reset is asserted the tile takes no step and host accesses are ignored. The zeros of the registers the
spec leaves unspecified are the model's and not stated here (logs 3, 4, 5). The model's, not the spec's: that the platform may assert reset
in every STATE, RUNNING included (R227 and 93 U12 give no such move), that the tile keeps its state until the release, that a release of a
reset not asserted does nothing, that the list of the host's moves goes on (log 15), and that an ignored read answers a free word (log 26). -/
def Obligations.ResetLeavesTheTileIdle : Prop :=
  (∀ s t : State, (s = State.reset ∧ t = s) ∨
      (s.resetAsserted = true ∧ ∃ rest, s.host = .releaseReset :: rest ∧ step s = .next t) →
    t.cfg = s.cfg ∧ t.getX 0 = 0 ∧ t.pc = 0 ∧ t.run = .idle ∧ t.cause = .none ∧ t.epc = 0 ∧ t.finfo = 0 ∧ t.startPc = 0 ∧
    t.abortLatch = false ∧ t.done = false ∧ t.resetAsserted = false ∧
    (∀ a, Memory.read t.imem a = none ∧ Memory.read t.dmem a = none ∧ Memory.read t.grid a = none)) ∧
  (∀ (s : State) (rest : List HostMove), s.host = .releaseReset :: rest →
    ∃ t, step s = .next t ∧ t.host = rest ∧ (s.resetAsserted = false → t = { s with host := rest })) ∧
  (∀ (s : State) (rest : List HostMove), s.host = .assertReset :: rest →
    step s = .next { s with host := rest, resetAsserted := true }) ∧
  (∀ s : State, s.resetAsserted = true →
    (∀ u, s.TileMoves u → step s = .next u) ∧
    (∀ index value rest, s.host = .write index value :: rest → step s = .next { s with host := rest }) ∧
    (∀ index rest, s.host = .read index :: rest →
      step s = .next { s with host := rest, hostReads := Config.freeWord s.draws :: s.hostReads, draws := s.draws + 1 }))

/-- R211: after a fault the host resumes the program: with EPC in START_PC and a START, the tile is RUNNING at the faulting instruction with the
record cleared and every register, the flag and the memories as they were. -/
def Obligations.HostRestartsAFaultedTile : Prop :=
  ∀ (s : State) (rest : List HostMove), s.resetAsserted = false → s.run = .faulted → s.epc.toNat % 4 = 0 →
    s.host = .write 5 s.epc :: .write 0 1 :: rest →
    ∃ t u, step s = .next t ∧ step t = .next u ∧ u.run = .running ∧ u.pc = s.epc ∧ u.cause = .none ∧ u.epc = 0 ∧ u.finfo = 0 ∧
      u.v = s.v ∧ u.x = s.x ∧ u.flag = s.flag ∧ u.grid = s.grid ∧ u.imem = s.imem ∧ u.dmem = s.dmem ∧ u.host = rest
end

