-- ==== Sys2Proof/Laws/Bits.lean ====
section
/-! SUPPORT. What the bit and lane operations of Machine/Ops.lean compute, bit by bit and lane by lane. -/

namespace Sys2Proof

/-! ## The widths of R6 -/

theorem WordSel.bits_le (ww : WordSel) : ww.bits ≤ 512 := by cases ww <;> decide

theorem WordSel.bytes_mul (ww : WordSel) : 8 * ww.bytes = ww.bits := by cases ww <;> rfl

theorem WordSel.qwords_mul (ww : WordSel) : 64 * ww.qwords = ww.bits := by cases ww <;> rfl

theorem WordSel.bytes_pos (ww : WordSel) : 0 < ww.bytes := by cases ww <;> decide

theorem WordSel.bits_eq (ww : WordSel) : ww.bits = 2 ^ (ww.lmax + 1) := by cases ww <;> rfl

end Sys2Proof

namespace Sys2Proof.Machine

theorem getLsbD_ofBits (f : Nat → Bool) (n i : Nat) : (ofBits f n).getLsbD i = (decide (i < n) && f i) := by
  induction n with
  | zero => simp [ofBits]
  | succ n ih =>
    rw [ofBits, BitVec.getLsbD_cons, ih]
    by_cases h : i = n
    · simp [h]
    · rw [if_neg h, show decide (i < n + 1) = decide (i < n) by rw [decide_eq_decide]; omega]

theorem getLsbD_laneAt {n : Nat} (s : Nat) (w : BitVec n) (i b : Nat) :
    (laneAt s w i).getLsbD b = (decide (b < s) && w.getLsbD (s * i + b)) := by
  rw [laneAt, BitVec.getLsbD_extractLsb']

theorem getLsbD_ofLanes {n : Nat} (s : Nat) (hs : 0 < s) (f : Nat → BitVec s) (k b : Nat) :
    (ofLanes s f k : BitVec n).getLsbD b = (decide (b < n) && decide (b < s * k) && (f (b / s)).getLsbD (b % s)) := by
  induction k with
  | zero => simp [ofLanes]
  | succ k ih =>
    rw [ofLanes, BitVec.getLsbD_or, ih, BitVec.getLsbD_shiftLeft, BitVec.getLsbD_setWidth]
    by_cases hn : b < n
    · by_cases h : b < s * k
      · have h' : b < s * (k + 1) := by rw [Nat.mul_succ]; omega
        simp [hn, h, h']
      · by_cases h' : b < s * (k + 1)
        · have hd : b / s = k := Nat.div_eq_of_lt_le (by rw [Nat.mul_comm]; omega) (by rw [Nat.mul_comm]; exact h')
          have hm : b % s = b - s * k := by rw [← hd, Nat.mod_eq_sub_mul_div]
          have hbn : b - s * k < n := by omega
          simp [hn, h, h', hd, hm, hbn]
        · have hz : (f k).getLsbD (b - s * k) = false := by
            apply BitVec.getLsbD_of_ge; rw [Nat.mul_succ] at h'; omega
          simp [hn, h, h', hz]
    · simp [hn]

/-- A lane of an assembled word is the lane it was assembled from. -/
theorem laneAt_ofLanes {n : Nat} (s : Nat) (hs : 0 < s) (f : Nat → BitVec s) (k i : Nat) (hi : i < k) (hn : s * k ≤ n) :
    laneAt s (ofLanes s f k : BitVec n) i = f i := by
  apply BitVec.eq_of_getLsbD_eq
  intro b hb
  have h1 : s * i + b < s * k := by
    have h2 : s * (i + 1) ≤ s * k := Nat.mul_le_mul_left _ hi
    rw [Nat.mul_succ] at h2; omega
  have h3 : s * i + b < n := by omega
  have h4 : (s * i + b) / s = i := by rw [Nat.mul_add_div hs, Nat.div_eq_of_lt hb, Nat.add_zero]
  have h5 : (s * i + b) % s = b := by rw [Nat.mul_add_mod, Nat.mod_eq_of_lt hb]
  rw [getLsbD_laneAt, getLsbD_ofLanes s hs, h4, h5]
  simp [hb, h1, h3]

/-- A word is the assembly of its lanes. -/
theorem ofLanes_laneAt {n : Nat} (s : Nat) (hs : 0 < s) (w : BitVec n) (k : Nat) (hw : ∀ b, s * k ≤ b → w.getLsbD b = false) :
    (ofLanes s (laneAt s w) k : BitVec n) = w := by
  apply BitVec.eq_of_getLsbD_eq
  intro b hb
  rw [getLsbD_ofLanes s hs, getLsbD_laneAt, Nat.div_add_mod]
  by_cases h : b < s * k
  · simp [hb, h, Nat.mod_lt _ hs]
  · simp [h, hw b (by omega)]

theorem ofLanes_congr {n : Nat} (s : Nat) (f g : Nat → BitVec s) (k : Nat) (h : ∀ i, i < k → f i = g i) :
    (ofLanes s f k : BitVec n) = ofLanes s g k := by
  induction k with
  | zero => rfl
  | succ k ih => rw [ofLanes, ofLanes, ih fun i hi => h i (by omega), h k (by omega)]

theorem xorUpTo_congr {n : Nat} (f g : Nat → BitVec n) (k : Nat) (h : ∀ i, i < k → f i = g i) : xorUpTo f k = xorUpTo g k := by
  induction k with
  | zero => rfl
  | succ k ih => rw [xorUpTo, xorUpTo, ih fun i hi => h i (by omega), h k (by omega)]

theorem xorUpTo_xor {n : Nat} (f g : Nat → BitVec n) (k : Nat) :
    xorUpTo (fun i => f i ^^^ g i) k = xorUpTo f k ^^^ xorUpTo g k := by
  induction k with
  | zero => simp [xorUpTo]
  | succ k ih => rw [xorUpTo, xorUpTo, xorUpTo, ih]; ac_rfl

theorem xorUpTo_zero {n : Nat} (k : Nat) : xorUpTo (fun _ => (0 : BitVec n)) k = 0 := by
  induction k with
  | zero => rfl
  | succ k ih => rw [xorUpTo, ih]; simp

/-! ## The W bits of a register -/

theorem getLsbD_keep (ww : WordSel) (u : Wide) (i : Nat) :
    (keep ww u).getLsbD i = (decide (i < ww.bits) && u.getLsbD i) := by
  have := ww.bits_le
  rw [keep, BitVec.getLsbD_setWidth, BitVec.getLsbD_setWidth]
  by_cases h : i < ww.bits
  · simp [h, show i < 512 by omega]
  · simp [h]

theorem toNat_keep (ww : WordSel) (u : Wide) : (keep ww u).toNat = u.toNat % 2 ^ ww.bits := by
  rw [keep, BitVec.toNat_setWidth_of_le ww.bits_le, BitVec.toNat_setWidth]

theorem keep_eq_self (ww : WordSel) (u : Wide) (h : ∀ i, ww.bits ≤ i → u.getLsbD i = false) : keep ww u = u := by
  apply BitVec.eq_of_getLsbD_eq
  intro i _
  rw [getLsbD_keep]
  by_cases hi : i < ww.bits
  · simp [hi]
  · simp [hi, h i (by omega)]

@[simp] theorem keep_keep (ww : WordSel) (u : Wide) : keep ww (keep ww u) = keep ww u :=
  keep_eq_self ww _ fun i h => by rw [getLsbD_keep]; simp [Nat.not_lt.2 h]

@[simp] theorem keep_zero (ww : WordSel) : keep ww 0#512 = 0#512 := keep_eq_self ww 0 fun _ _ => BitVec.getLsbD_zero

theorem keep_and (ww : WordSel) (u u' : Wide) : keep ww (u &&& u') = keep ww u &&& keep ww u' := by
  apply BitVec.eq_of_getLsbD_eq; intro i _
  simp only [getLsbD_keep, BitVec.getLsbD_and]; cases decide (i < ww.bits) <;> simp

theorem keep_or (ww : WordSel) (u u' : Wide) : keep ww (u ||| u') = keep ww u ||| keep ww u' := by
  apply BitVec.eq_of_getLsbD_eq; intro i _
  simp only [getLsbD_keep, BitVec.getLsbD_or]; cases decide (i < ww.bits) <;> simp

theorem keep_xor (ww : WordSel) (u u' : Wide) : keep ww (u ^^^ u') = keep ww u ^^^ keep ww u' := by
  apply BitVec.eq_of_getLsbD_eq; intro i _
  simp only [getLsbD_keep, BitVec.getLsbD_xor]; cases decide (i < ww.bits) <;> simp

/-- A word assembled from bytes has no bit at W or above. -/
theorem keep_ofByteLanes (ww : WordSel) (f : Nat → Byte) : keep ww (ofByteLanes ww f) = ofByteLanes ww f :=
  keep_eq_self ww _ fun i h => by
    rw [ofByteLanes, getLsbD_ofLanes 8 (by decide), ww.bytes_mul]; simp [Nat.not_lt.2 h]

theorem keep_ofQwordLanes (ww : WordSel) (f : Nat → Mat) : keep ww (ofQwordLanes ww f) = ofQwordLanes ww f :=
  keep_eq_self ww _ fun i h => by
    rw [ofQwordLanes, getLsbD_ofLanes 64 (by decide), ww.qwords_mul]; simp [Nat.not_lt.2 h]

theorem byteAt_ofByteLanes (ww : WordSel) (f : Nat → Byte) (p : Nat) (hp : p < ww.bytes) :
    byteAt (ofByteLanes ww f) p = f p :=
  laneAt_ofLanes 8 (by decide) f ww.bytes p hp (by rw [ww.bytes_mul]; exact ww.bits_le)

theorem qwordAt_ofQwordLanes (ww : WordSel) (f : Nat → Mat) (q : Nat) (hq : q < ww.qwords) :
    qwordAt (ofQwordLanes ww f) q = f q :=
  laneAt_ofLanes 64 (by decide) f ww.qwords q hq (by rw [ww.qwords_mul]; exact ww.bits_le)

theorem ofByteLanes_congr (ww : WordSel) (f g : Nat → Byte) (h : ∀ p, p < ww.bytes → f p = g p) :
    ofByteLanes ww f = ofByteLanes ww g := ofLanes_congr 8 f g _ h

/-- A W-bit word is the assembly of its bytes. -/
theorem ofByteLanes_byteAt (ww : WordSel) (u : Wide) (h : keep ww u = u) : ofByteLanes ww (byteAt u) = u := by
  apply ofLanes_laneAt 8 (by decide)
  intro b hb
  rw [ww.bytes_mul] at hb
  rw [← h, getLsbD_keep]; simp [Nat.not_lt.2 hb]

/-- Two W-bit words with the same bytes are the same. -/
theorem eq_of_bytes (ww : WordSel) (u u' : Wide) (h : keep ww u = u) (h' : keep ww u' = u')
    (hb : ∀ p, p < ww.bytes → byteAt u p = byteAt u' p) : u = u' := by
  rw [← ofByteLanes_byteAt ww u h, ← ofByteLanes_byteAt ww u' h']
  exact ofByteLanes_congr ww _ _ hb

/-! ## Shifts and masks -/

theorem getLsbD_shiftLeft (ww : WordSel) (u : Wide) (c i : Nat) :
    (shiftLeft ww u c).getLsbD i = (decide (i < ww.bits) && decide (c ≤ i) && u.getLsbD (i - c)) := by
  have := ww.bits_le
  unfold shiftLeft
  split
  · by_cases h : i < ww.bits
    · simp [show ¬ c ≤ i by omega]
    · simp [h]
  · rw [getLsbD_keep, BitVec.getLsbD_shiftLeft]
    by_cases h : i < ww.bits
    · have hi : i < 512 := by omega
      by_cases hc : c ≤ i
      · simp [h, hi, hc, Nat.not_lt.2 hc]
      · simp [h, hi, hc, Nat.not_le.1 hc]
    · simp [h]

theorem getLsbD_shiftRight (ww : WordSel) (u : Wide) (c i : Nat) :
    (shiftRight ww u c).getLsbD i = (decide (i + c < ww.bits) && u.getLsbD (i + c)) := by
  unfold shiftRight
  split
  · simp [show ¬ i + c < ww.bits by omega]
  · rw [BitVec.getLsbD_ushiftRight, getLsbD_keep, Nat.add_comm c i]

theorem toNat_shiftLeft (ww : WordSel) (u : Wide) (c : Nat) :
    (shiftLeft ww u c).toNat = if ww.bits ≤ c then 0 else u.toNat * 2 ^ c % 2 ^ ww.bits := by
  unfold shiftLeft
  split
  · simp
  · rw [toNat_keep, BitVec.toNat_shiftLeft, Nat.shiftLeft_eq, Nat.mod_mod_of_dvd]
    exact Nat.pow_dvd_pow 2 ww.bits_le

theorem toNat_shiftRight (ww : WordSel) (u : Wide) (c : Nat) :
    (shiftRight ww u c).toNat = if ww.bits ≤ c then 0 else (keep ww u).toNat / 2 ^ c := by
  unfold shiftRight
  split
  · simp
  · rw [BitVec.toNat_ushiftRight, Nat.shiftRight_eq_div_pow]

@[simp] theorem keep_shiftLeft (ww : WordSel) (u : Wide) (c : Nat) : keep ww (shiftLeft ww u c) = shiftLeft ww u c := by
  unfold shiftLeft; split <;> simp

@[simp] theorem keep_shiftRight (ww : WordSel) (u : Wide) (c : Nat) : keep ww (shiftRight ww u c) = shiftRight ww u c :=
  keep_eq_self ww _ fun i h => by rw [getLsbD_shiftRight]; simp [show ¬ i + c < ww.bits by omega]

@[simp] theorem keep_allOnes (ww : WordSel) : keep ww (allOnes ww) = allOnes ww := by simp [allOnes]

theorem getLsbD_allOnes (ww : WordSel) (i : Nat) : (allOnes ww).getLsbD i = decide (i < ww.bits) := by
  have := ww.bits_le
  rw [allOnes, getLsbD_keep, BitVec.getLsbD_allOnes]
  by_cases h : i < ww.bits
  · simp [h, show i < 512 by omega]
  · simp [h]

theorem toNat_allOnes (ww : WordSel) : (allOnes ww).toNat = 2 ^ ww.bits - 1 := by
  cases ww <;> decide +kernel

theorem getLsbD_evenMask (ww : WordSel) (lvl i : Nat) :
    (evenMask ww lvl).getLsbD i = (decide (i < ww.bits) && decide (i / 2 ^ lvl % 2 = 0)) := by
  have := ww.bits_le
  rw [evenMask, getLsbD_keep, getLsbD_ofBits]
  by_cases h : i < ww.bits
  · simp [h, show i < 512 by omega, beq_eq_decide]
  · simp [h]

theorem getLsbD_oddMask (ww : WordSel) (lvl i : Nat) :
    (oddMask ww lvl).getLsbD i = (decide (i < ww.bits) && decide (i / 2 ^ lvl % 2 = 1)) := by
  have := ww.bits_le
  rw [oddMask, getLsbD_keep, BitVec.getLsbD_not, getLsbD_evenMask]
  by_cases h : i < ww.bits
  · rcases Nat.mod_two_eq_zero_or_one (i / 2 ^ lvl) with h2 | h2 <;> simp [h, h2, show i < 512 by omega]
  · simp [h]

end Sys2Proof.Machine
end

