-- ==== Sys2Proof/Laws/Decode.lean ====
section
/-! SUPPORT. The fields of a packed word, and a word from its fields (spec 30_encoding.md R61, R65). -/

namespace Sys2Proof

section
variable (op : BitVec 6) (d a b : BitVec 4) (imm14 : BitVec 14) (imm22 : BitVec 22) (off26 : BitVec 26) (w : Word)

@[simp] theorem opOf_pack : opOf (pack op d a b imm14) = op := by
  apply BitVec.eq_of_getLsbD_eq; intro k hk
  simp only [opOf, pack, BitVec.getLsbD_extractLsb', BitVec.getLsbD_append]
  grind

@[simp] theorem dOf_pack : dOf (pack op d a b imm14) = d := by
  apply BitVec.eq_of_getLsbD_eq; intro k hk
  simp only [dOf, pack, BitVec.getLsbD_extractLsb', BitVec.getLsbD_append]
  grind

@[simp] theorem aOf_pack : aOf (pack op d a b imm14) = a := by
  apply BitVec.eq_of_getLsbD_eq; intro k hk
  simp only [aOf, pack, BitVec.getLsbD_extractLsb', BitVec.getLsbD_append]
  grind

@[simp] theorem bOf_pack : bOf (pack op d a b imm14) = b := by
  apply BitVec.eq_of_getLsbD_eq; intro k hk
  simp only [bOf, pack, BitVec.getLsbD_extractLsb', BitVec.getLsbD_append]
  grind

@[simp] theorem imm14Of_pack : imm14Of (pack op d a b imm14) = imm14 := by
  apply BitVec.eq_of_getLsbD_eq; intro k hk
  simp only [imm14Of, pack, BitVec.getLsbD_extractLsb', BitVec.getLsbD_append]
  grind

@[simp] theorem opOf_packBranch : opOf (packBranch op d imm22) = op := by
  apply BitVec.eq_of_getLsbD_eq; intro k hk
  simp only [opOf, packBranch, BitVec.getLsbD_extractLsb', BitVec.getLsbD_append]
  grind

@[simp] theorem dOf_packBranch : dOf (packBranch op d imm22) = d := by
  apply BitVec.eq_of_getLsbD_eq; intro k hk
  simp only [dOf, packBranch, BitVec.getLsbD_extractLsb', BitVec.getLsbD_append]
  grind

@[simp] theorem imm22Of_packBranch : imm22Of (packBranch op d imm22) = imm22 := by
  apply BitVec.eq_of_getLsbD_eq; intro k hk
  simp only [imm22Of, packBranch, BitVec.getLsbD_extractLsb', BitVec.getLsbD_append]
  grind

@[simp] theorem opOf_packJump : opOf (packJump op off26) = op := by
  apply BitVec.eq_of_getLsbD_eq; intro k hk
  simp only [opOf, packJump, BitVec.getLsbD_extractLsb', BitVec.getLsbD_append]
  grind

@[simp] theorem off26Of_packJump : off26Of (packJump op off26) = off26 := by
  apply BitVec.eq_of_getLsbD_eq; intro k hk
  simp only [off26Of, packJump, BitVec.getLsbD_extractLsb', BitVec.getLsbD_append]
  grind

/-- A word is its five fields, format R, I and G. -/
theorem pack_fields : pack (opOf w) (dOf w) (aOf w) (bOf w) (imm14Of w) = w := by
  apply BitVec.eq_of_getLsbD_eq; intro k hk
  simp only [opOf, dOf, aOf, bOf, imm14Of, pack, BitVec.getLsbD_extractLsb', BitVec.getLsbD_append]
  grind

/-- A word is its three fields, formats B and L. -/
theorem packBranch_fields : packBranch (opOf w) (dOf w) (imm22Of w) = w := by
  apply BitVec.eq_of_getLsbD_eq; intro k hk
  simp only [opOf, dOf, imm22Of, packBranch, BitVec.getLsbD_extractLsb', BitVec.getLsbD_append]
  grind

/-- A word is its two fields, formats J and N. -/
theorem packJump_fields : packJump (opOf w) (off26Of w) = w := by
  apply BitVec.eq_of_getLsbD_eq; intro k hk
  simp only [opOf, off26Of, packJump, BitVec.getLsbD_extractLsb', BitVec.getLsbD_append]
  grind

/-! ## The sub-fields of imm14 -/

@[simp] theorem lgNOf_pack (l : BitVec 3) (g : BitVec 11) : lgNOf (pack op d a b (l ++ g)) = l := by
  apply BitVec.eq_of_getLsbD_eq; intro k hk
  simp only [lgNOf, pack, BitVec.getLsbD_extractLsb', BitVec.getLsbD_append]
  grind

@[simp] theorem gOf_pack (l : BitVec 3) (g : BitVec 11) : gOf (pack op d a b (l ++ g)) = g := by
  apply BitVec.eq_of_getLsbD_eq; intro k hk
  simp only [gOf, pack, BitVec.getLsbD_extractLsb', BitVec.getLsbD_append]
  grind

@[simp] theorem lvlOf_pack (u : BitVec 10) (l : BitVec 4) : lvlOf (pack op d a b (u ++ l)) = l := by
  apply BitVec.eq_of_getLsbD_eq; intro k hk
  simp only [lvlOf, pack, BitVec.getLsbD_extractLsb', BitVec.getLsbD_append]
  grind

@[simp] theorem oddOf_pack (o : Bool) (l : BitVec 4) :
    oddOf (pack op d a b (0#9 ++ BitVec.ofBool o ++ l)) = o := by
  simp only [oddOf, pack, BitVec.getLsbD_append]
  simp

@[simp] theorem lgsOf_pack (u : BitVec 11) (l : BitVec 3) : lgsOf (pack op d a b (u ++ l)) = l := by
  apply BitVec.eq_of_getLsbD_eq; intro k hk
  simp only [lgsOf, pack, BitVec.getLsbD_extractLsb', BitVec.getLsbD_append]
  grind

@[simp] theorem bitOf_pack (u : BitVec 13) (o : Bool) : bitOf (pack op d a b (u ++ BitVec.ofBool o)) = o := by
  simp only [bitOf, pack, BitVec.getLsbD_append]
  simp

end

/-- The must-be-zero part above a sub-field of `k` bits. -/
theorem extract_high_append {m k : Nat} (u : BitVec m) (v : BitVec k) : (u ++ v).extractLsb' k m = u := by
  apply BitVec.eq_of_getLsbD_eq; intro i hi
  simp only [BitVec.getLsbD_extractLsb', BitVec.getLsbD_append]
  grind

@[simp] theorem regOf_fieldOf (r : Fin 16) : regOf (fieldOf r) = r := rfl

@[simp] theorem fieldOf_regOf (f : BitVec 4) : fieldOf (regOf f) = f := rfl

/-! ## Masks, field by field (R66) -/

theorem pack_and (o o' : BitVec 6) (d d' a a' b b' : BitVec 4) (i i' : BitVec 14) :
    pack o d a b i &&& pack o' d' a' b' i' = pack (o &&& o') (d &&& d') (a &&& a') (b &&& b') (i &&& i') := by
  apply BitVec.eq_of_getLsbD_eq; intro k hk
  simp only [pack, BitVec.getLsbD_and, BitVec.getLsbD_append]
  grind

theorem packBranch_and (o o' : BitVec 6) (d d' : BitVec 4) (i i' : BitVec 22) :
    packBranch o d i &&& packBranch o' d' i' = packBranch (o &&& o') (d &&& d') (i &&& i') := by
  apply BitVec.eq_of_getLsbD_eq; intro k hk
  simp only [packBranch, BitVec.getLsbD_and, BitVec.getLsbD_append]
  grind

theorem packJump_and (o o' : BitVec 6) (i i' : BitVec 26) :
    packJump o i &&& packJump o' i' = packJump (o &&& o') (i &&& i') := by
  apply BitVec.eq_of_getLsbD_eq; intro k hk
  simp only [packJump, BitVec.getLsbD_and, BitVec.getLsbD_append]
  grind

/-- The mask of the must-be-zero bits above a sub-field of `k` bits finds none set where they are 0. -/
theorem zero_append_and {m k : Nat} (v : BitVec k) : ((0#m ++ v) &&& (BitVec.allOnes m ++ 0#k)) = 0#(m + k) := by
  apply BitVec.eq_of_getLsbD_eq; intro i hi
  simp only [BitVec.getLsbD_and, BitVec.getLsbD_append, BitVec.getLsbD_zero]
  grind

/-- A row's test, field by field. -/
theorem TableRow.hits_iff (r : TableRow) (w : Word) :
    r.hits w = true ↔ opOf w &&& opOf r.mask = opOf r.bits ∧ dOf w &&& dOf r.mask = dOf r.bits ∧
      aOf w &&& aOf r.mask = aOf r.bits ∧ bOf w &&& bOf r.mask = bOf r.bits ∧
      imm14Of w &&& imm14Of r.mask = imm14Of r.bits := by
  have h1 : w &&& r.mask = pack (opOf w &&& opOf r.mask) (dOf w &&& dOf r.mask) (aOf w &&& aOf r.mask)
      (bOf w &&& bOf r.mask) (imm14Of w &&& imm14Of r.mask) := by
    rw [← pack_and, pack_fields, pack_fields]
  rw [TableRow.hits, beq_iff_eq, h1]
  constructor
  · intro h
    rw [← h]; simp
  · rintro ⟨h1, h2, h3, h4, h5⟩
    rw [h1, h2, h3, h4, h5, pack_fields]

end Sys2Proof
end

