-- ==== Sys2Proof/Laws/Memory.lean ====
section
/-! SUPPORT. The laws of Machine/Ops.lean's memories: what a read finds after a write, and that every memory operation keeps the
canonical form and the bounds of the space. -/

namespace Sys2Proof.Machine

section
variable {α : Type}

@[simp] theorem read_nil (a : Nat) : Memory.read ([] : Memory α) a = none := rfl

theorem read_write (m : Memory α) (a b : Nat) (c : α) :
    (Memory.write m a c).read b = if b = a then some c else Memory.read m b := by
  induction m with
  | nil =>
    simp only [Memory.write, Memory.read]
    by_cases h : a = b
    · simp [h]
    · simp [h, Ne.symm h]
  | cons p m ih =>
    obtain ⟨k, c'⟩ := p
    simp only [Memory.write]
    split
    · simp only [Memory.read]
      by_cases h : a = b
      · simp [h]
      · simp [h, Ne.symm h]
    · split
      · rename_i h; subst h
        simp only [Memory.read]
        by_cases h : a = b
        · simp [h]
        · simp [h, Ne.symm h]
      · rename_i hk
        simp only [Memory.read, ih]
        by_cases h : k = b
        · have : b ≠ a := fun hb => hk (hb.symm.trans h.symm)
          simp [h, this]
        · simp [h]

/-- The cell just written reads back. -/
theorem read_write_same (m : Memory α) (a : Nat) (c : α) : (Memory.write m a c).read a = some c := by
  simp [read_write]

/-- Every other cell reads as before. -/
theorem read_write_other (m : Memory α) (a b : Nat) (c : α) (h : b ≠ a) : (Memory.write m a c).read b = Memory.read m b := by
  simp [read_write, h]

theorem read_writeRange (m : Memory α) (a n b : Nat) (f : Nat → α) :
    (Memory.writeRange m a f n).read b = if a ≤ b ∧ b < a + n then some (f (b - a)) else Memory.read m b := by
  induction n with
  | zero => rw [Memory.writeRange, if_neg (by omega)]
  | succ n ih =>
    rw [Memory.writeRange, read_write, ih]
    by_cases h : b = a + n
    · subst h; simp
    · by_cases h2 : a ≤ b ∧ b < a + n
      · simp [h, h2, show b < a + (n + 1) by omega]
      · rw [if_neg h, if_neg h2, if_neg (by omega)]

/-- A cell of the written range holds its value. -/
theorem read_writeRange_inside (m : Memory α) (a n k : Nat) (f : Nat → α) (h : k < n) :
    (Memory.writeRange m a f n).read (a + k) = some (f k) := by
  rw [read_writeRange, if_pos ⟨Nat.le_add_right _ _, by omega⟩, Nat.add_sub_cancel_left]

theorem written_iff (m : Memory α) (a n : Nat) :
    Memory.written m a n = true ↔ ∀ k, k < n → (Memory.read m (a + k)).isSome = true := by
  induction n with
  | zero => simp [Memory.written]
  | succ n ih =>
    rw [Memory.written, Bool.and_eq_true, ih]
    constructor
    · rintro ⟨h, hn⟩ k hk
      by_cases hkn : k = n
      · subst hkn; exact hn
      · exact h k (by omega)
    · intro h
      exact ⟨fun k hk => h k (by omega), h n (by omega)⟩

/-- Some cell of a range that is not all written holds no value. -/
theorem not_written_of_read_none (m : Memory α) (a n k : Nat) (hk : k < n) (h : Memory.read m (a + k) = none) :
    Memory.written m a n = false := by
  rw [Bool.eq_false_iff]
  intro hw
  have := (written_iff m a n).1 hw k hk
  simp [h] at this

/-! ## The canonical form -/

theorem mem_write (m : Memory α) (a : Nat) (c : α) (p : Nat × α) (h : p ∈ Memory.write m a c) : p = (a, c) ∨ p ∈ m := by
  induction m with
  | nil => simpa [Memory.write] using h
  | cons q m ih =>
    obtain ⟨k, c'⟩ := q
    simp only [Memory.write] at h
    split at h
    · simpa using h
    · split at h
      · simp only [List.mem_cons] at h ⊢; tauto
      · simp only [List.mem_cons] at h ⊢
        rcases h with h | h
        · exact .inr (.inl h)
        · rcases ih h with h | h
          · exact .inl h
          · exact .inr (.inr h)

theorem write_wf (m : Memory α) (a : Nat) (c : α) (h : Memory.wf m) : Memory.wf (Memory.write m a c) := by
  induction m with
  | nil => simp [Memory.wf, Memory.write]
  | cons q m ih =>
    obtain ⟨k, c'⟩ := q
    have hk : ∀ p ∈ m, k < p.1 := fun p hp => List.rel_of_pairwise_cons h hp
    have hm := List.Pairwise.of_cons h
    simp only [Memory.write]
    split
    · rename_i hak
      refine List.Pairwise.cons ?_ h
      intro p hp
      rcases List.mem_cons.1 hp with rfl | hp
      · exact hak
      · exact Nat.lt_trans hak (hk p hp)
    · split
      · rename_i hak
        subst hak
        exact List.Pairwise.cons (fun p hp => hk p hp) hm
      · rename_i hlt hne
        refine List.Pairwise.cons ?_ (ih hm)
        intro p hp
        rcases mem_write m a c p hp with rfl | hp
        · exact Nat.lt_of_le_of_ne (Nat.not_lt.1 hlt) fun h => hne h.symm
        · exact hk p hp

theorem writeRange_wf (m : Memory α) (a n : Nat) (f : Nat → α) (h : Memory.wf m) : Memory.wf (Memory.writeRange m a f n) := by
  induction n with
  | zero => exact h
  | succ n ih => exact write_wf _ _ _ ih

theorem write_within (m : Memory α) (a b : Nat) (c : α) (h : Memory.within m b) (ha : a < b) :
    Memory.within (Memory.write m a c) b := by
  intro p hp
  rcases mem_write m a c p hp with rfl | hp
  · exact ha
  · exact h p hp

theorem writeRange_within (m : Memory α) (a n b : Nat) (f : Nat → α) (h : Memory.within m b) (ha : a + n ≤ b) :
    Memory.within (Memory.writeRange m a f n) b := by
  induction n with
  | zero => exact h
  | succ n ih => exact write_within _ _ _ _ (ih (by omega)) (by omega)

end

end Sys2Proof.Machine
end

