-- ==== Sys2Proof/Laws/State.lean ====
section
/-! SUPPORT. What each update of the state leaves in each field, and what the register reads find after each update: the simp set that
later proofs use instead of unfolding an update. -/

namespace Sys2Proof.Machine

/-! ## One lemma per field per update -/

@[simp] theorem setV_cfg (s : State) (r : VReg) (u : Wide) : (s.setV r u).cfg = s.cfg := rfl
@[simp] theorem setV_v (s : State) (r : VReg) (u : Wide) : (s.setV r u).v = s.v.set r.val (keep s.cfg.word u) := rfl
@[simp] theorem setV_x (s : State) (r : VReg) (u : Wide) : (s.setV r u).x = s.x := rfl
@[simp] theorem setV_flag (s : State) (r : VReg) (u : Wide) : (s.setV r u).flag = s.flag := rfl
@[simp] theorem setV_pc (s : State) (r : VReg) (u : Wide) : (s.setV r u).pc = s.pc := rfl
@[simp] theorem setV_run (s : State) (r : VReg) (u : Wide) : (s.setV r u).run = s.run := rfl
@[simp] theorem setV_cause (s : State) (r : VReg) (u : Wide) : (s.setV r u).cause = s.cause := rfl
@[simp] theorem setV_epc (s : State) (r : VReg) (u : Wide) : (s.setV r u).epc = s.epc := rfl
@[simp] theorem setV_finfo (s : State) (r : VReg) (u : Wide) : (s.setV r u).finfo = s.finfo := rfl
@[simp] theorem setV_startPc (s : State) (r : VReg) (u : Wide) : (s.setV r u).startPc = s.startPc := rfl
@[simp] theorem setV_abortLatch (s : State) (r : VReg) (u : Wide) : (s.setV r u).abortLatch = s.abortLatch := rfl
@[simp] theorem setV_resetAsserted (s : State) (r : VReg) (u : Wide) : (s.setV r u).resetAsserted = s.resetAsserted := rfl
@[simp] theorem setV_grid (s : State) (r : VReg) (u : Wide) : (s.setV r u).grid = s.grid := rfl
@[simp] theorem setV_imem (s : State) (r : VReg) (u : Wide) : (s.setV r u).imem = s.imem := rfl
@[simp] theorem setV_dmem (s : State) (r : VReg) (u : Wide) : (s.setV r u).dmem = s.dmem := rfl
@[simp] theorem setV_draws (s : State) (r : VReg) (u : Wide) : (s.setV r u).draws = s.draws := rfl
@[simp] theorem setV_host (s : State) (r : VReg) (u : Wide) : (s.setV r u).host = s.host := rfl
@[simp] theorem setV_hostReads (s : State) (r : VReg) (u : Wide) : (s.setV r u).hostReads = s.hostReads := rfl

@[simp] theorem setFlag_cfg (s : State) (b : Bool) : (s.setFlag b).cfg = s.cfg := rfl
@[simp] theorem setFlag_v (s : State) (b : Bool) : (s.setFlag b).v = s.v := rfl
@[simp] theorem setFlag_x (s : State) (b : Bool) : (s.setFlag b).x = s.x := rfl
@[simp] theorem setFlag_flag (s : State) (b : Bool) : (s.setFlag b).flag = b := rfl
@[simp] theorem setFlag_pc (s : State) (b : Bool) : (s.setFlag b).pc = s.pc := rfl
@[simp] theorem setFlag_run (s : State) (b : Bool) : (s.setFlag b).run = s.run := rfl
@[simp] theorem setFlag_cause (s : State) (b : Bool) : (s.setFlag b).cause = s.cause := rfl
@[simp] theorem setFlag_epc (s : State) (b : Bool) : (s.setFlag b).epc = s.epc := rfl
@[simp] theorem setFlag_finfo (s : State) (b : Bool) : (s.setFlag b).finfo = s.finfo := rfl
@[simp] theorem setFlag_startPc (s : State) (b : Bool) : (s.setFlag b).startPc = s.startPc := rfl
@[simp] theorem setFlag_abortLatch (s : State) (b : Bool) : (s.setFlag b).abortLatch = s.abortLatch := rfl
@[simp] theorem setFlag_resetAsserted (s : State) (b : Bool) : (s.setFlag b).resetAsserted = s.resetAsserted := rfl
@[simp] theorem setFlag_grid (s : State) (b : Bool) : (s.setFlag b).grid = s.grid := rfl
@[simp] theorem setFlag_imem (s : State) (b : Bool) : (s.setFlag b).imem = s.imem := rfl
@[simp] theorem setFlag_dmem (s : State) (b : Bool) : (s.setFlag b).dmem = s.dmem := rfl
@[simp] theorem setFlag_draws (s : State) (b : Bool) : (s.setFlag b).draws = s.draws := rfl
@[simp] theorem setFlag_host (s : State) (b : Bool) : (s.setFlag b).host = s.host := rfl
@[simp] theorem setFlag_hostReads (s : State) (b : Bool) : (s.setFlag b).hostReads = s.hostReads := rfl

@[simp] theorem memWrite_cfg (s : State) (a n : Nat) (u : Wide) : (s.memWrite a n u).cfg = s.cfg := rfl
@[simp] theorem memWrite_v (s : State) (a n : Nat) (u : Wide) : (s.memWrite a n u).v = s.v := rfl
@[simp] theorem memWrite_x (s : State) (a n : Nat) (u : Wide) : (s.memWrite a n u).x = s.x := rfl
@[simp] theorem memWrite_flag (s : State) (a n : Nat) (u : Wide) : (s.memWrite a n u).flag = s.flag := rfl
@[simp] theorem memWrite_pc (s : State) (a n : Nat) (u : Wide) : (s.memWrite a n u).pc = s.pc := rfl
@[simp] theorem memWrite_run (s : State) (a n : Nat) (u : Wide) : (s.memWrite a n u).run = s.run := rfl
@[simp] theorem memWrite_cause (s : State) (a n : Nat) (u : Wide) : (s.memWrite a n u).cause = s.cause := rfl
@[simp] theorem memWrite_epc (s : State) (a n : Nat) (u : Wide) : (s.memWrite a n u).epc = s.epc := rfl
@[simp] theorem memWrite_finfo (s : State) (a n : Nat) (u : Wide) : (s.memWrite a n u).finfo = s.finfo := rfl
@[simp] theorem memWrite_startPc (s : State) (a n : Nat) (u : Wide) : (s.memWrite a n u).startPc = s.startPc := rfl
@[simp] theorem memWrite_abortLatch (s : State) (a n : Nat) (u : Wide) : (s.memWrite a n u).abortLatch = s.abortLatch := rfl
@[simp] theorem memWrite_resetAsserted (s : State) (a n : Nat) (u : Wide) : (s.memWrite a n u).resetAsserted = s.resetAsserted := rfl
@[simp] theorem memWrite_grid (s : State) (a n : Nat) (u : Wide) : (s.memWrite a n u).grid = s.grid := rfl
@[simp] theorem memWrite_imem (s : State) (a n : Nat) (u : Wide) : (s.memWrite a n u).imem = s.imem := rfl
@[simp] theorem memWrite_dmem (s : State) (a n : Nat) (u : Wide) : (s.memWrite a n u).dmem = Memory.writeRange s.dmem a (byteAt u) n := rfl
@[simp] theorem memWrite_draws (s : State) (a n : Nat) (u : Wide) : (s.memWrite a n u).draws = s.draws := rfl
@[simp] theorem memWrite_host (s : State) (a n : Nat) (u : Wide) : (s.memWrite a n u).host = s.host := rfl
@[simp] theorem memWrite_hostReads (s : State) (a n : Nat) (u : Wide) : (s.memWrite a n u).hostReads = s.hostReads := rfl

@[simp] theorem writeGrid_cfg (s : State) (g n : Nat) (f : Nat → Mat) : (s.writeGrid g n f).cfg = s.cfg := rfl
@[simp] theorem writeGrid_v (s : State) (g n : Nat) (f : Nat → Mat) : (s.writeGrid g n f).v = s.v := rfl
@[simp] theorem writeGrid_x (s : State) (g n : Nat) (f : Nat → Mat) : (s.writeGrid g n f).x = s.x := rfl
@[simp] theorem writeGrid_flag (s : State) (g n : Nat) (f : Nat → Mat) : (s.writeGrid g n f).flag = s.flag := rfl
@[simp] theorem writeGrid_pc (s : State) (g n : Nat) (f : Nat → Mat) : (s.writeGrid g n f).pc = s.pc := rfl
@[simp] theorem writeGrid_run (s : State) (g n : Nat) (f : Nat → Mat) : (s.writeGrid g n f).run = s.run := rfl
@[simp] theorem writeGrid_cause (s : State) (g n : Nat) (f : Nat → Mat) : (s.writeGrid g n f).cause = s.cause := rfl
@[simp] theorem writeGrid_epc (s : State) (g n : Nat) (f : Nat → Mat) : (s.writeGrid g n f).epc = s.epc := rfl
@[simp] theorem writeGrid_finfo (s : State) (g n : Nat) (f : Nat → Mat) : (s.writeGrid g n f).finfo = s.finfo := rfl
@[simp] theorem writeGrid_startPc (s : State) (g n : Nat) (f : Nat → Mat) : (s.writeGrid g n f).startPc = s.startPc := rfl
@[simp] theorem writeGrid_abortLatch (s : State) (g n : Nat) (f : Nat → Mat) : (s.writeGrid g n f).abortLatch = s.abortLatch := rfl
@[simp] theorem writeGrid_resetAsserted (s : State) (g n : Nat) (f : Nat → Mat) : (s.writeGrid g n f).resetAsserted = s.resetAsserted := rfl
@[simp] theorem writeGrid_grid (s : State) (g n : Nat) (f : Nat → Mat) : (s.writeGrid g n f).grid = Memory.writeRange s.grid g f n := rfl
@[simp] theorem writeGrid_imem (s : State) (g n : Nat) (f : Nat → Mat) : (s.writeGrid g n f).imem = s.imem := rfl
@[simp] theorem writeGrid_dmem (s : State) (g n : Nat) (f : Nat → Mat) : (s.writeGrid g n f).dmem = s.dmem := rfl
@[simp] theorem writeGrid_draws (s : State) (g n : Nat) (f : Nat → Mat) : (s.writeGrid g n f).draws = s.draws := rfl
@[simp] theorem writeGrid_host (s : State) (g n : Nat) (f : Nat → Mat) : (s.writeGrid g n f).host = s.host := rfl
@[simp] theorem writeGrid_hostReads (s : State) (g n : Nat) (f : Nat → Mat) : (s.writeGrid g n f).hostReads = s.hostReads := rfl

@[simp] theorem advance_cfg (s : State) : s.advance.cfg = s.cfg := rfl
@[simp] theorem advance_v (s : State) : s.advance.v = s.v := rfl
@[simp] theorem advance_x (s : State) : s.advance.x = s.x := rfl
@[simp] theorem advance_flag (s : State) : s.advance.flag = s.flag := rfl
@[simp] theorem advance_pc (s : State) : s.advance.pc = s.pc + 4 := rfl
@[simp] theorem advance_run (s : State) : s.advance.run = s.run := rfl
@[simp] theorem advance_cause (s : State) : s.advance.cause = s.cause := rfl
@[simp] theorem advance_epc (s : State) : s.advance.epc = s.epc := rfl
@[simp] theorem advance_finfo (s : State) : s.advance.finfo = s.finfo := rfl
@[simp] theorem advance_startPc (s : State) : s.advance.startPc = s.startPc := rfl
@[simp] theorem advance_abortLatch (s : State) : s.advance.abortLatch = s.abortLatch := rfl
@[simp] theorem advance_resetAsserted (s : State) : s.advance.resetAsserted = s.resetAsserted := rfl
@[simp] theorem advance_grid (s : State) : s.advance.grid = s.grid := rfl
@[simp] theorem advance_imem (s : State) : s.advance.imem = s.imem := rfl
@[simp] theorem advance_dmem (s : State) : s.advance.dmem = s.dmem := rfl
@[simp] theorem advance_draws (s : State) : s.advance.draws = s.draws := rfl
@[simp] theorem advance_host (s : State) : s.advance.host = s.host := rfl
@[simp] theorem advance_hostReads (s : State) : s.advance.hostReads = s.hostReads := rfl

@[simp] theorem jump_cfg (s : State) (p : Word) : (s.jump p).cfg = s.cfg := rfl
@[simp] theorem jump_v (s : State) (p : Word) : (s.jump p).v = s.v := rfl
@[simp] theorem jump_x (s : State) (p : Word) : (s.jump p).x = s.x := rfl
@[simp] theorem jump_flag (s : State) (p : Word) : (s.jump p).flag = s.flag := rfl
@[simp] theorem jump_pc (s : State) (p : Word) : (s.jump p).pc = p := rfl
@[simp] theorem jump_run (s : State) (p : Word) : (s.jump p).run = s.run := rfl
@[simp] theorem jump_cause (s : State) (p : Word) : (s.jump p).cause = s.cause := rfl
@[simp] theorem jump_epc (s : State) (p : Word) : (s.jump p).epc = s.epc := rfl
@[simp] theorem jump_finfo (s : State) (p : Word) : (s.jump p).finfo = s.finfo := rfl
@[simp] theorem jump_startPc (s : State) (p : Word) : (s.jump p).startPc = s.startPc := rfl
@[simp] theorem jump_abortLatch (s : State) (p : Word) : (s.jump p).abortLatch = s.abortLatch := rfl
@[simp] theorem jump_resetAsserted (s : State) (p : Word) : (s.jump p).resetAsserted = s.resetAsserted := rfl
@[simp] theorem jump_grid (s : State) (p : Word) : (s.jump p).grid = s.grid := rfl
@[simp] theorem jump_imem (s : State) (p : Word) : (s.jump p).imem = s.imem := rfl
@[simp] theorem jump_dmem (s : State) (p : Word) : (s.jump p).dmem = s.dmem := rfl
@[simp] theorem jump_draws (s : State) (p : Word) : (s.jump p).draws = s.draws := rfl
@[simp] theorem jump_host (s : State) (p : Word) : (s.jump p).host = s.host := rfl
@[simp] theorem jump_hostReads (s : State) (p : Word) : (s.jump p).hostReads = s.hostReads := rfl

@[simp] theorem enterException_cfg (s : State) (e : Cause) (i : Word) : (s.enterException e i).cfg = s.cfg := rfl
@[simp] theorem enterException_v (s : State) (e : Cause) (i : Word) : (s.enterException e i).v = s.v := rfl
@[simp] theorem enterException_x (s : State) (e : Cause) (i : Word) : (s.enterException e i).x = s.x := rfl
@[simp] theorem enterException_flag (s : State) (e : Cause) (i : Word) : (s.enterException e i).flag = s.flag := rfl
@[simp] theorem enterException_pc (s : State) (e : Cause) (i : Word) : (s.enterException e i).pc = s.pc := rfl
@[simp] theorem enterException_run (s : State) (e : Cause) (i : Word) : (s.enterException e i).run = .faulted := rfl
@[simp] theorem enterException_cause (s : State) (e : Cause) (i : Word) : (s.enterException e i).cause = e := rfl
@[simp] theorem enterException_epc (s : State) (e : Cause) (i : Word) : (s.enterException e i).epc = s.pc := rfl
@[simp] theorem enterException_finfo (s : State) (e : Cause) (i : Word) : (s.enterException e i).finfo = i := rfl
@[simp] theorem enterException_startPc (s : State) (e : Cause) (i : Word) : (s.enterException e i).startPc = s.startPc := rfl
@[simp] theorem enterException_abortLatch (s : State) (e : Cause) (i : Word) : (s.enterException e i).abortLatch = false := rfl
@[simp] theorem enterException_resetAsserted (s : State) (e : Cause) (i : Word) : (s.enterException e i).resetAsserted = s.resetAsserted := rfl
@[simp] theorem enterException_grid (s : State) (e : Cause) (i : Word) : (s.enterException e i).grid = s.grid := rfl
@[simp] theorem enterException_imem (s : State) (e : Cause) (i : Word) : (s.enterException e i).imem = s.imem := rfl
@[simp] theorem enterException_dmem (s : State) (e : Cause) (i : Word) : (s.enterException e i).dmem = s.dmem := rfl
@[simp] theorem enterException_draws (s : State) (e : Cause) (i : Word) : (s.enterException e i).draws = s.draws := rfl
@[simp] theorem enterException_host (s : State) (e : Cause) (i : Word) : (s.enterException e i).host = s.host := rfl
@[simp] theorem enterException_hostReads (s : State) (e : Cause) (i : Word) : (s.enterException e i).hostReads = s.hostReads := rfl

@[simp] theorem halt_cfg (s : State) : s.halt.cfg = s.cfg := rfl
@[simp] theorem halt_v (s : State) : s.halt.v = s.v := rfl
@[simp] theorem halt_x (s : State) : s.halt.x = s.x := rfl
@[simp] theorem halt_flag (s : State) : s.halt.flag = s.flag := rfl
@[simp] theorem halt_pc (s : State) : s.halt.pc = s.pc := rfl
@[simp] theorem halt_run (s : State) : s.halt.run = .halted := rfl
@[simp] theorem halt_cause (s : State) : s.halt.cause = s.cause := rfl
@[simp] theorem halt_epc (s : State) : s.halt.epc = s.pc := rfl
@[simp] theorem halt_finfo (s : State) : s.halt.finfo = s.finfo := rfl
@[simp] theorem halt_startPc (s : State) : s.halt.startPc = s.startPc := rfl
@[simp] theorem halt_abortLatch (s : State) : s.halt.abortLatch = false := rfl
@[simp] theorem halt_resetAsserted (s : State) : s.halt.resetAsserted = s.resetAsserted := rfl
@[simp] theorem halt_grid (s : State) : s.halt.grid = s.grid := rfl
@[simp] theorem halt_imem (s : State) : s.halt.imem = s.imem := rfl
@[simp] theorem halt_dmem (s : State) : s.halt.dmem = s.dmem := rfl
@[simp] theorem halt_draws (s : State) : s.halt.draws = s.draws := rfl
@[simp] theorem halt_host (s : State) : s.halt.host = s.host := rfl
@[simp] theorem halt_hostReads (s : State) : s.halt.hostReads = s.hostReads := rfl

@[simp] theorem takeAbort_cfg (s : State) : s.takeAbort.cfg = s.cfg := rfl
@[simp] theorem takeAbort_v (s : State) : s.takeAbort.v = s.v := rfl
@[simp] theorem takeAbort_x (s : State) : s.takeAbort.x = s.x := rfl
@[simp] theorem takeAbort_flag (s : State) : s.takeAbort.flag = s.flag := rfl
@[simp] theorem takeAbort_pc (s : State) : s.takeAbort.pc = s.pc := rfl
@[simp] theorem takeAbort_run (s : State) : s.takeAbort.run = .idle := rfl
@[simp] theorem takeAbort_cause (s : State) : s.takeAbort.cause = s.cause := rfl
@[simp] theorem takeAbort_epc (s : State) : s.takeAbort.epc = s.pc := rfl
@[simp] theorem takeAbort_finfo (s : State) : s.takeAbort.finfo = s.finfo := rfl
@[simp] theorem takeAbort_startPc (s : State) : s.takeAbort.startPc = s.startPc := rfl
@[simp] theorem takeAbort_abortLatch (s : State) : s.takeAbort.abortLatch = false := rfl
@[simp] theorem takeAbort_resetAsserted (s : State) : s.takeAbort.resetAsserted = s.resetAsserted := rfl
@[simp] theorem takeAbort_grid (s : State) : s.takeAbort.grid = s.grid := rfl
@[simp] theorem takeAbort_imem (s : State) : s.takeAbort.imem = s.imem := rfl
@[simp] theorem takeAbort_dmem (s : State) : s.takeAbort.dmem = s.dmem := rfl
@[simp] theorem takeAbort_draws (s : State) : s.takeAbort.draws = s.draws := rfl
@[simp] theorem takeAbort_host (s : State) : s.takeAbort.host = s.host := rfl
@[simp] theorem takeAbort_hostReads (s : State) : s.takeAbort.hostReads = s.hostReads := rfl

@[simp] theorem start_cfg (s : State) : s.start.cfg = s.cfg := rfl
@[simp] theorem start_v (s : State) : s.start.v = s.v := rfl
@[simp] theorem start_x (s : State) : s.start.x = s.x := rfl
@[simp] theorem start_flag (s : State) : s.start.flag = s.flag := rfl
@[simp] theorem start_pc (s : State) : s.start.pc = s.startPc := rfl
@[simp] theorem start_run (s : State) : s.start.run = .running := rfl
@[simp] theorem start_cause (s : State) : s.start.cause = .none := rfl
@[simp] theorem start_epc (s : State) : s.start.epc = 0 := rfl
@[simp] theorem start_finfo (s : State) : s.start.finfo = 0 := rfl
@[simp] theorem start_startPc (s : State) : s.start.startPc = s.startPc := rfl
@[simp] theorem start_abortLatch (s : State) : s.start.abortLatch = s.abortLatch := rfl
@[simp] theorem start_resetAsserted (s : State) : s.start.resetAsserted = s.resetAsserted := rfl
@[simp] theorem start_grid (s : State) : s.start.grid = s.grid := rfl
@[simp] theorem start_imem (s : State) : s.start.imem = s.imem := rfl
@[simp] theorem start_dmem (s : State) : s.start.dmem = s.dmem := rfl
@[simp] theorem start_draws (s : State) : s.start.draws = s.draws := rfl
@[simp] theorem start_host (s : State) : s.start.host = s.host := rfl
@[simp] theorem start_hostReads (s : State) : s.start.hostReads = s.hostReads := rfl

@[simp] theorem setX_cfg (s : State) (r : XReg) (u : Word) : (s.setX r u).cfg = s.cfg := by
  unfold State.setX; split <;> rfl
@[simp] theorem setX_v (s : State) (r : XReg) (u : Word) : (s.setX r u).v = s.v := by
  unfold State.setX; split <;> rfl
@[simp] theorem setX_flag (s : State) (r : XReg) (u : Word) : (s.setX r u).flag = s.flag := by
  unfold State.setX; split <;> rfl
@[simp] theorem setX_pc (s : State) (r : XReg) (u : Word) : (s.setX r u).pc = s.pc := by
  unfold State.setX; split <;> rfl
@[simp] theorem setX_run (s : State) (r : XReg) (u : Word) : (s.setX r u).run = s.run := by
  unfold State.setX; split <;> rfl
@[simp] theorem setX_cause (s : State) (r : XReg) (u : Word) : (s.setX r u).cause = s.cause := by
  unfold State.setX; split <;> rfl
@[simp] theorem setX_epc (s : State) (r : XReg) (u : Word) : (s.setX r u).epc = s.epc := by
  unfold State.setX; split <;> rfl
@[simp] theorem setX_finfo (s : State) (r : XReg) (u : Word) : (s.setX r u).finfo = s.finfo := by
  unfold State.setX; split <;> rfl
@[simp] theorem setX_startPc (s : State) (r : XReg) (u : Word) : (s.setX r u).startPc = s.startPc := by
  unfold State.setX; split <;> rfl
@[simp] theorem setX_abortLatch (s : State) (r : XReg) (u : Word) : (s.setX r u).abortLatch = s.abortLatch := by
  unfold State.setX; split <;> rfl
@[simp] theorem setX_resetAsserted (s : State) (r : XReg) (u : Word) : (s.setX r u).resetAsserted = s.resetAsserted := by
  unfold State.setX; split <;> rfl
@[simp] theorem setX_grid (s : State) (r : XReg) (u : Word) : (s.setX r u).grid = s.grid := by
  unfold State.setX; split <;> rfl
@[simp] theorem setX_imem (s : State) (r : XReg) (u : Word) : (s.setX r u).imem = s.imem := by
  unfold State.setX; split <;> rfl
@[simp] theorem setX_dmem (s : State) (r : XReg) (u : Word) : (s.setX r u).dmem = s.dmem := by
  unfold State.setX; split <;> rfl
@[simp] theorem setX_draws (s : State) (r : XReg) (u : Word) : (s.setX r u).draws = s.draws := by
  unfold State.setX; split <;> rfl
@[simp] theorem setX_host (s : State) (r : XReg) (u : Word) : (s.setX r u).host = s.host := by
  unfold State.setX; split <;> rfl
@[simp] theorem setX_hostReads (s : State) (r : XReg) (u : Word) : (s.setX r u).hostReads = s.hostReads := by
  unfold State.setX; split <;> rfl

/-! ## Register reads after an update -/

@[simp] theorem setV_getX (s : State) (r : VReg) (u : Wide) (q : XReg) : (s.setV r u).getX q = s.getX q := rfl
@[simp] theorem setV_dmemByte (s : State) (r : VReg) (u : Wide) (k : Nat) : (s.setV r u).dmemByte k = s.dmemByte k := rfl
@[simp] theorem setV_gridEntry (s : State) (r : VReg) (u : Wide) (k : Nat) : (s.setV r u).gridEntry k = s.gridEntry k := rfl
@[simp] theorem setV_imemByte (s : State) (r : VReg) (u : Wide) (k : Nat) : (s.setV r u).imemByte k = s.imemByte k := rfl

@[simp] theorem setFlag_getX (s : State) (b : Bool) (q : XReg) : (s.setFlag b).getX q = s.getX q := rfl
@[simp] theorem setFlag_getV (s : State) (b : Bool) (q : VReg) : (s.setFlag b).getV q = s.getV q := rfl
@[simp] theorem setFlag_dmemByte (s : State) (b : Bool) (k : Nat) : (s.setFlag b).dmemByte k = s.dmemByte k := rfl
@[simp] theorem setFlag_gridEntry (s : State) (b : Bool) (k : Nat) : (s.setFlag b).gridEntry k = s.gridEntry k := rfl
@[simp] theorem setFlag_imemByte (s : State) (b : Bool) (k : Nat) : (s.setFlag b).imemByte k = s.imemByte k := rfl

@[simp] theorem memWrite_getX (s : State) (a n : Nat) (u : Wide) (q : XReg) : (s.memWrite a n u).getX q = s.getX q := rfl
@[simp] theorem memWrite_getV (s : State) (a n : Nat) (u : Wide) (q : VReg) : (s.memWrite a n u).getV q = s.getV q := rfl
@[simp] theorem memWrite_gridEntry (s : State) (a n : Nat) (u : Wide) (k : Nat) : (s.memWrite a n u).gridEntry k = s.gridEntry k := rfl
@[simp] theorem memWrite_imemByte (s : State) (a n : Nat) (u : Wide) (k : Nat) : (s.memWrite a n u).imemByte k = s.imemByte k := rfl

@[simp] theorem writeGrid_getX (s : State) (g n : Nat) (f : Nat → Mat) (q : XReg) : (s.writeGrid g n f).getX q = s.getX q := rfl
@[simp] theorem writeGrid_getV (s : State) (g n : Nat) (f : Nat → Mat) (q : VReg) : (s.writeGrid g n f).getV q = s.getV q := rfl
@[simp] theorem writeGrid_dmemByte (s : State) (g n : Nat) (f : Nat → Mat) (k : Nat) : (s.writeGrid g n f).dmemByte k = s.dmemByte k := rfl
@[simp] theorem writeGrid_imemByte (s : State) (g n : Nat) (f : Nat → Mat) (k : Nat) : (s.writeGrid g n f).imemByte k = s.imemByte k := rfl

@[simp] theorem advance_getX (s : State) (q : XReg) : s.advance.getX q = s.getX q := rfl
@[simp] theorem advance_getV (s : State) (q : VReg) : s.advance.getV q = s.getV q := rfl
@[simp] theorem advance_dmemByte (s : State) (k : Nat) : s.advance.dmemByte k = s.dmemByte k := rfl
@[simp] theorem advance_gridEntry (s : State) (k : Nat) : s.advance.gridEntry k = s.gridEntry k := rfl
@[simp] theorem advance_imemByte (s : State) (k : Nat) : s.advance.imemByte k = s.imemByte k := rfl

@[simp] theorem jump_getX (s : State) (p : Word) (q : XReg) : (s.jump p).getX q = s.getX q := rfl
@[simp] theorem jump_getV (s : State) (p : Word) (q : VReg) : (s.jump p).getV q = s.getV q := rfl
@[simp] theorem jump_dmemByte (s : State) (p : Word) (k : Nat) : (s.jump p).dmemByte k = s.dmemByte k := rfl
@[simp] theorem jump_gridEntry (s : State) (p : Word) (k : Nat) : (s.jump p).gridEntry k = s.gridEntry k := rfl
@[simp] theorem jump_imemByte (s : State) (p : Word) (k : Nat) : (s.jump p).imemByte k = s.imemByte k := rfl

@[simp] theorem enterException_getX (s : State) (e : Cause) (i : Word) (q : XReg) : (s.enterException e i).getX q = s.getX q := rfl
@[simp] theorem enterException_getV (s : State) (e : Cause) (i : Word) (q : VReg) : (s.enterException e i).getV q = s.getV q := rfl
@[simp] theorem enterException_dmemByte (s : State) (e : Cause) (i : Word) (k : Nat) : (s.enterException e i).dmemByte k = s.dmemByte k := rfl
@[simp] theorem enterException_gridEntry (s : State) (e : Cause) (i : Word) (k : Nat) : (s.enterException e i).gridEntry k = s.gridEntry k := rfl
@[simp] theorem enterException_imemByte (s : State) (e : Cause) (i : Word) (k : Nat) : (s.enterException e i).imemByte k = s.imemByte k := rfl

@[simp] theorem halt_getX (s : State) (q : XReg) : s.halt.getX q = s.getX q := rfl
@[simp] theorem halt_getV (s : State) (q : VReg) : s.halt.getV q = s.getV q := rfl
@[simp] theorem halt_dmemByte (s : State) (k : Nat) : s.halt.dmemByte k = s.dmemByte k := rfl
@[simp] theorem halt_gridEntry (s : State) (k : Nat) : s.halt.gridEntry k = s.gridEntry k := rfl
@[simp] theorem halt_imemByte (s : State) (k : Nat) : s.halt.imemByte k = s.imemByte k := rfl

@[simp] theorem takeAbort_getX (s : State) (q : XReg) : s.takeAbort.getX q = s.getX q := rfl
@[simp] theorem takeAbort_getV (s : State) (q : VReg) : s.takeAbort.getV q = s.getV q := rfl
@[simp] theorem takeAbort_dmemByte (s : State) (k : Nat) : s.takeAbort.dmemByte k = s.dmemByte k := rfl
@[simp] theorem takeAbort_gridEntry (s : State) (k : Nat) : s.takeAbort.gridEntry k = s.gridEntry k := rfl
@[simp] theorem takeAbort_imemByte (s : State) (k : Nat) : s.takeAbort.imemByte k = s.imemByte k := rfl

@[simp] theorem start_getX (s : State) (q : XReg) : s.start.getX q = s.getX q := rfl
@[simp] theorem start_getV (s : State) (q : VReg) : s.start.getV q = s.getV q := rfl
@[simp] theorem start_dmemByte (s : State) (k : Nat) : s.start.dmemByte k = s.dmemByte k := rfl
@[simp] theorem start_gridEntry (s : State) (k : Nat) : s.start.gridEntry k = s.gridEntry k := rfl
@[simp] theorem start_imemByte (s : State) (k : Nat) : s.start.imemByte k = s.imemByte k := rfl

@[simp] theorem setX_getV (s : State) (r : XReg) (u : Word) (q : VReg) : (s.setX r u).getV q = s.getV q := by
  unfold State.setX; split <;> rfl
@[simp] theorem setX_dmemByte (s : State) (r : XReg) (u : Word) (k : Nat) : (s.setX r u).dmemByte k = s.dmemByte k := by
  unfold State.setX; split <;> rfl
@[simp] theorem setX_gridEntry (s : State) (r : XReg) (u : Word) (k : Nat) : (s.setX r u).gridEntry k = s.gridEntry k := by
  unfold State.setX; split <;> rfl
@[simp] theorem setX_imemByte (s : State) (r : XReg) (u : Word) (k : Nat) : (s.setX r u).imemByte k = s.imemByte k := by
  unfold State.setX; split <;> rfl

/-- x0 reads 0 (10_state.md R19). -/
@[simp] theorem getX_zero (s : State) : s.getX 0 = 0 := rfl

/-- A write to x0 is discarded (R19). -/
@[simp] theorem setX_zero (s : State) (u : Word) : s.setX 0 u = s := rfl

theorem getX_setX (s : State) (r q : XReg) (u : Word) :
    (s.setX r u).getX q = if q = r ∧ r ≠ 0 then u else s.getX q := by
  unfold State.setX State.getX
  by_cases hr : r = 0
  · simp [hr]
  · by_cases hq : q = 0
    · have : ¬ q = r := fun h => hr (h ▸ hq)
      simp [hr, hq, Ne.symm hr]
    · simp only [hr, hq, if_false, Vector.getElem_set]
      by_cases h : q = r
      · subst h; simp [hr]
      · have : ¬ r.val = q.val := fun hv => h (Fin.ext hv.symm)
        simp [h, this]

theorem getX_setX_other (s : State) (r q : XReg) (u : Word) (h : q ≠ r) : (s.setX r u).getX q = s.getX q := by
  simp [getX_setX, h]

theorem getV_setV (s : State) (r q : VReg) (u : Wide) :
    (s.setV r u).getV q = if q = r then keep s.cfg.word u else s.getV q := by
  unfold State.setV State.getV
  simp only [Vector.getElem_set]
  by_cases h : q = r
  · subst h; simp
  · have : ¬ r.val = q.val := fun hv => h (Fin.ext hv.symm)
    simp [h, this]

theorem getV_setV_same (s : State) (r : VReg) (u : Wide) : (s.setV r u).getV r = keep s.cfg.word u := by
  simp [getV_setV]

theorem getV_setV_other (s : State) (r q : VReg) (u : Wide) (h : q ≠ r) : (s.setV r u).getV q = s.getV q := by
  simp [getV_setV, h]

/-- A register reads as W bits. -/
@[simp] theorem keep_getV (s : State) (r : VReg) : keep s.cfg.word (s.getV r) = s.getV r := by simp [State.getV]

theorem getLsbD_getV_of_ge (s : State) (r : VReg) (i : Nat) (h : s.cfg.word.bits ≤ i) : (s.getV r).getLsbD i = false := by
  rw [← keep_getV, getLsbD_keep]; simp [Nat.not_lt.2 h]

/-- A byte of a register that an instruction wrote byte by byte. -/
theorem byteAt_setV_ofByteLanes (s : State) (d : VReg) (f : Nat → Byte) (p : Nat) (hp : p < s.cfg.word.bytes) :
    byteAt ((s.setV d (ofByteLanes s.cfg.word f)).advance.getV d) p = f p := by
  rw [advance_getV, getV_setV_same, keep_ofByteLanes, byteAt_ofByteLanes _ _ _ hp]

/-- A qword of a register that an instruction wrote qword by qword. -/
theorem qwordAt_setV_ofQwordLanes (s : State) (d : VReg) (f : Nat → Mat) (q : Nat) (hq : q < s.cfg.word.qwords) :
    qwordAt ((s.setV d (ofQwordLanes s.cfg.word f)).advance.getV d) q = f q := by
  rw [advance_getV, getV_setV_same, keep_ofQwordLanes, qwordAt_ofQwordLanes _ _ _ hq]

@[simp] theorem enterException_done (s : State) (e : Cause) (i : Word) : (s.enterException e i).done = true := rfl

@[simp] theorem halt_done (s : State) : s.halt.done = true := rfl

end Sys2Proof.Machine
end

