-- ==== Sys2Proof/Laws/Frames.lean ====
section
/-! SUPPORT. Everything each shared operation can do: its footprint, the effect on the invariant, and the one inversion lemma of `exec`
from which the rules about all instructions follow. -/

namespace Sys2Proof.Machine

/-! ## Footprints -/

theorem changesOnly_advance (s : State) : ChangesOnly {} s s.advance := by constructor <;> simp

theorem changesOnly_jump (s : State) (p : Word) : ChangesOnly {} s (s.jump p) := by constructor <;> simp

theorem changesOnly_branchIf (s : State) (b : Bool) (imm22 : BitVec 22) : ChangesOnly {} s (s.branchIf b imm22) := by
  unfold State.branchIf; split
  · exact changesOnly_jump _ _
  · exact changesOnly_advance s

theorem changesOnly_setV (s : State) (d : VReg) (u : Wide) :
    ChangesOnly { vec := fun r => r = d } s (s.setV d u).advance := by
  constructor <;> simp +contextual [getV_setV]

theorem changesOnly_setX (s : State) (d : XReg) (u : Word) :
    ChangesOnly { scalar := fun r => r = d } s (s.setX d u).advance := by
  constructor <;> simp +contextual [getX_setX]

theorem changesOnly_setFlag (s : State) (b : Bool) : ChangesOnly { flag := True } s (s.setFlag b).advance := by
  constructor <;> simp

theorem changesOnly_memWrite (s : State) (a n : Nat) (u : Wide) :
    ChangesOnly { dmem := fun k => a ≤ k ∧ k < a + n } s (s.memWrite a n u).advance := by
  constructor <;> simp +contextual [read_writeRange]

theorem changesOnly_writeGrid (s : State) (g n : Nat) (f : Nat → Mat) :
    ChangesOnly { grid := fun k => g ≤ k ∧ k < g + n } s (s.writeGrid g n f).advance := by
  constructor <;> simp +contextual [read_writeRange]

theorem changesOnly_enterException (s : State) (e : Cause) (info : Word) :
    ChangesOnly { control := True } s (s.enterException e info) := by constructor <;> simp

theorem changesOnly_halt (s : State) : ChangesOnly { control := True } s s.halt := by constructor <;> simp

theorem changesOnly_takeAbort (s : State) : ChangesOnly { control := True } s s.takeAbort := by constructor <;> simp

/-- A larger footprint allows more. -/
theorem ChangesOnly.mono {p q : Footprint} {s t : State} (h : ChangesOnly p s t)
    (hv : ∀ r, p.vec r → q.vec r) (hx : ∀ r, p.scalar r → q.scalar r) (hf : p.flag → q.flag)
    (hg : ∀ k, p.grid k → q.grid k) (hd : ∀ k, p.dmem k → q.dmem k) (hr : p.draws → q.draws)
    (hc : p.control → q.control) : ChangesOnly q s t where
  cfg := h.cfg
  vec r hr := h.vec r fun hp => hr (hv r hp)
  scalar r hr := h.scalar r fun hp => hr (hx r hp)
  flag hq := h.flag fun hp => hq (hf hp)
  grid k hk := h.grid k fun hp => hk (hg k hp)
  dmem k hk := h.dmem k fun hp => hk (hd k hp)
  imem := h.imem
  draws hq := h.draws fun hp => hq (hr hp)
  control hq := h.control fun hp => hq (hc hp)
  startPc := h.startPc
  resetAsserted := h.resetAsserted
  host := h.host
  hostReads := h.hostReads

/-! ## Inversion: every next state `exec` can answer -/

/-- The shapes of an instruction's next state, with the facts that tie each to the instruction. -/
inductive Shape (i : Instr) (s : State) : State → Prop where
  | trap (e : Cause) (info : Word) (he : e ≠ .none) : Shape i s (s.enterException e info)
  | halt (h : i = .halt) : Shape i s s.halt
  | jump (k : Word) (h : transfersControl i = true) : Shape i s (s.jump (s.pc + 4 * k))
  | stay (h : i = .nop ∨ transfersControl i = true) : Shape i s s.advance
  | scalar (d : XReg) (u : Word) (h : scalarDest i = some d) : Shape i s (s.setX d u).advance
  | vector (d : VReg) (u : Wide) (h : vectorDest i = some d) : Shape i s (s.setV d u).advance
  | draw (d : VReg) (h : i = .vrand d) : Shape i s (s.drawWide.2.setV d s.drawWide.1).advance
  | flag (b : Bool) (h : ∃ a a', i = .veq a a') : Shape i s (s.setFlag b).advance
  | dmem (addr : Nat) (u : Wide) (hin : addr + s.cfg.word.bytes ≤ s.cfg.dmemBytes) (h : ∃ d a imm, i = .vst d a imm) :
      Shape i s (s.memWrite addr s.cfg.word.bytes u).advance
  | grid (g n : Nat) (f : Nat → Mat) (hin : g + n ≤ s.cfg.gridSize)
      (h : (∃ a g', i = .gwr a g') ∨ ∃ a lgN g', i = .gbuild a lgN g') : Shape i s (s.writeGrid g n f).advance

theorem shape_branchIf {i : Instr} (s : State) (b : Bool) (imm22 : BitVec 22) (h : transfersControl i = true) :
    Shape i s (s.branchIf b imm22) := by
  unfold State.branchIf; split
  · exact .jump _ h
  · exact .stay (.inr h)

/-- Whatever instruction `exec` runs, a next state it answers has one of the shapes. -/
theorem exec_shape {i : Instr} {s t : State} (h : exec i s = .next t) : Shape i s t := by
  cases i with
  | nop => cases h; exact .stay (.inl rfl)
  | halt => cases h; exact .halt rfl
  | j off26 => cases h; exact .jump _ rfl
  | bnez d imm22 => cases h; exact shape_branchIf _ _ _ rfl
  | beqz d imm22 => cases h; exact shape_branchIf _ _ _ rfl
  | bfs imm22 => cases h; exact shape_branchIf _ _ _ rfl
  | bfc imm22 => cases h; exact shape_branchIf _ _ _ rfl
  | li d imm22 => cases h; exact .scalar d _ rfl
  | addi d a imm14 => cases h; exact .scalar d _ rfl
  | csrr d csr =>
    simp only [exec, execCsrr] at h
    split at h <;> cases h
    · exact .scalar d _ rfl
    · exact .trap _ _ (by decide)
  | vld d a imm14 =>
    simp only [exec, execVld] at h
    split at h
    · cases h; exact .trap _ _ (by decide)
    · split at h
      · cases h; exact .trap _ _ (by decide)
      · split at h <;> cases h; exact .vector d _ rfl
  | vst d a imm14 =>
    simp only [exec, execVst] at h
    split at h
    · cases h; exact .trap _ _ (by decide)
    · split at h <;> cases h
      · exact .trap _ _ (by decide)
      · rename_i hin
        exact .dmem _ _ (by simpa [State.inDmem] using hin) ⟨_, _, _, rfl⟩
  | vmvx d a => cases h; exact .vector d _ rfl
  | xmvv d a => cases h; exact .scalar d _ rfl
  | vbcast d a lgs => cases h; exact .vector d _ rfl
  | vand d a b => cases h; exact .vector d _ rfl
  | vor d a b => cases h; exact .vector d _ rfl
  | vxor d a b => cases h; exact .vector d _ rfl
  | vnot d a => cases h; exact .vector d _ rfl
  | vshl d a b => cases h; exact .vector d _ rfl
  | vshr d a b => cases h; exact .vector d _ rfl
  | vshli d a imm14 => cases h; exact .vector d _ rfl
  | vshri d a imm14 => cases h; exact .vector d _ rfl
  | veq a b => cases h; exact .flag _ ⟨_, _, rfl⟩
  | vrand d => cases h; exact .draw d rfl
  | vfill d bit => cases h; exact .vector d _ rfl
  | vfillx d a =>
    simp only [exec, execVfillx] at h
    split at h
    · cases h; exact .vector d _ rfl
    · split at h <;> cases h
      · exact .vector d _ rfl
      · exact .trap _ _ (by decide)
  | vmask d odd lvl =>
    simp only [exec, execVmask] at h
    split at h <;> cases h
    · exact .vector d _ rfl
    · exact .trap _ _ (by decide)
  | vblend d a b lvl =>
    simp only [exec, execVblend] at h
    split at h <;> cases h
    · exact .vector d _ rfl
    · exact .trap _ _ (by decide)
  | toaes d a => cases h; exact .vector d _ rfl
  | fromaes d a => cases h; exact .vector d _ rfl
  | gfmul d a b => cases h; exact .vector d _ rfl
  | gfaff d a b => cases h; exact .vector d _ rfl
  | gfaffinv d a b => cases h; exact .vector d _ rfl
  | tmul d a b => cases h; exact .vector d _ rfl
  | tinv d a => cases h; exact .vector d _ rfl
  | mprep d a => cases h; exact .vector d _ rfl
  | affg d a g =>
    simp only [exec, execAffg] at h
    split at h
    · cases h; exact .trap _ _ (by decide)
    · split at h <;> cases h; exact .vector d _ rfl
  | gwr a g =>
    simp only [exec, execGwr] at h
    split at h <;> cases h
    · exact .trap _ _ (by decide)
    · rename_i hin
      exact .grid _ _ _ (by simpa [State.inGrid] using hin) (.inl ⟨_, _, rfl⟩)
  | grd d g =>
    simp only [exec, execGrd] at h
    split at h
    · cases h; exact .trap _ _ (by decide)
    · split at h <;> cases h; exact .vector d _ rfl
  | gbuild a lgN g =>
    simp only [exec, execGbuild] at h
    split at h
    · cases h; exact .trap _ _ (by decide)
    · split at h
      · cases h; exact .trap _ _ (by decide)
      · rename_i hin
        split at h
        · cases h; exact .trap _ _ (by decide)
        · split at h <;> cases h
          exact .grid _ _ _ (by simpa [State.inGrid] using hin) (.inr ⟨_, _, _, rfl⟩)
  | xform d a lgN g =>
    simp only [exec, execXform] at h
    split at h
    · cases h; exact .trap _ _ (by decide)
    · split at h
      · cases h; exact .trap _ _ (by decide)
      · split at h <;> cases h; exact .vector d _ rfl

end Sys2Proof.Machine
end

