-- ==== Sys2Proof/Laws/Step.lean ====
section
/-! SUPPORT. Inversion of the step: the moves it can be, and what the tile's step can answer. -/

namespace Sys2Proof.Machine

/-- The tile's step, case by case (40_control_scalar.md R80). -/
theorem tileStep_cases {s t : State} (h : tileStep s = .next t) :
    ((s.resetAsserted = true ∨ s.run ≠ .running) ∧ t = s) ∨
    (s.resetAsserted = false ∧ s.run = .running ∧ s.abortLatch = true ∧ t = s.takeAbort) ∨
    (s.Fetching ∧ ((∃ e info, e ≠ .none ∧ t = s.enterException e info) ∨ ∃ i, exec i s = .next t)) := by
  unfold tileStep at h
  split at h
  · rename_i ha; cases h; exact .inl ⟨.inl ha, rfl⟩
  · rename_i ha
    have ha : s.resetAsserted = false := by simpa using ha
    split at h
    · rename_i hr
      split at h
      · rename_i hl; cases h; exact .inr (.inl ⟨ha, hr, hl, rfl⟩)
      · rename_i hl
        refine .inr (.inr ⟨⟨ha, hr, by simpa using hl⟩, ?_⟩)
        unfold fetchAndRun at h
        split at h
        · cases h; exact .inl ⟨_, _, by decide, rfl⟩
        · split at h
          · cases h
          · unfold runWord at h
            split at h
            · exact .inr ⟨_, h⟩
            · cases h; exact .inl ⟨_, _, by decide, rfl⟩
    · rename_i hr; cases h; exact .inl ⟨.inr hr, rfl⟩

/-- At a boundary where the tile moves, the step is the tile's (log 8). -/
theorem step_of_tileMoves {s u : State} (h : s.TileMoves u) : step s = tileStep u := by
  rcases h with ⟨hs, rfl⟩ | ⟨rest, hs, rfl⟩ <;> simp [step, nextMove, hs]

/-- Out of reset, RUNNING and with no abort requested, the tile's step is the fetch. -/
theorem tileStep_of_fetching {u : State} (h : u.Fetching) : tileStep u = fetchAndRun u := by
  simp [tileStep, h.1, h.2.1, h.2.2]

/-- The step, move by move (log 8). -/
theorem step_cases {s t : State} (h : step s = .next t) :
    (∃ u, s.TileMoves u ∧ tileStep u = .next t) ∨
    (∃ index value rest, s.host = .write index value :: rest ∧ t = State.hostWrite { s with host := rest } index value) ∨
    (∃ index rest, s.host = .read index :: rest ∧ t = State.answerRead { s with host := rest } index) ∨
    (∃ rest, s.host = .assertReset :: rest ∧ t = State.assertReset { s with host := rest }) ∨
    (∃ rest, s.host = .releaseReset :: rest ∧ t = State.releaseReset { s with host := rest }) := by
  simp only [step, nextMove] at h
  split at h
  · rename_i hs; exact .inl ⟨s, .inl ⟨hs, rfl⟩, h⟩
  · rename_i rest hs; exact .inl ⟨_, .inr ⟨rest, hs, rfl⟩, h⟩
  · rename_i index value rest hs; cases h; exact .inr (.inl ⟨index, value, rest, hs, rfl⟩)
  · rename_i index rest hs; cases h; exact .inr (.inr (.inl ⟨index, rest, hs, rfl⟩))
  · rename_i rest hs; cases h; exact .inr (.inr (.inr (.inl ⟨rest, hs, rfl⟩)))
  · rename_i rest hs; cases h; exact .inr (.inr (.inr (.inr ⟨rest, hs, rfl⟩)))

/-- A window offset of IMEM or DMEM is a whole word inside the memory (60_exceptions.md R225). -/
theorem windowPlace_imem {c : Config} {index : BitVec 22} {off : Nat} (h : windowPlace c index = .imem off) :
    4 * index.toNat = 0x400000 + off ∧ off + 4 ≤ c.imemBytes := by
  have hp : c.imemBytes = 4 * 2 ^ (10 + c.imemSel.val) := by
    rw [Config.imemBytes, Config.imemLog, show 12 + c.imemSel.val = 2 + (10 + c.imemSel.val) by omega, Nat.pow_add]
  simp only [windowPlace] at h
  split at h
  · cases h
  · split at h
    · injection h with h; omega
    · split at h <;> cases h

theorem windowPlace_dmem {c : Config} {index : BitVec 22} {off : Nat} (h : windowPlace c index = .dmem off) :
    4 * index.toNat = 0x800000 + off ∧ off + 4 ≤ c.dmemBytes := by
  have hp : c.dmemBytes = 4 * 2 ^ (10 + c.dmemSel.val) := by
    rw [Config.dmemBytes, Config.dmemLog, show 12 + c.dmemSel.val = 2 + (10 + c.dmemSel.val) by omega, Nat.pow_add]
  simp only [windowPlace] at h
  split at h
  · cases h
  · split at h
    · cases h
    · split at h
      · injection h with h; omega
      · cases h

end Sys2Proof.Machine
end

