-- ==== Sys2Proof/Laws/Host.lean ====
section
/-! SUPPORT. What the host's moves leave alone, and the word they read back. -/

namespace Sys2Proof.Machine

/-- The parts of the state no host write reaches. -/
structure HostKeeps (s t : State) : Prop where
  cfg : t.cfg = s.cfg
  v : t.v = s.v
  x : t.x = s.x
  flag : t.flag = s.flag
  grid : t.grid = s.grid
  draws : t.draws = s.draws
  resetAsserted : t.resetAsserted = s.resetAsserted
  host : t.host = s.host
  hostReads : t.hostReads = s.hostReads

theorem HostKeeps.refl (s : State) : HostKeeps s s := ⟨rfl, rfl, rfl, rfl, rfl, rfl, rfl, rfl, rfl⟩

theorem HostKeeps.trans {s t u : State} (h : HostKeeps s t) (h' : HostKeeps t u) : HostKeeps s u :=
  ⟨h'.cfg.trans h.cfg, h'.v.trans h.v, h'.x.trans h.x, h'.flag.trans h.flag, h'.grid.trans h.grid, h'.draws.trans h.draws, h'.resetAsserted.trans h.resetAsserted,
    h'.host.trans h.host, h'.hostReads.trans h.hostReads⟩

/-- A CTRL write changes only the pc and the control and status registers (10_state.md R27). -/
structure CtrlKeeps (s t : State) : Prop extends HostKeeps s t where
  imem : t.imem = s.imem
  dmem : t.dmem = s.dmem
  startPc : t.startPc = s.startPc

theorem CtrlKeeps.refl (s : State) : CtrlKeeps s s := ⟨.refl s, rfl, rfl, rfl⟩

theorem CtrlKeeps.trans {s t u : State} (h : CtrlKeeps s t) (h' : CtrlKeeps t u) : CtrlKeeps s u :=
  ⟨h.toHostKeeps.trans h'.toHostKeeps, h'.imem.trans h.imem, h'.dmem.trans h.dmem, h'.startPc.trans h.startPc⟩

theorem ctrlAbort_keeps (s : State) (b : Bool) : CtrlKeeps s (s.ctrlAbort b) := by
  unfold State.ctrlAbort; split
  · split <;> exact ⟨⟨rfl, rfl, rfl, rfl, rfl, rfl, rfl, rfl, rfl⟩, rfl, rfl, rfl⟩
  · exact .refl s

theorem ctrlAck_keeps (s : State) : CtrlKeeps s s.ctrlAck := by
  unfold State.ctrlAck; split <;> exact ⟨⟨rfl, rfl, rfl, rfl, rfl, rfl, rfl, rfl, rfl⟩, rfl, rfl, rfl⟩

theorem ctrlStart_keeps (s : State) : CtrlKeeps s s.ctrlStart := by
  unfold State.ctrlStart; split <;> exact ⟨⟨rfl, rfl, rfl, rfl, rfl, rfl, rfl, rfl, rfl⟩, rfl, rfl, rfl⟩

theorem writeCtrl_keeps (s : State) (value : Word) : CtrlKeeps s (s.writeCtrl value) := by
  unfold State.writeCtrl
  cases value.getLsbD 0 <;> cases value.getLsbD 1 <;> cases value.getLsbD 2 <;>
    simp only [if_true, if_false, Bool.false_eq_true]
  all_goals first
    | exact .refl s
    | exact ctrlAck_keeps _
    | exact ctrlAbort_keeps _ _
    | exact ctrlStart_keeps _
    | exact (ctrlAbort_keeps _ _).trans (ctrlAck_keeps _)
    | exact (ctrlAck_keeps _).trans (ctrlStart_keeps _)
    | exact (ctrlAbort_keeps _ _).trans (ctrlStart_keeps _)
    | exact ((ctrlAbort_keeps _ _).trans (ctrlAck_keeps _)).trans (ctrlStart_keeps _)

/-- A host write of any word of the window. -/
theorem hostWrite_keeps (s : State) (index : BitVec 22) (value : Word) : HostKeeps s (s.hostWrite index value) := by
  unfold State.hostWrite
  split
  · exact .refl s
  split
  · split
    · exact (writeCtrl_keeps s value).toHostKeeps
    · split
      · unfold State.writeStartPc; split <;> exact ⟨rfl, rfl, rfl, rfl, rfl, rfl, rfl, rfl, rfl⟩
      · exact .refl s
  · unfold State.hostWriteImem; split <;> exact ⟨rfl, rfl, rfl, rfl, rfl, rfl, rfl, rfl, rfl⟩
  · unfold State.hostWriteDmem; split <;> exact ⟨rfl, rfl, rfl, rfl, rfl, rfl, rfl, rfl, rfl⟩
  · exact .refl s

/-- While reset is asserted a host write is ignored (70_reset_and_hazards.md R240). -/
theorem hostWrite_in_reset {s : State} (h : s.resetAsserted = true) (index : BitVec 22) (value : Word) :
    s.hostWrite index value = s := if_pos h

/-- Out of reset a host write goes where its index says. -/
theorem hostWrite_out_of_reset {s : State} (h : s.resetAsserted = false) (index : BitVec 22) (value : Word) :
    s.hostWrite index value = match windowPlace s.cfg index with
      | .register off => if off = 0x000 then s.writeCtrl value else if off = 0x014 then s.writeStartPc value else s
      | .imem off => s.hostWriteImem off value
      | .dmem off => s.hostWriteDmem off value
      | .reserved => s := if_neg (by simp [h])

/-- Out of reset a host read reads where its index says. -/
theorem hostRead_out_of_reset {s : State} (h : s.resetAsserted = false) (index : BitVec 22) :
    s.hostRead index = match windowPlace s.cfg index with
      | .register off => (s.readRegister off, s)
      | .imem off => s.hostReadMemory s.imem off
      | .dmem off => s.hostReadMemory s.dmem off
      | .reserved => (0, s) := if_neg (by simp [h])

/-- A host read changes only the model's own counters and answers. -/
theorem answerRead_eq (s : State) (index : BitVec 22) :
    ∃ draws u, s.answerRead index = { s with draws := draws, hostReads := u :: s.hostReads } := by
  unfold State.answerRead
  rcases Bool.eq_false_or_eq_true s.resetAsserted with h | h
  · rw [State.hostRead, if_pos h]; exact ⟨_, _, rfl⟩
  · rw [hostRead_out_of_reset h]; cases windowPlace s.cfg index <;> exact ⟨_, _, rfl⟩

/-- The word the host wrote to a memory is the word it reads (60_exceptions.md R226). -/
theorem hostWord_writeRange (m : List Host.Cell) (off : Nat) (value u : Word) :
    hostWord (Memory.writeRange m off (byteAt value) 4) off u = value := by
  rw [hostWord, ofLanes_congr 8 _ (byteAt value) 4 fun k hk => by rw [read_writeRange_inside _ _ _ _ _ hk]; rfl]
  exact ofLanes_laneAt 8 (by decide) value 4 fun b hb => BitVec.getLsbD_of_ge _ _ (by omega)

end Sys2Proof.Machine
end

