-- ==== Sys2Proof/Laws/Operands.lean ====
section
/-! SUPPORT. What the operand forms of Machine/Operands.lean compute, in signed and unsigned numbers, and what the value
conditions of an instruction give its meaning. -/

namespace Sys2Proof.Machine

theorem add_offset (x : Word) (imm14 : BitVec 14) : x + offset imm14 = BitVec.ofInt 32 (x.toNat + imm14.toInt) := by
  rw [BitVec.ofInt_add, BitVec.ofInt_natCast, BitVec.ofNat_toNat, BitVec.setWidth_eq]; rfl

theorem effectiveAddress_eq (s : State) (a : XReg) (imm14 : BitVec 14) :
    s.effectiveAddress a imm14 = BitVec.ofInt 32 ((s.getX a).toNat + imm14.toInt) := add_offset _ _

theorem jumpTarget_eq (s : State) (off26 : BitVec 26) : s.jumpTarget off26 = s.pc + BitVec.ofInt 32 (4 * off26.toInt) := by
  rw [BitVec.ofInt_mul]; rfl

theorem branchTarget_eq (s : State) (imm22 : BitVec 22) :
    s.branchTarget imm22 = s.pc + BitVec.ofInt 32 (4 * imm22.toInt) := by
  rw [BitVec.ofInt_mul]; rfl

theorem branchIf_pc (s : State) (taken : Bool) (imm22 : BitVec 22) :
    (s.branchIf taken imm22).pc = if taken = true then s.pc + BitVec.ofInt 32 (4 * imm22.toInt) else s.pc + 4 := by
  rw [← branchTarget_eq]; unfold State.branchIf; split <;> rfl

/-- An out-of-range pc faults at the fetch, whatever instruction left it (40_control_scalar.md R83). -/
theorem faultsAtFetch (t : State) : FaultsAtFetch t := by
  intro u hu hf hp
  rw [step_of_tileMoves hu, tileStep_of_fetching hf, fetchAndRun, if_pos hp]; rfl

/-- A multiple of four added to an aligned pc keeps it aligned (10_state.md R20). -/
theorem aligned_add (p k : Word) (h : p.toNat % 4 = 0) : (p + 4 * k).toNat % 4 = 0 := by
  rw [BitVec.toNat_add, BitVec.toNat_mul]; simp; omega

/-- The fetch of a written word runs what it decodes to (R80). -/
theorem tileStep_of_fetch (s : State) (hf : s.Fetching) (hp : s.pc.toNat < s.cfg.imemBytes)
    (hw : Memory.written s.imem s.pc.toNat 4 = true) : tileStep s = runWord (s.imemWord s.pc.toNat) s := by
  rw [tileStep_of_fetching hf, fetchAndRun, if_neg (Nat.not_le.2 hp), if_neg (by simp [hw])]

end Sys2Proof.Machine
end

