-- ==== Sys2Proof/Laws/PerInstr.lean ====
section
/-! SUPPORT. One lemma per instruction: its encoding is a word of its own row of the opcode table (spec 30_encoding.md R65, R66, R68). -/

namespace Sys2Proof.Laws.TableRow
open Sys2Proof

/-- The encoding of `i` is a word of the row with `i`'s mnemonic. -/
def Statement (i : Instr) : Prop := ∃ r ∈ opcodeTable, r.mnemonic = i.mnemonic ∧ r.hits (encode i) = true

theorem nop : Statement (.nop) := by
  refine ⟨⟨"NOP", 0xFFFFFFFF, 0x04000000⟩, by decide, rfl, ?_⟩
  rw [TableRow.hits, beq_iff_eq, encode, show (0xFFFFFFFF : Word) = packJump 0x3f 0x3ffffff from rfl, packJump_and]
  simp; rfl

theorem halt : Statement (.halt) := by
  refine ⟨⟨"HALT", 0xFFFFFFFF, 0x08000000⟩, by decide, rfl, ?_⟩
  rw [TableRow.hits, beq_iff_eq, encode, show (0xFFFFFFFF : Word) = packJump 0x3f 0x3ffffff from rfl, packJump_and]
  simp; rfl

theorem j (off26 : BitVec 26) : Statement (.j off26) := by
  refine ⟨⟨"J", 0xFC000000, 0x0C000000⟩, by decide, rfl, ?_⟩
  rw [TableRow.hits, beq_iff_eq, encode, show (0xFC000000 : Word) = packJump 0x3f 0x0 from rfl, packJump_and]
  simp; rfl

theorem bnez (d : XReg) (imm22 : BitVec 22) : Statement (.bnez d imm22) := by
  refine ⟨⟨"BNEZ", 0xFC000000, 0x10000000⟩, by decide, rfl, ?_⟩
  rw [TableRow.hits, beq_iff_eq, encode, show (0xFC000000 : Word) = packBranch 0x3f 0x0 0x0 from rfl, packBranch_and]
  simp; rfl

theorem beqz (d : XReg) (imm22 : BitVec 22) : Statement (.beqz d imm22) := by
  refine ⟨⟨"BEQZ", 0xFC000000, 0x14000000⟩, by decide, rfl, ?_⟩
  rw [TableRow.hits, beq_iff_eq, encode, show (0xFC000000 : Word) = packBranch 0x3f 0x0 0x0 from rfl, packBranch_and]
  simp; rfl

theorem bfs (imm22 : BitVec 22) : Statement (.bfs imm22) := by
  refine ⟨⟨"BFS", 0xFFC00000, 0x18000000⟩, by decide, rfl, ?_⟩
  rw [TableRow.hits, beq_iff_eq, encode, show (0xFFC00000 : Word) = packBranch 0x3f 0xf 0x0 from rfl, packBranch_and]
  simp; rfl

theorem bfc (imm22 : BitVec 22) : Statement (.bfc imm22) := by
  refine ⟨⟨"BFC", 0xFFC00000, 0x1C000000⟩, by decide, rfl, ?_⟩
  rw [TableRow.hits, beq_iff_eq, encode, show (0xFFC00000 : Word) = packBranch 0x3f 0xf 0x0 from rfl, packBranch_and]
  simp; rfl

theorem li (d : XReg) (imm22 : BitVec 22) : Statement (.li d imm22) := by
  refine ⟨⟨"LI", 0xFC000000, 0x20000000⟩, by decide, rfl, ?_⟩
  rw [TableRow.hits, beq_iff_eq, encode, show (0xFC000000 : Word) = packBranch 0x3f 0x0 0x0 from rfl, packBranch_and]
  simp; rfl

theorem addi (d a : XReg) (imm14 : BitVec 14) : Statement (.addi d a imm14) := by
  refine ⟨⟨"ADDI", 0xFC03C000, 0x24000000⟩, by decide, rfl, ?_⟩
  rw [TableRow.hits, beq_iff_eq, encode, show (0xFC03C000 : Word) = pack 0x3f 0x0 0x0 0xf 0x0 from rfl, pack_and]
  simp; rfl

theorem csrr (d : XReg) (csr : BitVec 14) : Statement (.csrr d csr) := by
  refine ⟨⟨"CSRR", 0xFC3FC000, 0x28000000⟩, by decide, rfl, ?_⟩
  rw [TableRow.hits, beq_iff_eq, encode, show (0xFC3FC000 : Word) = pack 0x3f 0x0 0xf 0xf 0x0 from rfl, pack_and]
  simp; rfl

theorem vld (d : VReg) (a : XReg) (imm14 : BitVec 14) : Statement (.vld d a imm14) := by
  refine ⟨⟨"VLD", 0xFC03C000, 0x40000000⟩, by decide, rfl, ?_⟩
  rw [TableRow.hits, beq_iff_eq, encode, show (0xFC03C000 : Word) = pack 0x3f 0x0 0x0 0xf 0x0 from rfl, pack_and]
  simp; rfl

theorem vst (d : VReg) (a : XReg) (imm14 : BitVec 14) : Statement (.vst d a imm14) := by
  refine ⟨⟨"VST", 0xFC03C000, 0x44000000⟩, by decide, rfl, ?_⟩
  rw [TableRow.hits, beq_iff_eq, encode, show (0xFC03C000 : Word) = pack 0x3f 0x0 0x0 0xf 0x0 from rfl, pack_and]
  simp; rfl

theorem vmvx (d : VReg) (a : XReg) : Statement (.vmvx d a) := by
  refine ⟨⟨"VMVX", 0xFC03FFFF, 0x48000000⟩, by decide, rfl, ?_⟩
  rw [TableRow.hits, beq_iff_eq, encode, show (0xFC03FFFF : Word) = pack 0x3f 0x0 0x0 0xf 0x3fff from rfl, pack_and]
  simp; rfl

theorem xmvv (d : XReg) (a : VReg) : Statement (.xmvv d a) := by
  refine ⟨⟨"XMVV", 0xFC03FFFF, 0x4C000000⟩, by decide, rfl, ?_⟩
  rw [TableRow.hits, beq_iff_eq, encode, show (0xFC03FFFF : Word) = pack 0x3f 0x0 0x0 0xf 0x3fff from rfl, pack_and]
  simp; rfl

theorem vbcast (d a : VReg) (lgs : BitVec 3) : Statement (.vbcast d a lgs) := by
  refine ⟨⟨"VBCAST", 0xFC03FFF8, 0x50000000⟩, by decide, rfl, ?_⟩
  rw [TableRow.hits, beq_iff_eq, encode, show (0xFC03FFF8 : Word) = pack 0x3f 0x0 0x0 0xf 0x3ff8 from rfl, pack_and]
  rw [show (0x3ff8 : BitVec 14) = BitVec.allOnes 11 ++ 0#3 from rfl, show (0#11 ++ lgs &&& BitVec.allOnes 11 ++ 0#3) = 0#14 from zero_append_and _]
  simp; rfl

theorem vand (d a b : VReg) : Statement (.vand d a b) := by
  refine ⟨⟨"VAND", 0xFC003FFF, 0x80000000⟩, by decide, rfl, ?_⟩
  rw [TableRow.hits, beq_iff_eq, encode, show (0xFC003FFF : Word) = pack 0x3f 0x0 0x0 0x0 0x3fff from rfl, pack_and]
  simp; rfl

theorem vor (d a b : VReg) : Statement (.vor d a b) := by
  refine ⟨⟨"VOR", 0xFC003FFF, 0x84000000⟩, by decide, rfl, ?_⟩
  rw [TableRow.hits, beq_iff_eq, encode, show (0xFC003FFF : Word) = pack 0x3f 0x0 0x0 0x0 0x3fff from rfl, pack_and]
  simp; rfl

theorem vxor (d a b : VReg) : Statement (.vxor d a b) := by
  refine ⟨⟨"VXOR", 0xFC003FFF, 0x88000000⟩, by decide, rfl, ?_⟩
  rw [TableRow.hits, beq_iff_eq, encode, show (0xFC003FFF : Word) = pack 0x3f 0x0 0x0 0x0 0x3fff from rfl, pack_and]
  simp; rfl

theorem vnot (d a : VReg) : Statement (.vnot d a) := by
  refine ⟨⟨"VNOT", 0xFC03FFFF, 0x8C000000⟩, by decide, rfl, ?_⟩
  rw [TableRow.hits, beq_iff_eq, encode, show (0xFC03FFFF : Word) = pack 0x3f 0x0 0x0 0xf 0x3fff from rfl, pack_and]
  simp; rfl

theorem vshl (d a : VReg) (b : XReg) : Statement (.vshl d a b) := by
  refine ⟨⟨"VSHL", 0xFC003FFF, 0x90000000⟩, by decide, rfl, ?_⟩
  rw [TableRow.hits, beq_iff_eq, encode, show (0xFC003FFF : Word) = pack 0x3f 0x0 0x0 0x0 0x3fff from rfl, pack_and]
  simp; rfl

theorem vshr (d a : VReg) (b : XReg) : Statement (.vshr d a b) := by
  refine ⟨⟨"VSHR", 0xFC003FFF, 0x94000000⟩, by decide, rfl, ?_⟩
  rw [TableRow.hits, beq_iff_eq, encode, show (0xFC003FFF : Word) = pack 0x3f 0x0 0x0 0x0 0x3fff from rfl, pack_and]
  simp; rfl

theorem vshli (d a : VReg) (imm14 : BitVec 14) : Statement (.vshli d a imm14) := by
  refine ⟨⟨"VSHLI", 0xFC03C000, 0x98000000⟩, by decide, rfl, ?_⟩
  rw [TableRow.hits, beq_iff_eq, encode, show (0xFC03C000 : Word) = pack 0x3f 0x0 0x0 0xf 0x0 from rfl, pack_and]
  simp; rfl

theorem vshri (d a : VReg) (imm14 : BitVec 14) : Statement (.vshri d a imm14) := by
  refine ⟨⟨"VSHRI", 0xFC03C000, 0x9C000000⟩, by decide, rfl, ?_⟩
  rw [TableRow.hits, beq_iff_eq, encode, show (0xFC03C000 : Word) = pack 0x3f 0x0 0x0 0xf 0x0 from rfl, pack_and]
  simp; rfl

theorem veq (a b : VReg) : Statement (.veq a b) := by
  refine ⟨⟨"VEQ", 0xFFC03FFF, 0xA0000000⟩, by decide, rfl, ?_⟩
  rw [TableRow.hits, beq_iff_eq, encode, show (0xFFC03FFF : Word) = pack 0x3f 0xf 0x0 0x0 0x3fff from rfl, pack_and]
  simp; rfl

theorem vrand (d : VReg) : Statement (.vrand d) := by
  refine ⟨⟨"VRAND", 0xFC3FFFFF, 0xA4000000⟩, by decide, rfl, ?_⟩
  rw [TableRow.hits, beq_iff_eq, encode, show (0xFC3FFFFF : Word) = pack 0x3f 0x0 0xf 0xf 0x3fff from rfl, pack_and]
  simp; rfl

theorem vfill (d : VReg) (bit : Bool) : Statement (.vfill d bit) := by
  refine ⟨⟨"VFILL", 0xFC3FFFFE, 0xA8000000⟩, by decide, rfl, ?_⟩
  rw [TableRow.hits, beq_iff_eq, encode, show (0xFC3FFFFE : Word) = pack 0x3f 0x0 0xf 0xf 0x3ffe from rfl, pack_and]
  rw [show (0x3ffe : BitVec 14) = BitVec.allOnes 13 ++ 0#1 from rfl, show (0#13 ++ (BitVec.ofBool bit) &&& BitVec.allOnes 13 ++ 0#1) = 0#14 from zero_append_and _]
  simp; rfl

theorem vfillx (d : VReg) (a : XReg) : Statement (.vfillx d a) := by
  refine ⟨⟨"VFILLX", 0xFC03FFFF, 0xAC000000⟩, by decide, rfl, ?_⟩
  rw [TableRow.hits, beq_iff_eq, encode, show (0xFC03FFFF : Word) = pack 0x3f 0x0 0x0 0xf 0x3fff from rfl, pack_and]
  simp; rfl

theorem vmask (d : VReg) (odd : Bool) (lvl : BitVec 4) : Statement (.vmask d odd lvl) := by
  refine ⟨⟨"VMASK", 0xFC3FFFE0, 0xB0000000⟩, by decide, rfl, ?_⟩
  rw [TableRow.hits, beq_iff_eq, encode, show (0xFC3FFFE0 : Word) = pack 0x3f 0x0 0xf 0xf 0x3fe0 from rfl, pack_and]
  have h : (0#9 ++ BitVec.ofBool odd ++ lvl &&& (0x3fe0 : BitVec 14)) = 0#14 := by cases odd <;> revert lvl <;> decide
  rw [h]
  simp; rfl

theorem vblend (d a b : VReg) (lvl : BitVec 4) : Statement (.vblend d a b lvl) := by
  refine ⟨⟨"VBLEND", 0xFC003FF0, 0xB4000000⟩, by decide, rfl, ?_⟩
  rw [TableRow.hits, beq_iff_eq, encode, show (0xFC003FF0 : Word) = pack 0x3f 0x0 0x0 0x0 0x3ff0 from rfl, pack_and]
  rw [show (0x3ff0 : BitVec 14) = BitVec.allOnes 10 ++ 0#4 from rfl, show (0#10 ++ lvl &&& BitVec.allOnes 10 ++ 0#4) = 0#14 from zero_append_and _]
  simp; rfl

theorem toaes (d a : VReg) : Statement (.toaes d a) := by
  refine ⟨⟨"TOAES", 0xFC03FFFF, 0xC0000000⟩, by decide, rfl, ?_⟩
  rw [TableRow.hits, beq_iff_eq, encode, show (0xFC03FFFF : Word) = pack 0x3f 0x0 0x0 0xf 0x3fff from rfl, pack_and]
  simp; rfl

theorem fromaes (d a : VReg) : Statement (.fromaes d a) := by
  refine ⟨⟨"FROMAES", 0xFC03FFFF, 0xC4000000⟩, by decide, rfl, ?_⟩
  rw [TableRow.hits, beq_iff_eq, encode, show (0xFC03FFFF : Word) = pack 0x3f 0x0 0x0 0xf 0x3fff from rfl, pack_and]
  simp; rfl

theorem gfmul (d a b : VReg) : Statement (.gfmul d a b) := by
  refine ⟨⟨"GFMUL", 0xFC003FFF, 0xC8000000⟩, by decide, rfl, ?_⟩
  rw [TableRow.hits, beq_iff_eq, encode, show (0xFC003FFF : Word) = pack 0x3f 0x0 0x0 0x0 0x3fff from rfl, pack_and]
  simp; rfl

theorem gfaff (d a b : VReg) : Statement (.gfaff d a b) := by
  refine ⟨⟨"GFAFF", 0xFC003FFF, 0xCC000000⟩, by decide, rfl, ?_⟩
  rw [TableRow.hits, beq_iff_eq, encode, show (0xFC003FFF : Word) = pack 0x3f 0x0 0x0 0x0 0x3fff from rfl, pack_and]
  simp; rfl

theorem gfaffinv (d a b : VReg) : Statement (.gfaffinv d a b) := by
  refine ⟨⟨"GFAFFINV", 0xFC003FFF, 0xD0000000⟩, by decide, rfl, ?_⟩
  rw [TableRow.hits, beq_iff_eq, encode, show (0xFC003FFF : Word) = pack 0x3f 0x0 0x0 0x0 0x3fff from rfl, pack_and]
  simp; rfl

theorem tmul (d a b : VReg) : Statement (.tmul d a b) := by
  refine ⟨⟨"TMUL", 0xFC003FFF, 0xD4000000⟩, by decide, rfl, ?_⟩
  rw [TableRow.hits, beq_iff_eq, encode, show (0xFC003FFF : Word) = pack 0x3f 0x0 0x0 0x0 0x3fff from rfl, pack_and]
  simp; rfl

theorem tinv (d a : VReg) : Statement (.tinv d a) := by
  refine ⟨⟨"TINV", 0xFC03FFFF, 0xD8000000⟩, by decide, rfl, ?_⟩
  rw [TableRow.hits, beq_iff_eq, encode, show (0xFC03FFFF : Word) = pack 0x3f 0x0 0x0 0xf 0x3fff from rfl, pack_and]
  simp; rfl

theorem mprep (d a : VReg) : Statement (.mprep d a) := by
  refine ⟨⟨"MPREP", 0xFC03FFFF, 0xDC000000⟩, by decide, rfl, ?_⟩
  rw [TableRow.hits, beq_iff_eq, encode, show (0xFC03FFFF : Word) = pack 0x3f 0x0 0x0 0xf 0x3fff from rfl, pack_and]
  simp; rfl

theorem affg (d a : VReg) (g : BitVec 11) : Statement (.affg d a g) := by
  refine ⟨⟨"AFFG", 0xFC03F800, 0xE0000000⟩, by decide, rfl, ?_⟩
  rw [TableRow.hits, beq_iff_eq, encode, show (0xFC03F800 : Word) = pack 0x3f 0x0 0x0 0xf 0x3800 from rfl, pack_and]
  rw [show (0x3800 : BitVec 14) = BitVec.allOnes 3 ++ 0#11 from rfl, show (0#3 ++ g &&& BitVec.allOnes 3 ++ 0#11) = 0#14 from zero_append_and _]
  simp; rfl

theorem gwr (a : VReg) (g : BitVec 11) : Statement (.gwr a g) := by
  refine ⟨⟨"GWR", 0xFFC3F800, 0xE4000000⟩, by decide, rfl, ?_⟩
  rw [TableRow.hits, beq_iff_eq, encode, show (0xFFC3F800 : Word) = pack 0x3f 0xf 0x0 0xf 0x3800 from rfl, pack_and]
  rw [show (0x3800 : BitVec 14) = BitVec.allOnes 3 ++ 0#11 from rfl, show (0#3 ++ g &&& BitVec.allOnes 3 ++ 0#11) = 0#14 from zero_append_and _]
  simp; rfl

theorem grd (d : VReg) (g : BitVec 11) : Statement (.grd d g) := by
  refine ⟨⟨"GRD", 0xFC3FF800, 0xE8000000⟩, by decide, rfl, ?_⟩
  rw [TableRow.hits, beq_iff_eq, encode, show (0xFC3FF800 : Word) = pack 0x3f 0x0 0xf 0xf 0x3800 from rfl, pack_and]
  rw [show (0x3800 : BitVec 14) = BitVec.allOnes 3 ++ 0#11 from rfl, show (0#3 ++ g &&& BitVec.allOnes 3 ++ 0#11) = 0#14 from zero_append_and _]
  simp; rfl

theorem gbuild (a : XReg) (lgN : BitVec 3) (g : BitVec 11) : Statement (.gbuild a lgN g) := by
  refine ⟨⟨"GBUILD", 0xFFC3C000, 0xEC000000⟩, by decide, rfl, ?_⟩
  rw [TableRow.hits, beq_iff_eq, encode, show (0xFFC3C000 : Word) = pack 0x3f 0xf 0x0 0xf 0x0 from rfl, pack_and]
  simp; rfl

theorem xform (d a : VReg) (lgN : BitVec 3) (g : BitVec 11) : Statement (.xform d a lgN g) := by
  refine ⟨⟨"XFORM", 0xFC03C000, 0xF0000000⟩, by decide, rfl, ?_⟩
  rw [TableRow.hits, beq_iff_eq, encode, show (0xFC03C000 : Word) = pack 0x3f 0x0 0x0 0xf 0x0 from rfl, pack_and]
  simp; rfl

end Sys2Proof.Laws.TableRow
end

