-- ==== Sys2Proof/Tests/Slice0.lean ====
section
/-! SUPPORT. The model's own tests. Expected values are those of spec/95_test_vectors.md (L2 and L3 vectors), of the worked examples of
the rules, or words written out from spec/30_encoding.md. The last part shows, for each statement with hypotheses, a state and
operands that meet them. -/

set_option Elab.async false

namespace Sys2Proof.Tests

open Sys2Proof.Machine

/-! ## Small states -/

/-- The tile of 95_test_vectors.md, with row 0. -/
def tile : Config := { word := .w128, gridSel := 0, imemSel := 0, dmemSel := 4, row := 0, hwid := 0xC0DE }

/-- That tile right after a START at 0. -/
def s0 : State := { State.resetWith tile with run := .running }

def s256 : State := { State.resetWith { tile with word := .w256 } with run := .running }

/-- `v0x` of 95_test_vectors.md. -/
def v0x : Wide := 0x0F0E0D0C0B0A09080706050403020100

def ones : Wide := 0xFFFFFFFFFFFFFFFFFFFFFFFFFFFFFFFF

/-- The word with the same byte in each of 16 places. -/
def every (b : Nat) : Wide := BitVec.ofNat 512 (b * 0x01010101010101010101010101010101)

/-- DMEM holding byte `p` at `addr + p`, for 16 bytes. -/
def dmemAt (addr : Nat) : List Host.Cell := Memory.writeRange [] addr (byteAt v0x) 16

/-- IMEM holding one word. -/
def imemAt (addr : Nat) (w : Word) : List Host.Cell := Memory.writeRange [] addr (byteAt w) 4

def nextState : Result → Option State
  | .next t => some t
  | .fault _ => none
  | .refused _ => none

def faultOf : Result → Option Fault
  | .next _ => none
  | .fault f => some f
  | .refused _ => none

/-- The vector register `r` after `i`. -/
def vAfter (i : Instr) (s : State) (r : VReg) : Option Wide := (nextState (exec i s)).map (·.getV r)

/-- The scalar register `r` after `i`. -/
def xAfter (i : Instr) (s : State) (r : XReg) : Option Word := (nextState (exec i s)).map (·.getX r)

def pcAfter (i : Instr) (s : State) : Option Word := (nextState (exec i s)).map (·.pc)

/-- CAUSE, EPC, FINFO and STATE after a result. -/
def record (r : Result) : Option (Cause × Word × Word × RunState) :=
  (nextState r).map fun t => (t.cause, t.epc, t.finfo, t.run)

theorem next_with {r : Result} (f : State → Bool) (h : (nextState r).any f = true) : ∃ t, r = .next t ∧ f t = true := by
  cases r with
  | next t => exact ⟨t, rfl, by simpa [nextState] using h⟩
  | fault f => simp [nextState] at h
  | refused r => simp [nextState] at h

theorem fault_of {r : Result} {f : Fault} (h : faultOf r = some f) : r = .fault f := by
  cases r with
  | next t => simp [faultOf] at h
  | fault g => simpa [faultOf] using h
  | refused r => simp [faultOf] at h

/-! ## Ill-formed terms -/

/-- R67 item 3. -/
theorem test_level_refused :
    (Instr.vblend 1 2 3 7).wellFormed .w128 = false ∧ (Instr.vmask 1 true 9).wellFormed .w512 = false ∧
    (Instr.vmask 1 true 8).wellFormed .w512 = true ∧
    decode .w128 (encode (.vblend 1 2 3 7)) = .illegal .levelTooHigh ∧
    decode .w512 (encode (.vmask 1 true 9)) = .illegal .levelTooHigh := by decide

/-- R67 item 4; 95 L2-8: lgN = 5. -/
theorem test_width_refused :
    (Instr.gbuild 1 5 0).wellFormed .w128 = false ∧ (Instr.xform 1 2 7 0).wellFormed .w512 = false ∧
    (Instr.xform 1 2 4 0).wellFormed .w128 = true ∧
    decode .w128 (encode (.gbuild 1 5 0)) = .illegal .widthTooLarge ∧
    decode .w128 (encode (.xform 1 2 5 0)) = .illegal .widthTooLarge := by decide

/-- R67 item 5; 95 L2-10: csrr x5, 2. -/
theorem test_csr_refused :
    (Instr.csrr 5 2).wellFormed .w128 = false ∧ (Instr.csrr 5 1).wellFormed .w128 = true ∧
    decode .w128 (encode (.csrr 5 2)) = .illegal .unknownCsr := by decide

/-- R67 item 1: 95 L2-11, and the ends of every reserved range of R65. -/
theorem test_reserved_opcodes :
    [0x00000000, 0xFC000000, 0x2C000000, 0x3C000000, 0x54000000, 0x7C000000, 0xB8000000, 0xBC000000, 0xF4000000].all
      (fun w => decode .w128 w = .illegal .reservedOpcode) = true := by decide

/-- A byte list is decoded four bytes at a time, the low byte first (R60, 20_memory.md R41). -/
theorem test_decode_bytes :
    decodeBytes .w128 [0x08, 0x00, 0x48, 0x98, 0x55] = (.instr (.vshli 1 2 8), [0x55]) ∧
    decodeBytes .w128 [0x08, 0x00, 0x48] = (.illegal .truncated, [0x08, 0x00, 0x48]) ∧
    decodeTableWord 32 0x98480008 = some (.vshli 1 2 8) ∧ decodeTableWord 32 0 = none := by decide

theorem test_reset_memories_wf :
    Memory.wf State.reset.imem ∧ Memory.wf State.reset.dmem ∧ Memory.wf State.reset.grid := by decide

/-! ## Every constructor's word -/

/-- spec/30_encoding.md R61, R62, R65; formats N, J, B, L, I. -/
theorem test_decode_control :
    decode .w128 0b000001_00000000000000000000000000 = .instr (.nop) ∧
    decode .w128 0b000010_00000000000000000000000000 = .instr (.halt) ∧
    decode .w128 0b000011_11111111111111111111111110 = .instr (.j (-2)) ∧
    decode .w128 0b000100_0010_1111111111111111111101 = .instr (.bnez 2 (-3)) ∧
    decode .w128 0b000101_1111_1000000000000000000000 = .instr (.beqz 15 0x200000) ∧
    decode .w128 0b000110_0000_0000000000000000000010 = .instr (.bfs 2) ∧
    decode .w128 0b000111_0000_0000000000000000000101 = .instr (.bfc 5) ∧
    decode .w128 0b001000_0001_1111111111111111111111 = .instr (.li 1 0x3FFFFF) ∧
    decode .w128 0b001001_0010_0011_0000_11111111111111 = .instr (.addi 2 3 (-1)) ∧
    decode .w128 0b001010_0101_0000_0000_00000000000001 = .instr (.csrr 5 1) := by decide

/-- formats I and R; 42_packed.md. -/
theorem test_decode_packed :
    decode .w128 0b010000_0001_0010_0000_00000000010000 = .instr (.vld 1 2 16) ∧
    decode .w128 0b010001_0011_0001_0000_11111111110000 = .instr (.vst 3 1 (-16)) ∧
    decode .w128 0b010010_0111_0100_0000_00000000000000 = .instr (.vmvx 7 4) ∧
    decode .w128 0b010011_0010_1001_0000_00000000000000 = .instr (.xmvv 2 9) ∧
    decode .w128 0b010100_0101_0111_0000_00000000000111 = .instr (.vbcast 5 7 7) := by decide

/-- formats R and I; 41_wide_word.md. -/
theorem test_decode_wide_word :
    decode .w128 0b100000_0001_0010_0011_00000000000000 = .instr (.vand 1 2 3) ∧
    decode .w128 0b100001_0100_0101_0110_00000000000000 = .instr (.vor 4 5 6) ∧
    decode .w128 0b100010_0111_1000_1001_00000000000000 = .instr (.vxor 7 8 9) ∧
    decode .w128 0b100011_1010_1011_0000_00000000000000 = .instr (.vnot 10 11) ∧
    decode .w128 0b100100_0001_0010_0011_00000000000000 = .instr (.vshl 1 2 3) ∧
    decode .w128 0b100101_0100_0101_0110_00000000000000 = .instr (.vshr 4 5 6) ∧
    decode .w128 0b100110_0111_1000_0000_11111111111111 = .instr (.vshli 7 8 0x3FFF) ∧
    decode .w128 0b100111_1001_1010_0000_00000010000000 = .instr (.vshri 9 10 128) ∧
    decode .w128 0b101000_0000_1100_0011_00000000000000 = .instr (.veq 12 3) ∧
    decode .w128 0b101001_1110_0000_0000_00000000000000 = .instr (.vrand 14) ∧
    decode .w128 0b101010_0110_0000_0000_00000000000001 = .instr (.vfill 6 true) ∧
    decode .w128 0b101011_0101_1101_0000_00000000000000 = .instr (.vfillx 5 13) ∧
    decode .w128 0b101100_0001_0000_0000_00000000010110 = .instr (.vmask 1 true 6) ∧
    decode .w128 0b101101_0100_0101_0110_00000000000011 = .instr (.vblend 4 5 6 3) := by decide

/-- format R; 43_basis_change.md. -/
theorem test_decode_basis_change :
    decode .w128 0b110000_1001_0001_0000_00000000000000 = .instr (.toaes 9 1) ∧
    decode .w128 0b110001_1100_1011_0000_00000000000000 = .instr (.fromaes 12 11) := by decide

/-- format R; 44_gf8_arith.md. -/
theorem test_decode_gf_arith :
    decode .w128 0b110010_1011_1001_1010_00000000000000 = .instr (.gfmul 11 9 10) ∧
    decode .w128 0b110011_0001_0010_0011_00000000000000 = .instr (.gfaff 1 2 3) ∧
    decode .w128 0b110100_0100_0101_0110_00000000000000 = .instr (.gfaffinv 4 5 6) ∧
    decode .w128 0b110101_0011_0001_0010_00000000000000 = .instr (.tmul 3 1 2) ∧
    decode .w128 0b110110_0010_0001_0000_00000000000000 = .instr (.tinv 2 1) := by decide

/-- formats R and G; 45_affine8.md. -/
theorem test_decode_affine8 :
    decode .w128 0b110111_0010_0001_0000_00000000000000 = .instr (.mprep 2 1) ∧
    decode .w128 0b111000_0001_0010_0000_000_00100101100 = .instr (.affg 1 2 300) ∧
    decode .w128 0b111001_0000_0001_0000_000_00000000111 = .instr (.gwr 1 7) ∧
    decode .w128 0b111010_0011_0000_0000_000_11111111111 = .instr (.grd 3 2047) := by decide

/-- format G; 46_affine_nxn.md. -/
theorem test_decode_affine_nxn :
    decode .w128 0b111011_0000_0001_0000_100_00000010000 = .instr (.gbuild 1 4 16) ∧
    decode .w128 0b111100_0010_0001_0000_001_00000000101 = .instr (.xform 2 1 1 5) := by decide

/-- 30_encoding.md R66 and R67 item 2: one must-be-zero bit set. -/
theorem test_must_be_zero_control :
    [0x04000001, 0x0A000000, 0x18400002, 0x1E000005, 0x248C4000, 0x29440001].all (fun w => decode .w128 w = .illegal .nonzeroReserved) = true := by decide

/-- 30_encoding.md R66 and R67 item 2: one must-be-zero bit set. -/
theorem test_must_be_zero_packed :
    [0x404A0000, 0x44C44000, 0x49D00001, 0x4CA48000, 0x515C0008].all (fun w => decode .w128 w = .illegal .nonzeroReserved) = true := by decide

/-- 30_encoding.md R66 and R67 item 2: one must-be-zero bit set. -/
theorem test_must_be_zero_wide_word :
    [0x80000001, 0x8515A000, 0x89E24001, 0x8C484000, 0x9048C001, 0x9448C004, 0x99E04000, 0x9DE20000,
      0xA048C000, 0xA4480000, 0xA9800002, 0xAD4C4000, 0xB0400020, 0xB5158010].all (fun w => decode .w128 w = .illegal .nonzeroReserved) = true := by decide

/-- 30_encoding.md R66 and R67 item 2: one must-be-zero bit set. -/
theorem test_must_be_zero_field :
    [0xC2444000, 0xC6440001, 0xCA444001, 0xCE444002, 0xD2444004, 0xD6444008, 0xDA444000, 0xDE444000].all (fun w => decode .w128 w = .illegal .nonzeroReserved) = true := by decide

/-- 30_encoding.md R66 and R67 item 2: one must-be-zero bit set. -/
theorem test_must_be_zero_grid :
    [0xE0480805, 0xE4040800, 0xE8C40005, 0xEC440005, 0xF0844005].all (fun w => decode .w128 w = .illegal .nonzeroReserved) = true := by decide

/-! ## Instructions, on the vectors of 95_test_vectors.md -/

/-- L2-10. -/
theorem test_control_pcs :
    pcAfter .nop { s0 with pc := 0x10 } = some 0x14 ∧ pcAfter (.j 2) { s0 with pc := 8 } = some 0x10 ∧ pcAfter (.j 0) s0 = some 0 ∧
    pcAfter (.bnez 2 (-3)) ({ s0 with pc := 0x18 }.setX 2 3) = some 0x0C ∧
    pcAfter (.bnez 2 (-3)) { s0 with pc := 0x18 } = some 0x1C ∧
    pcAfter (.beqz 0 4) s0 = some 0x10 ∧ pcAfter (.beqz 2 4) (s0.setX 2 3) = some 4 ∧
    pcAfter (.bfs 2) { s0 with pc := 4, flag := true } = some 0x0C ∧
    pcAfter (.bfc 5) { s0 with pc := 4, flag := true } = some 8 ∧
    pcAfter (.bfc 5) { s0 with pc := 4 } = some 0x18 := by decide +kernel

/-- L2-10. -/
theorem test_halt :
    record (exec .halt { s0 with pc := 0x20 }) = some (.none, 0x20, 0, .halted) := by decide +kernel

/-- L2-10: li x0 is discarded. -/
theorem test_li :
    xAfter (.li 1 0x3FFFFF) s0 1 = some 0x003FFFFF ∧ xAfter (.li 0 5) s0 0 = some 0 := by decide +kernel

/-- L2-10. -/
theorem test_addi :
    xAfter (.addi 1 0 (-1)) s0 1 = some 0xFFFFFFFF ∧ xAfter (.addi 1 1 1) (s0.setX 1 0xFFFFFFFF) 1 = some 0 := by decide +kernel

/-- L2-10. -/
theorem test_csrr :
    xAfter (.csrr 5 0) s0 5 = some 0x100C0800 ∧ xAfter (.csrr 5 1) s0 5 = some 0xC0DE ∧
    xAfter (.csrr 5 0) (State.resetWith ⟨.w512, 3, 10, 10, 0, 0⟩) 5 = some 0x16160B02 ∧
    record (exec (.csrr 5 2) s0) = some (.illegalInstruction, 0, 0x29400002, .faulted) := by decide +kernel

/-- L2-1. -/
theorem test_bitwise :
    vAfter (.vand 3 1 2) ((s0.setV 1 v0x).setV 2 0x00FF00FF00FF00FF00FF00FF00FF00FF) 3 =
      some 0x000E000C000A00080006000400020000 ∧
    vAfter (.vor 3 1 2) ((s0.setV 1 v0x).setV 2 (every 0xF0)) 3 = some 0xFFFEFDFCFBFAF9F8F7F6F5F4F3F2F1F0 ∧
    vAfter (.vxor 3 1 1) (s0.setV 1 v0x) 3 = some 0 ∧
    vAfter (.vnot 3 1) (s0.setV 1 v0x) 3 = some 0xF0F1F2F3F4F5F6F7F8F9FAFBFCFDFEFF ∧
    vAfter (.vnot 3 1) s0 3 = some ones := by decide +kernel

/-- L2-2. -/
theorem test_immediate_shifts :
    vAfter (.vshli 2 1 4) (s0.setV 1 v0x) 2 = some 0xF0E0D0C0B0A090807060504030201000 ∧
    vAfter (.vshri 2 1 36) (s0.setV 1 v0x) 2 = some 0x0000000000F0E0D0C0B0A09080706050 ∧
    vAfter (.vshli 2 1 0) (s0.setV 1 v0x) 2 = some v0x ∧ vAfter (.vshli 2 1 16383) (s0.setV 1 v0x) 2 = some 0 := by decide +kernel

/-- L2-2 and L1-6 (W = 256). -/
theorem test_register_shifts :
    vAfter (.vshl 2 1 3) ((s0.setV 1 1).setX 3 127) 2 = some 0x80000000000000000000000000000000 ∧
    vAfter (.vshl 2 1 3) ((s0.setV 1 1).setX 3 128) 2 = some 0 ∧
    vAfter (.vshr 2 1 3) ((s0.setV 1 ones).setX 3 0xFFFFFFFF) 2 = some 0 ∧
    vAfter (.vshr 2 1 3) ((s256.setV 1 0x100000000000000000000000000000002).setX 3 128) 2 = some 1 ∧
    vAfter (.vshli 2 1 128) (s256.setV 1 0x100000000000000000000000000000002) 2 =
      some 0x200000000000000000000000000000000 := by decide +kernel

/-- L2-3 and L1-9. -/
theorem test_veq :
    (nextState (exec (.veq 1 2) ((s0.setV 1 0x1234).setV 2 0x1234))).map (·.flag) = some true ∧
    (nextState (exec (.veq 1 2) ((s0.setV 1 v0x).setV 2 0x8F0E0D0C0B0A09080706050403020100))).map (·.flag) = some false := by
  decide +kernel

/-- L2-3: a draw. Its value is free; that it is taken is not. -/
theorem test_vrand : (nextState (exec (.vrand 1) s0)).map (fun t => (t.draws, t.pc)) = some (1, 4) := by decide +kernel

/-- L2-3. -/
theorem test_fills :
    vAfter (.vfill 1 false) (s0.setV 1 v0x) 1 = some 0 ∧ vAfter (.vfill 1 true) s0 1 = some ones ∧
    vAfter (.vfillx 1 2) (s0.setX 2 1) 1 = some ones ∧ vAfter (.vfillx 1 2) (s0.setV 1 v0x) 1 = some 0 ∧
    record (exec (.vfillx 1 2) (s0.setX 2 2)) = some (.illegalOperand, 0, 2, .faulted) ∧
    vAfter (.vfillx 1 2) ((s0.setX 2 2).setV 1 v0x) 1 = some v0x := by decide +kernel

/-- L2-3. -/
theorem test_vmask :
    vAfter (.vmask 1 false 0) s0 1 = some (every 0x55) ∧ vAfter (.vmask 1 false 2) s0 1 = some (every 0x0F) ∧
    vAfter (.vmask 1 false 6) s0 1 = some 0xFFFFFFFFFFFFFFFF ∧
    vAfter (.vmask 1 true 6) s0 1 = some 0xFFFFFFFFFFFFFFFF0000000000000000 ∧ vAfter (.vmask 1 false 7) s256 1 = some ones := by
  decide +kernel

/-- L2-3. -/
theorem test_vblend :
    vAfter (.vblend 4 5 6 3) ((s0.setV 5 (every 0x11)).setV 6 (every 0x22)) 4 = some 0x22112211221122112211221122112211 ∧
    vAfter (.vblend 4 5 6 6) ((s0.setV 5 (every 0x11)).setV 6 (every 0x22)) 4 = some 0x22222222222222221111111111111111 := by
  decide +kernel

/-- L2-4. -/
theorem test_vbcast :
    vAfter (.vbcast 2 1 4) (s0.setV 1 0x1234BEEF) 2 = some 0xBEEFBEEFBEEFBEEFBEEFBEEFBEEFBEEF ∧
    vAfter (.vbcast 2 1 2) (s0.setV 1 0x5A) 2 = some (every 0xAA) ∧ vAfter (.vbcast 2 1 0) (s0.setV 1 3) 2 = some ones ∧
    vAfter (.vbcast 2 1 7) (s0.setV 1 v0x) 2 = some v0x := by decide +kernel

/-- L2-4. -/
theorem test_moves :
    vAfter (.vmvx 1 1) ((s0.setX 1 0x53).setV 1 v0x) 1 = some 0x53 ∧
    xAfter (.xmvv 2 1) (s0.setV 1 0x99CAFEF00D) 2 = some 0xCAFEF00D := by decide +kernel

/-- L2-4 and L2-11. -/
theorem test_vld :
    vAfter (.vld 1 1 0) { s0.setX 1 0x100 with dmem := dmemAt 0x100 } 1 = some v0x ∧
    vAfter (.vld 1 1 0) { s0.setX 1 0xFFF0 with dmem := dmemAt 0xFFF0 } 1 = some v0x ∧
    record (exec (.vld 1 1 0) (s0.setX 1 0x108)) = some (.dataMisaligned, 0, 0x108, .faulted) ∧
    record (exec (.vld 1 1 16) (s0.setX 1 0xFFF0)) = some (.dataAccessFault, 0, 0x10000, .faulted) ∧
    record (exec (.vld 1 1 (-16)) s0) = some (.dataAccessFault, 0, 0xFFFFFFF0, .faulted) ∧
    record (exec (.vld 1 1 0) (s0.setX 1 0xFFFF)) = some (.dataMisaligned, 0, 0xFFFF, .faulted) := by decide +kernel

/-- L2-4 and L2-11. -/
theorem test_vst :
    (nextState (exec (.vst 3 1 16) ((s0.setX 1 0x100).setV 3 v0x))).map (·.dmem) = some (dmemAt 0x110) ∧
    record (exec (.vst 3 1 0) (s0.setX 1 0x10000)) = some (.dataAccessFault, 0, 0x10000, .faulted) := by decide +kernel

/-- L2-5, row 0, and row 1 on the same word. -/
theorem test_toaes :
    vAfter (.toaes 2 1) (s0.setV 1 v0x) 2 = some 0x5C5DE1E0B1B00C0D5150ECEDBCBD0100 ∧
    vAfter (.toaes 2 1) (State.setV { s0 with cfg := { tile with row := 1 } } 1 v0x) 2 =
      some 0xE0E15C5DECED5051B1B00D0CBDBC0100 := by decide +kernel

/-- L2-5, row 0. -/
theorem test_fromaes :
    vAfter (.fromaes 3 2) (s0.setV 2 0x5C5DE1E0B1B00C0D5150ECEDBCBD0100) 3 = some v0x := by decide +kernel

/-- L2-6. -/
theorem test_gfmul :
    vAfter (.gfmul 3 1 2) ((s0.setV 1 0xFF025757).setV 2 0xFF871383) 3 = some 0x1315FEC1 ∧
    vAfter (.gfmul 3 1 1) (s0.setV 1 v0x) 3 = some 0x55545150454441401514111005040100 := by decide +kernel

/-- L2-6, and L2-7: two different matrices in the two qwords. -/
theorem test_gfaff :
    vAfter (.gfaff 3 1 2) ((s0.setV 1 v0x).setV 2 0x80402010080402018040201008040201) 3 =
      some 0xF070B030D0509010E060A020C0408000 ∧
    vAfter (.gfaff 3 1 2) ((s0.setV 1 v0x).setV 2 0xFFFEFCF8F0E0C0800102040810204080) 3 =
      some 0x0A0B09080D0C0E0F0706050403020100 := by decide +kernel

/-- L2-6: the inverse first, the matrix second. -/
theorem test_gfaffinv :
    vAfter (.gfaffinv 3 1 2) ((s0.setV 1 v0x).setV 2 0x01020408102040800102040810204080) 3 =
      some 0xC7E5E1B0C0294FE8D17B52CBF68D0100 ∧
    vAfter (.gfaffinv 3 1 2) ((s0.setV 1 0x53).setV 2 0x80402010080402018040201008040201) 3 = some 0x53 := by decide +kernel

/-- L2-6, on row 0 and on row 5. -/
theorem test_tmul :
    vAfter (.tmul 3 1 2) ((s0.setV 1 v0x).setV 2 (every 2)) 3 = some 0x050706040D0F0E0C090B0A0801030200 ∧
    vAfter (.tmul 3 1 2) ((State.setV { s0 with cfg := { tile with row := 5 } } 1 0x01005AFF80100202).setV 2 0x7777A5FF80100302) 3 =
      some 0x7700B07057410103 := by decide +kernel

/-- L2-6, on row 0 and on row 7. -/
theorem test_tinv :
    vAfter (.tinv 2 1) (s0.setV 1 v0x) 2 = some 0x0705080B0C090A0D0F040E0602030100 ∧
    vAfter (.tinv 2 1) (State.setV { s0 with cfg := { tile with row := 7 } } 1 0xFF80531003020100) 2 =
      some 0xCBD35E1402030100 := by decide +kernel

/-- L2-7. -/
theorem test_mprep :
    vAfter (.mprep 2 1) (s0.setV 1 0xFF7F3F1F0F0703018040201008040201) 2 = some 0xFFFEFCF8F0E0C0800102040810204080 ∧
    vAfter (.mprep 2 1) (s0.setV 1 0x0123456789ABCDEF) 2 = some 0xFF55330F0055330F := by decide +kernel

/-- L2-7 and L2-11. -/
theorem test_affg :
    vAfter (.affg 2 1 5) (State.setV { s0 with grid := [(5, 0x0102040810204080)] } 1 v0x) 2 = some v0x ∧
    record (exec (.affg 2 1 256) s0) = some (.gridRange, 0, 256, .faulted) := by decide +kernel

/-- L2-7. -/
theorem test_gwr_then_grd :
    (nextState (exec (.gwr 1 7) (s0.setV 1 0x558040201008040201))).map (·.grid) = some [(7, 0x8040201008040201)] ∧
    vAfter (.grd 3 7) { s0 with grid := [(7, 0x8040201008040201)] } 3 = some 0x80402010080402018040201008040201 := by decide +kernel

/-- L2-8: the 32 bytes of the byte-swap bases for N = 2. -/
def swapBases : List Byte :=
  [0x00, 0x01, 0x00, 0x02, 0x00, 0x04, 0x00, 0x08, 0x00, 0x10, 0x00, 0x20, 0x00, 0x40, 0x00, 0x80] ++
  [0x01, 0x00, 0x02, 0x00, 0x04, 0x00, 0x08, 0x00, 0x10, 0x00, 0x20, 0x00, 0x40, 0x00, 0x80, 0x00]

/-- x1 = 0x300 with the byte-swap bases there. -/
def sSwap : State := { s0.setX 1 0x300 with dmem := Memory.writeRange [] 0x300 (fun k => swapBases.getD k 0) 32 }

def swapGrid : Memory Mat := [(0, 0), (1, 0x0102040810204080), (2, 0x0102040810204080), (3, 0)]

/-- L3-3 and L2-8. -/
theorem test_gbuild :
    (nextState (exec (.gbuild 1 1 0) sSwap)).map (·.grid) = some swapGrid ∧
    record (exec (.gbuild 1 4 0) (s0.setX 1 0xFC00)) = some (.dataAccessFault, 0, 0xFC00, .faulted) ∧
    record (exec (.gbuild 1 4 1) (s0.setX 1 0xFC00)) = some (.gridRange, 0, 1, .faulted) := by decide +kernel

/-- L2-8, L2-11: byte swap; xform.16 at 1 and xform.4 at 250 are out of range. -/
theorem test_xform :
    vAfter (.xform 2 1 1 0) (State.setV { s0 with grid := swapGrid } 1 v0x) 2 = some 0x0E0F0C0D0A0B08090607040502030001 ∧
    record (exec (.xform 1 1 4 1) s0) = some (.gridRange, 0, 1, .faulted) ∧
    record (exec (.xform 1 2 2 250) s0) = some (.gridRange, 0, 250, .faulted) := by decide +kernel

/-! ## Steps -/

/-- L2-11: the fetch and decode exceptions. -/
theorem test_step_exceptions :
    record (step { s0 with imem := imemAt 0 0 }) = some (.illegalInstruction, 0, 0, .faulted) ∧
    record (step { s0 with pc := 0x40, imem := imemAt 0x40 0x80000001 }) =
      some (.illegalInstruction, 0x40, 0x80000001, .faulted) ∧
    record (step { s0 with pc := 0x1000 }) = some (.instrAccessFault, 0x1000, 0x1000, .faulted) := by decide +kernel

/-- L2-10: the word 0x29400000 at the pc is csrr x5, hwcfg; nothing written there is UninitRead. -/
theorem test_step_runs :
    (nextState (step { s0 with imem := imemAt 0 0x29400000 })).map (·.getX 5) = some 0x100C0800 ∧
    faultOf (step s0) = some (.uninitImem 0) := by decide +kernel

theorem test_with_fetch_word :
    (nextState (step ((State.resetWith tile).withFetchWord 32 0x20400100))).map (·.getX 1) = some 0x100 ∧
    (nextState (step ({ State.resetWith tile with pc := 0x1000 }.withFetchWord 32 0x20400100))).map (·.pc) = some 4 := by
  decide +kernel

/-- L3-6: the abort of an endless loop. -/
theorem test_abort :
    (nextState (step { s0 with abortLatch := true, imem := imemAt 0 0x0C000000 })).map
      (fun t => (t.run, t.epc, t.cause, t.abortLatch, t.done)) = some (.idle, 0, .none, false, false) := by decide +kernel

/-- 10_state.md R27: ABORT and START together restart at START_PC. -/
theorem test_abort_and_start :
    (nextState (step { s0 with pc := 0x20, startPc := 8, host := [.write 0 3, .wait] })).map
      (fun t => (t.run, t.pc, t.epc, t.host)) = some (.running, 8, 0, [.wait]) := by decide +kernel

/-- 70_reset_and_hazards.md R240, one step each: under an asserted reset a START is ignored, a read leaves the memories alone and the
tile takes no step; the release gives R31's state. -/
theorem test_reset_asserted :
    (nextState (step { State.resetWith tile with resetAsserted := true, host := [.write 0 1] })).map (fun t => (t.run, t.host)) =
      some (.idle, []) ∧
    nextState (step { s0 with resetAsserted := true }) = some { s0 with resetAsserted := true } ∧
    nextState (step { s0 with host := [.assertReset] }) = some { s0 with resetAsserted := true } ∧
    nextState (step { s0.setX 1 7 with pc := 8, startPc := 8, resetAsserted := true, host := [.releaseReset, .wait] }) =
      some { State.resetWith tile with host := [.wait] } := by decide +kernel

/-- 60_exceptions.md R225: the last words of IMEM and DMEM and the first past them; HWCFG is at 0x018. -/
theorem test_host_window :
    windowPlace tile 0x1003FF = .imem 0xFFC ∧ windowPlace tile 0x100400 = .reserved ∧
    windowPlace tile 0x203FFF = .dmem 0xFFFC ∧ windowPlace tile 0x204000 = .reserved ∧
    windowPlace tile 7 = .register 0x1C ∧ windowPlace tile 8 = .reserved ∧ (s0.hostRead 6).1 = 0x100C0800 := by decide +kernel


/-! ## Witnesses: for each statement with hypotheses, a state and operands that meet them, one for each clause at a boundary of its range -/

/-- The two sides of every encoding clause (`EncodedAs`) of the statements: test_decode_… are the words it accepts, test_must_be_zero_…,
test_level_refused, test_width_refused and test_csr_refused the words it refuses; one of each for the range-checked opcodes here. -/
theorem witness_EncodedAs :
    (opOf 0xB1000006 = 0x2C ∧ levelOk .w128 (lvlOf 0xB1000006) = true) ∧ (opOf 0xB1000007 = 0x2C ∧ levelOk .w128 (lvlOf 0xB1000007) = false) ∧
    (opOf 0xEC042000 = 0x3B ∧ widthOk (lgNOf 0xEC042000) = true) ∧ (opOf 0xEC042800 = 0x3B ∧ widthOk (lgNOf 0xEC042800) = false) := by decide

theorem witness_DecodeOfEncodeIsTheInstruction :
    (Instr.vmask 15 true 8).wellFormed .w512 = true ∧ (Instr.vblend 1 2 3 6).wellFormed .w128 = true ∧
    (Instr.gbuild 15 4 2047).wellFormed .w128 = true ∧ (Instr.csrr 5 1).wellFormed .w256 = true := by decide

theorem witness_EncodeOfDecodeIsTheWord : decode .w512 0xFFFFFFFF = .illegal .reservedOpcode ∧
    decode .w512 0x0FFFFFFF = .instr (.j (-1)) := by decide

theorem witness_EveryWordIsOneTableRowOrIllegal :
    (∃ r ∈ opcodeTable, r.hits 0x0FFFFFFF = true) ∧ decode .w128 0x0FFFFFFF = .instr (.j (-1)) ∧
    decode .w128 0x0BFFFFFF = .illegal .nonzeroReserved := by decide

/-- Each of the five items of R67. -/
theorem witness_IllegalWordsAreTheFiveItems :
    decode .w128 0xF4000000 = .illegal .reservedOpcode ∧ decode .w128 0x08000001 = .illegal .nonzeroReserved ∧
    decode .w128 0xB0400007 = .illegal .levelTooHigh ∧ decode .w128 0xF0002800 = .illegal .widthTooLarge ∧
    decode .w128 0x28000002 = .illegal .unknownCsr := by decide

/-- The two ways for the tile to move: the host silent, and the host letting it step. -/
theorem witness_TileMoves :
    s0.TileMoves s0 ∧ State.TileMoves { s0 with host := [.wait, .assertReset] } { s0 with host := [.assertReset] } ∧
    State.TileMoves { State.reset with host := [.wait] } State.reset := ⟨.inl ⟨rfl, rfl⟩, .inr ⟨_, rfl, rfl⟩, .inr ⟨_, rfl, rfl⟩⟩

/-- The last word of IMEM. -/
theorem witness_StepRunsTheDecodedInstruction :
    let u : State := { s0 with pc := 0xFFC, imem := imemAt 0xFFC 0x04000000 }
    State.TileMoves { u with host := [.wait] } u ∧ u.TileMoves u ∧ u.Fetching ∧ u.pc.toNat < u.cfg.imemBytes ∧
    Memory.written u.imem u.pc.toNat 4 = true ∧ decode u.cfg.word (u.imemWord u.pc.toNat) = .instr .nop :=
  ⟨.inr ⟨_, rfl, rfl⟩, .inl ⟨rfl, rfl⟩, ⟨rfl, rfl, rfl⟩, by decide, by decide +kernel, by decide +kernel⟩

theorem witness_PlacedInstructionRunsNext : (Instr.xform 1 2 4 0).wellFormed State.reset.cfg.word = true := by decide

/-- The first pc outside IMEM; an illegal word at the last pc inside; a word there of which only the last byte is unwritten. -/
theorem witness_FetchAndDecodeFaults :
    (let u : State := { s0 with pc := 0x1000 }
     State.TileMoves { u with host := [.wait] } u ∧ u.TileMoves u ∧ u.Fetching ∧ u.cfg.imemBytes ≤ u.pc.toNat) ∧
    (let u : State := { s0 with pc := 0xFFC, imem := imemAt 0xFFC 0xFC000000 }
     u.TileMoves u ∧ u.Fetching ∧ u.pc.toNat < u.cfg.imemBytes ∧ Memory.written u.imem u.pc.toNat 4 = true ∧
       decode u.cfg.word (u.imemWord u.pc.toNat) = .illegal .reservedOpcode) ∧
    (let u : State := { s0 with pc := 0xFFC, imem := [(0xFFC, 0), (0xFFD, 0), (0xFFE, 0)] }
     u.TileMoves u ∧ u.Fetching ∧ u.pc.toNat < u.cfg.imemBytes ∧ Memory.read u.imem (u.pc.toNat + 3) = none) :=
  ⟨⟨.inr ⟨_, rfl, rfl⟩, .inl ⟨rfl, rfl⟩, ⟨rfl, rfl, rfl⟩, by decide⟩,
    ⟨.inl ⟨rfl, rfl⟩, ⟨rfl, rfl, rfl⟩, by decide, by decide +kernel, by decide +kernel⟩,
    ⟨.inl ⟨rfl, rfl⟩, ⟨rfl, rfl, rfl⟩, by decide, by decide⟩⟩

theorem witness_AbortIsTakenBeforeTheFetchAndStoppedTilesRest :
    (let u : State := { s0 with abortLatch := true }
     u.TileMoves u ∧ u.resetAsserted = false ∧ u.run = .running ∧ u.abortLatch = true) ∧
    State.reset.TileMoves State.reset ∧ State.reset.run ≠ .running :=
  ⟨⟨.inl ⟨rfl, rfl⟩, rfl, rfl, rfl⟩, .inl ⟨rfl, rfl⟩, by decide⟩

/-- A running state with a written register, DMEM, IMEM and grid entry that meets the invariant, about to run VST at the last word of DMEM. -/
def sInv : State :=
  { (s0.setX 1 0xFFF0).setV 1 ones with dmem := dmemAt 0x100, imem := imemAt 0 0x44440000, grid := [(255, 1)] }

theorem witness_inv : sInv.Inv := by
  constructor <;> decide +kernel

theorem witness_EveryStepKeepsTheInvariant : sInv.Inv ∧ ∃ t, step sInv = .next t ∧ (t.dmem ≠ sInv.dmem) := by
  refine ⟨witness_inv, ?_⟩
  obtain ⟨t, h, h'⟩ := next_with (r := step sInv) (fun t => t.dmem ≠ sInv.dmem) (by decide +kernel)
  exact ⟨t, h, by simpa using h'⟩

theorem witness_NoStepChangesTheParameters :
    ∃ t, step { s0 with resetAsserted := true, host := [.releaseReset] } = .next t ∧ t.run ≠ .running := by
  obtain ⟨t, h, h'⟩ := next_with (r := step { s0 with resetAsserted := true, host := [.releaseReset] }) (fun t => t.run ≠ .running) (by decide)
  exact ⟨t, h, by simpa using h'⟩

theorem witness_ImemIsNotWrittenWhileRunning :
    let s : State := { sInv with host := [.write 0x100000 0x04000000] }
    s.run = .running ∧ (∀ rest, s.host ≠ .releaseReset :: rest) ∧ ∃ t, step s = .next t ∧ t.host = [] := by
  refine ⟨rfl, (fun rest h => by cases h), ?_⟩
  obtain ⟨t, h, h'⟩ := next_with (r := step { sInv with host := [.write 0x100000 0x04000000] }) (fun t => t.host = []) (by decide +kernel)
  exact ⟨t, h, by simpa using h'⟩

/-- Each part changes somewhere. -/
theorem witness_OnlyTheListedInstructionsWriteEachPart :
    (∃ t, exec (.vfill 2 true) s0 = .next t ∧ decide (t.getV 2 ≠ s0.getV 2) = true) ∧
    (∃ t, exec (.li 2 7) s0 = .next t ∧ decide (t.getX 2 ≠ s0.getX 2) = true) ∧
    (∃ t, exec (.veq 1 1) s0 = .next t ∧ decide (t.flag ≠ s0.flag) = true) ∧
    (∃ t, exec (.gwr 1 255) s0 = .next t ∧ decide (t.grid ≠ s0.grid) = true) ∧
    (∃ t, exec (.gbuild 1 1 0) sSwap = .next t ∧ decide (t.grid ≠ sSwap.grid) = true) ∧
    (∃ t, exec (.vst 1 0 0) s0 = .next t ∧ decide (t.dmem ≠ s0.dmem) = true) :=
  ⟨next_with _ (by decide +kernel), next_with _ (by decide +kernel), next_with _ (by decide +kernel),
    next_with _ (by decide +kernel), next_with _ (by decide +kernel), next_with _ (by decide +kernel)⟩

theorem witness_EveryExceptionIsPrecise :
    s0.run = .running ∧ ∃ t, exec (.vfillx 1 2) (s0.setX 2 2) = .next t ∧ decide (t.run = .faulted) = true :=
  ⟨rfl, next_with _ (by decide +kernel)⟩

theorem witness_OnlyHaltAndExceptionsStopAProgram :
    s0.run = .running ∧ (∃ t, exec .halt s0 = .next t ∧ decide (t.run = .halted) = true) ∧
    (∃ t, exec (.csrr 1 2) s0 = .next t ∧ decide (t.run = .faulted) = true) ∧
    ∃ t, exec .nop s0 = .next t ∧ decide (t.run = .running) = true :=
  ⟨rfl, next_with _ (by decide +kernel), next_with _ (by decide +kernel), next_with _ (by decide +kernel)⟩

theorem witness_PcMovesByWholeInstructions :
    s0.run = .running ∧ (∃ t, exec (.li 1 1) s0 = .next t ∧ decide (t.run = .running) = true) ∧ transfersControl (.li 1 1) = false ∧
    ∃ t, exec (.j (-1)) s0 = .next t ∧ decide (t.run = .running ∧ t.pc = 0xFFFFFFFC) = true :=
  ⟨rfl, next_with _ (by decide +kernel), rfl, next_with _ (by decide +kernel)⟩

/-- A word of DMEM, an array of basis images and a grid of which only the last cell is unwritten. -/
theorem witness_InstructionsStopOnlyOnUnwrittenCells :
    exec (.vld 1 0 0) { s0 with dmem := Memory.writeRange [] 0 (byteAt v0x) 15 } = .fault (.uninitDmem 0) ∧
    exec (.gbuild 0 0 0) { s0 with dmem := Memory.writeRange [] 0 (byteAt v0x) 7 } = .fault (.uninitDmem 0) ∧
    exec (.affg 1 1 255) { s0 with grid := [(254, 1)] } = .fault (.uninitGrid 255) ∧ exec (.grd 1 0) s0 = .fault (.uninitGrid 0) ∧
    exec (.xform 1 1 1 252) { s0 with grid := [(252, 1), (253, 1), (254, 1)] } = .fault (.uninitGrid 252) :=
  ⟨fault_of (by decide +kernel), fault_of (by decide +kernel), fault_of (by decide +kernel), fault_of (by decide +kernel),
    fault_of (by decide +kernel)⟩

theorem witness_ScalarZeroIsHardwired : (15 : XReg) ≠ 0 ∧ (1 : XReg) ≠ 15 := by decide

theorem witness_HaltStopsTheProgram :
    ∀ k, k < 4 → (Memory.read ({ s0 with dmem := dmemAt 0xFFF0 } : State).dmem (0xFFFC + k)).isSome = true := by decide +kernel

/-- A jump to the first address outside IMEM leaves a state that meets the hypotheses of `FaultsAtFetch`; so does a branch. -/
theorem witness_JumpGoesToItsTarget :
    ∃ t, exec (.j 0x400) s0 = .next t ∧
      decide (t.resetAsserted = false ∧ t.run = .running ∧ t.abortLatch = false ∧ t.host = [] ∧ t.cfg.imemBytes ≤ t.pc.toNat) = true :=
  next_with _ (by decide +kernel)

theorem witness_branches :
    (∃ t, exec (.beqz 0 0x400) s0 = .next t ∧
      decide (t.resetAsserted = false ∧ t.run = .running ∧ t.abortLatch = false ∧ t.host = [] ∧ t.cfg.imemBytes ≤ t.pc.toNat) = true) ∧
    (∃ t, exec (.bnez 1 (-1)) (s0.setX 1 1) = .next t ∧
      decide (t.resetAsserted = false ∧ t.run = .running ∧ t.abortLatch = false ∧ t.host = [] ∧ t.cfg.imemBytes ≤ t.pc.toNat) = true) ∧
    (∃ t, exec (.bfc 0x400) s0 = .next t ∧
      decide (t.resetAsserted = false ∧ t.run = .running ∧ t.abortLatch = false ∧ t.host = [] ∧ t.cfg.imemBytes ≤ t.pc.toNat) = true) ∧
    (∃ t, exec (.bfs 1) { s0 with flag := true, pc := 0xFFC } = .next t ∧
      decide (t.resetAsserted = false ∧ t.run = .running ∧ t.abortLatch = false ∧ t.host = [] ∧ t.cfg.imemBytes ≤ t.pc.toNat) = true) :=
  ⟨next_with _ (by decide +kernel), next_with _ (by decide +kernel), next_with _ (by decide +kernel), next_with _ (by decide +kernel)⟩

theorem witness_CsrrReadsHwcfgOrHwid : (1 : XReg) ≠ 0 ∧ (2 : BitVec 14) ≠ 0 ∧ (2 : BitVec 14) ≠ 1 := by decide

theorem witness_VfillxFillsOrRaisesIllegalOperand :
    s0.getX 0 = 0 ∧ (s0.setX 1 1).getX 1 = 1 ∧ (s0.setX 1 2).getX 1 ≠ 0 ∧ (s0.setX 1 2).getX 1 ≠ 1 := by decide

/-- For VMASK and VBLEND: the highest level and the next. -/
theorem witness_levels : (6 : BitVec 4).toNat ≤ s0.cfg.word.lmax ∧ s0.cfg.word.lmax < (7 : BitVec 4).toNat := by decide

/-- VLD's clauses: misaligned (and out of range), aligned just outside, the last word inside, written and not. -/
theorem witness_VldLoadsAlignedWords :
    ((0xFFFF : Word) = BitVec.ofInt 32 (((s0.setX 1 0xFFFF).getX 1).toNat + (0 : BitVec 14).toInt) ∧ (0xFFFF : Word).toNat % s0.cfg.word.bytes ≠ 0) ∧
    ((0x10000 : Word) = BitVec.ofInt 32 (((s0.setX 1 0xFFF0).getX 1).toNat + (16 : BitVec 14).toInt) ∧
      (0x10000 : Word).toNat % s0.cfg.word.bytes = 0 ∧ s0.cfg.dmemBytes < (0x10000 : Word).toNat + s0.cfg.word.bytes) ∧
    (0xFFF0 : Word) = BitVec.ofInt 32 (((s0.setX 1 0x10000).getX 1).toNat + (-16 : BitVec 14).toInt) ∧
    (0xFFF0 : Word).toNat % s0.cfg.word.bytes = 0 ∧ (0xFFF0 : Word).toNat + s0.cfg.word.bytes ≤ s0.cfg.dmemBytes ∧
    (∀ p, p < s0.cfg.word.bytes → (Memory.read (dmemAt 0xFFF0) ((0xFFF0 : Word).toNat + p)).isSome = true) ∧
    Memory.read (dmemAt 0xFFE0) ((0xFFF0 : Word).toNat + 15) = none := by decide +kernel

theorem witness_VstStoresAlignedWords :
    ((0xFFFF : Word) = (s0.setX 1 0xFFFF).effectiveAddress 1 0 ∧ (0xFFFF : Word).toNat % s0.cfg.word.bytes ≠ 0) ∧
    ((0xFFFFFFF0 : Word) = s0.effectiveAddress 1 (-16) ∧ (0xFFFFFFF0 : Word).toNat % s0.cfg.word.bytes = 0 ∧
      s0.cfg.dmemBytes < (0xFFFFFFF0 : Word).toNat + s0.cfg.word.bytes) ∧
    ((0xFFF0 : Word) = (s0.setX 1 0xFFF0).effectiveAddress 1 0 ∧ (0xFFF0 : Word).toNat % s0.cfg.word.bytes = 0 ∧
      (0xFFF0 : Word).toNat + s0.cfg.word.bytes ≤ s0.cfg.dmemBytes) := by decide +kernel

theorem witness_StoreThenLoadReturnsTheWord :
    let s := (s0.setX 1 0xFFF0).setV 1 v0x
    (0xFFF0 : Word) = s.effectiveAddress 1 0 ∧ (0xFFF0 : Word).toNat % s.cfg.word.bytes = 0 ∧
    (0xFFF0 : Word).toNat + s.cfg.word.bytes ≤ s.cfg.dmemBytes ∧
    ∃ t, exec (.vst 1 1 0) s = .next t ∧ decide (t.cfg = s.cfg ∧ t.effectiveAddress 1 0 = 0xFFF0) = true :=
  ⟨by decide, by decide, by decide, next_with _ (by decide +kernel)⟩

/-- T2A of row 0 in every qword of the operand. -/
theorem witness_BasisChangeInstructionsMapEveryByte :
    ∀ q, q < s0.cfg.word.qwords → qwordAt ((s0.setV 2 0x3F301E7EC2D6A4A63F301E7EC2D6A4A6).getV 2) q = s0.cfg.t2a := by decide +kernel

theorem witness_bytes_in_range : (15 : Nat) < s0.cfg.word.bytes ∧ (1 : Nat) < s0.cfg.word.qwords ∧ (0x53 : Byte) ≠ 0 := by decide

theorem witness_TmulAndTinvDoNotDependOnTheRow :
    byteAt (((s0.setV 1 v0x)).getV 1) 0 = 0 ∧ byteAt ((s0.setV 1 v0x).getV 1) 15 ≠ 0 := by decide +kernel

/-- The last entry of the grid, written and unwritten, and the first number past it. -/
theorem witness_GridEntryInstructions :
    s0.cfg.gridSize ≤ (256 : BitVec 11).toNat ∧ (255 : BitVec 11).toNat < s0.cfg.gridSize ∧
    Memory.read ({ s0 with grid := [(255, 1)] } : State).grid (255 : BitVec 11).toNat = some 1 ∧
    Memory.read s0.grid (255 : BitVec 11).toNat = none := by decide

/-- GBUILD's clauses: lgN = 5; one entry too many; one byte too many; the last byte and the last entries, written and (the last byte) not. -/
theorem witness_GbuildBuildsTheGrid :
    4 < (5 : BitVec 3).toNat ∧
    ((4 : BitVec 3).toNat ≤ 4 ∧ s0.cfg.gridSize < (1 : BitVec 11).toNat + 16 * 16) ∧
    ((0 : BitVec 11).toNat + 16 * 16 ≤ s0.cfg.gridSize ∧ s0.cfg.dmemBytes < ((s0.setX 1 0xF801).getX 1).toNat + 8 * 16 * 16) ∧
    ((1 : BitVec 3).toNat ≤ 4 ∧ (252 : BitVec 11).toNat + 2 * 2 ≤ s0.cfg.gridSize ∧
      (sSwap.getX 1).toNat + 8 * 2 * 2 ≤ s0.cfg.dmemBytes ∧
      ∀ k, k < 8 * 2 * 2 → (Memory.read sSwap.dmem ((sSwap.getX 1).toNat + k)).isSome = true) ∧
    ((0 : BitVec 3).toNat ≤ 4 ∧ (255 : BitVec 11).toNat + 1 * 1 ≤ s0.cfg.gridSize ∧
      ((s0.setX 1 0xFFF8).getX 1).toNat + 8 * 1 * 1 ≤ s0.cfg.dmemBytes ∧
      Memory.read (Memory.writeRange [] 0xFFF8 (byteAt v0x) 7) (((s0.setX 1 0xFFF8).getX 1).toNat + 7) = none) := by decide +kernel

def sGrid : State := State.setV { s0 with grid := swapGrid } 1 v0x

theorem witness_XformAppliesTheGrid :
    4 < (5 : BitVec 3).toNat ∧
    ((2 : BitVec 3).toNat ≤ 4 ∧ s0.cfg.gridSize < (241 : BitVec 11).toNat + 4 * 4) ∧
    ((2 : BitVec 3).toNat ≤ 4 ∧ (240 : BitVec 11).toNat + 4 * 4 ≤ s0.cfg.gridSize ∧ (15 : Nat) < 4 * 4 ∧
      Memory.read sGrid.grid ((240 : BitVec 11).toNat + 15) = none) ∧
    ((1 : BitVec 3).toNat ≤ 4 ∧ (0 : BitVec 11).toNat + 2 * 2 ≤ s0.cfg.gridSize ∧
      ∀ k, k < 2 * 2 → (Memory.read sGrid.grid ((0 : BitVec 11).toNat + k)).isSome = true) := by decide +kernel

theorem witness_GbuildThenXformAppliesTheLinearMap :
    (1 : BitVec 3).toNat ≤ 4 ∧ (252 : BitVec 11).toNat + 2 * 2 ≤ sSwap.cfg.gridSize ∧
    (sSwap.getX 1).toNat + 8 * 2 * 2 ≤ sSwap.cfg.dmemBytes ∧
    ∃ t, exec (.gbuild 1 1 252) sSwap = .next t ∧ decide (t.cfg = sSwap.cfg) = true :=
  ⟨by decide, by decide, by decide, next_with _ (by decide +kernel)⟩

theorem witness_ShiftAndBlendDecompositionEqualsXform :
    (1 : BitVec 3).toNat ≤ 4 ∧ (0 : BitVec 11).toNat + 2 * 2 ≤ sGrid.cfg.gridSize ∧
    ∃ t, exec (.xform 2 1 1 0) sGrid = .next t ∧ decide (t.getV 2 = 0x0E0F0C0D0A0B08090607040502030001) = true :=
  ⟨by decide, by decide, next_with _ (by decide +kernel)⟩

/-- Out of reset, the commands 1 (START), 2 (ABORT), 3, 4 (ACK) and 0xFFFFFFF8, and the states they find. -/
theorem witness_ControlRegisterCommands :
    ({ s0 with host := [.write 0 1] } : State).host = .write 0 1 :: [] ∧ s0.resetAsserted = false ∧ State.reset.resetAsserted = false ∧
    ((1 : Word).getLsbD 0 = true ∧ State.reset.run ≠ .running) ∧
    ((3 : Word).getLsbD 0 = true ∧ (3 : Word).getLsbD 1 = true ∧ s0.run = .running) ∧
    ((2 : Word).getLsbD 1 = true ∧ (2 : Word).getLsbD 0 = false) ∧
    ((0xFFFFFFFD : Word).getLsbD 1 = false) ∧
    ((4 : Word).getLsbD 2 = true ∧ (4 : Word).getLsbD 0 = false ∧ ({ s0 with run := .halted } : State).run = .halted ∧
      ({ s0 with run := .faulted } : State).run = .faulted) ∧
    ((0xFFFFFFF8 : Word).getLsbD 2 = false ∧ (0xFFFFFFF8 : Word).getLsbD 0 = false) ∧
    (State.reset.run = .idle ∧ (6 : Word).getLsbD 0 = false) := by decide

/-- While RUNNING, START_PC and the last words of the windows; outside it START_PC, HWID, the first reserved word after each part of the
window and the last, and the last words of IMEM and DMEM. -/
theorem witness_HostAndTileNeverShareMemory :
    (s0.run = .running ∧ (5 : BitVec 22) ≠ 0 ∧ ({ s0 with host := [.write 5 8] } : State).host = [.write 5 8]) ∧
    (0x400000 ≤ 4 * (0x1003FF : BitVec 22).toNat ∧ 4 * (0x1003FF : BitVec 22).toNat < 0x400000 + s0.cfg.imemBytes) ∧
    (0x800000 ≤ 4 * (0x203FFF : BitVec 22).toNat ∧ 4 * (0x203FFF : BitVec 22).toNat < 0x800000 + s0.cfg.dmemBytes) ∧
    ({ s0 with host := [.read 0x203FFF] } : State).host = [.read 0x203FFF] ∧
    (State.resetWith tile).run ≠ .running ∧ (State.resetWith tile).resetAsserted = false ∧
    ([7, 8, 0x100400, 0x204000, 0x3FFFFF].all fun index : BitVec 22 => decide (index ≠ 0 ∧ index ≠ 5 ∧
      ¬ (0x400000 ≤ 4 * index.toNat ∧ 4 * index.toNat < 0x400000 + tile.imemBytes) ∧
      ¬ (0x800000 ≤ 4 * index.toNat ∧ 4 * index.toNat < 0x800000 + tile.dmemBytes))) = true ∧
    (4 * (0x1003FF : BitVec 22).toNat = 0x400000 + 0xFFC ∧ 0xFFC < tile.imemBytes) ∧
    (4 * (0x203FFF : BitVec 22).toNat = 0x800000 + 0xFFFC ∧ 0xFFFC < tile.dmemBytes) := by decide +kernel

theorem witness_HostReadsTheControlRegisters :
    s0.resetAsserted = false ∧ ([8, 0xFFFFF, 0x100400, 0x204000].all fun index : BitVec 22 => decide (8 ≤ index.toNat ∧
      ¬ (0x400000 ≤ 4 * index.toNat ∧ 4 * index.toNat < 0x400000 + s0.cfg.imemBytes) ∧
      ¬ (0x800000 ≤ 4 * index.toNat ∧ 4 * index.toNat < 0x800000 + s0.cfg.dmemBytes))) = true := by decide +kernel

/-- A tile with everything written, in a reset that is asserted and in none. -/
def sHeld : State := { sInv with resetAsserted := true }

theorem witness_ResetLeavesTheTileIdle :
    (sHeld.resetAsserted = true ∧ ∃ t, step { sHeld with host := [.releaseReset] } = .next t ∧ decide (t.host = []) = true) ∧
    sInv.resetAsserted = false ∧
    (sHeld.TileMoves sHeld ∧ State.TileMoves { sHeld with host := [.wait] } sHeld) ∧
    ({ sHeld with host := [.write 0 1, .read 1, .releaseReset] } : State).host = [.write 0 1, .read 1, .releaseReset] ∧
    ({ sInv with host := [.assertReset] } : State).host = .assertReset :: [] :=
  ⟨⟨rfl, next_with _ (by decide +kernel)⟩, rfl, ⟨.inl ⟨rfl, rfl⟩, .inr ⟨_, rfl, rfl⟩⟩, rfl, rfl⟩

/-- L3-4: a faulted tile, restarted at the faulting instruction. -/
theorem witness_HostRestartsAFaultedTile :
    let s : State := { s0 with run := .faulted, epc := 8, cause := .dataMisaligned, host := [.write 5 8, .write 0 1] }
    s.resetAsserted = false ∧ s.run = .faulted ∧ s.epc.toNat % 4 = 0 ∧ s.host = .write 5 s.epc :: .write 0 1 :: [] := by decide

end Sys2Proof.Tests
end

/-! # The bit-matrix primitive and the AES field (00_scope.md R9 to R11)

`affine A`, `aesmul a` and `(aesmul · b)` commute with XOR, so each is known from its values on the eight bytes with one
bit set. Two such maps are equal when they agree there: every law of the product but the inverse is proved so. -/

section
namespace Sys2Proof.Machine

/-! ## Maps that commute with XOR -/

/-- `f` commutes with XOR: it is linear over GF(2). -/
def XorLinear {m n : Nat} (f : BitVec m → BitVec n) : Prop := ∀ x y, f (x ^^^ y) = f x ^^^ f y

namespace XorLinear

variable {l m n : Nat} {f g : BitVec m → BitVec n}

theorem id : XorLinear fun x : BitVec n => x := fun _ _ => rfl

theorem comp {h : BitVec n → BitVec l} (hh : XorLinear h) (hf : XorLinear f) : XorLinear fun x => h (f x) :=
  fun x y => by simp only [hf x y, hh (f x)]

theorem xor (hf : XorLinear f) (hg : XorLinear g) : XorLinear fun x => f x ^^^ g x :=
  fun x y => by simp only [hf x y, hg x y]; ac_rfl

/-- A constant taken when one bit of the argument is set. -/
theorem ite_getLsbD (i : Nat) (c : BitVec n) : XorLinear fun x : BitVec m => if x.getLsbD i then c else 0 := fun x y => by
  cases hx : x.getLsbD i <;> cases hy : y.getLsbD i <;> simp [hx, hy]

theorem shiftLeft (i : Nat) : XorLinear fun x : BitVec n => x <<< i := fun x y => BitVec.shiftLeft_xor_distrib x y i

theorem setWidth : XorLinear fun x : BitVec m => x.setWidth n := fun _ _ => BitVec.setWidth_xor

theorem map_zero (hf : XorLinear f) : f 0 = 0 := by
  have h : f 0 = f 0 ^^^ f 0 := by simpa using hf 0 0
  simpa using h

theorem map_xorUpTo (hf : XorLinear f) (t : Nat → BitVec m) (k : Nat) : f (xorUpTo t k) = xorUpTo (fun i => f (t i)) k := by
  induction k with
  | zero => exact hf.map_zero
  | succ k ih => rw [xorUpTo, xorUpTo, hf, ih]

/-- The XOR of linear maps is linear. -/
theorem xorUpTo_apply {t : Nat → BitVec m → BitVec n} (k : Nat) (ht : ∀ i, XorLinear (t i)) :
    XorLinear fun x => xorUpTo (fun i => t i x) k := fun x y => by
  rw [← xorUpTo_xor]
  exact xorUpTo_congr _ _ k fun i _ => ht i x y

end XorLinear

theorem getLsbD_xorUpTo_twoPow {n : Nat} (x : BitVec n) (k i : Nat) :
    (xorUpTo (fun j => if x.getLsbD j then BitVec.twoPow n j else 0) k).getLsbD i = (decide (i < k) && x.getLsbD i) := by
  induction k with
  | zero => simp [xorUpTo]
  | succ k ih =>
    rw [xorUpTo, BitVec.getLsbD_xor, ih]
    by_cases hik : i = k
    · subst hik
      cases hx : x.getLsbD i
      · simp
      · simp [BitVec.lt_of_getLsbD hx]
    · have hbit : (if x.getLsbD k then BitVec.twoPow n k else 0).getLsbD i = false := by
        split <;> simp [BitVec.getLsbD_twoPow, Ne.symm hik]
      rw [hbit, Bool.xor_false, show decide (i < k + 1) = decide (i < k) by rw [decide_eq_decide]; omega]

/-- A value is the XOR of its bits. -/
theorem xorUpTo_twoPow {n : Nat} (x : BitVec n) : xorUpTo (fun j => if x.getLsbD j then BitVec.twoPow n j else 0) n = x :=
  BitVec.eq_of_getLsbD_eq fun i hi => by rw [getLsbD_xorUpTo_twoPow, decide_eq_true hi, Bool.true_and]

/-- A linear map is the XOR of its values on the bits that are set. -/
theorem XorLinear.eq_xorUpTo {m n : Nat} {f : BitVec m → BitVec n} (hf : XorLinear f) (x : BitVec m) :
    f x = xorUpTo (fun k => if x.getLsbD k then f (BitVec.twoPow m k) else 0) m := by
  conv_lhs => rw [← xorUpTo_twoPow x]
  rw [hf.map_xorUpTo]
  refine xorUpTo_congr _ _ m fun k _ => ?_
  split
  · rfl
  · exact hf.map_zero

/-- Linear maps that agree on the values with one bit set are equal. -/
theorem XorLinear.ext {m n : Nat} {f g : BitVec m → BitVec n} (hf : XorLinear f) (hg : XorLinear g)
    (h : ∀ k < m, f (BitVec.twoPow m k) = g (BitVec.twoPow m k)) (x : BitVec m) : f x = g x := by
  rw [hf.eq_xorUpTo, hg.eq_xorUpTo]
  exact xorUpTo_congr _ _ m fun k hk => by rw [h k hk]

/-! ## `parity` and `affine` (R9, R10) -/

theorem parity_eq_foldl (u : Byte) : parity u = ((List.range 8).map u.getLsbD).foldl xor false := by
  simp [parity, List.range_succ]

theorem foldl_xor_map_xor (l : List Nat) (p q : Nat → Bool) (a b : Bool) :
    (l.map fun k => p k ^^ q k).foldl xor (a ^^ b) = ((l.map p).foldl xor a ^^ (l.map q).foldl xor b) := by
  induction l generalizing a b with
  | nil => rfl
  | cons k l ih =>
    have hswap : ((a ^^ b) ^^ (p k ^^ q k)) = ((a ^^ p k) ^^ (b ^^ q k)) := by
      rw [Bool.xor_assoc, Bool.xor_left_comm b, ← Bool.xor_assoc]
    simp only [List.map_cons, List.foldl_cons, hswap, ih]

theorem parity_xor (u v : Byte) : parity (u ^^^ v) = (parity u ^^ parity v) := by
  simp only [parity_eq_foldl, ← foldl_xor_map_xor, Bool.xor_false]
  exact congrArg (List.foldl xor false) (List.map_congr_left fun _ _ => BitVec.getLsbD_xor)

theorem parity_and_twoPow (u : Byte) (k : Nat) (hk : k < 8) : parity (u &&& BitVec.twoPow 8 k) = u.getLsbD k := by
  rw [BitVec.and_twoPow]
  cases u.getLsbD k
  · simp [parity]
  · revert k; decide

theorem and_xor_distrib {n : Nat} (u x y : BitVec n) : u &&& (x ^^^ y) = (u &&& x) ^^^ (u &&& y) :=
  BitVec.eq_of_toNat_eq (by simp [Nat.and_xor_distrib_left])

theorem getLsbD_affine (A : Mat) (y : Byte) (r : Nat) (hr : r < 8) :
    (affine A y).getLsbD r = parity (byteAt A (7 - r) &&& y) := by
  rw [affine, getLsbD_ofBits, decide_eq_true hr, Bool.true_and]

theorem xorLinear_affine (A : Mat) : XorLinear (affine A) := fun y z =>
  BitVec.eq_of_getLsbD_eq fun r hr => by
    rw [BitVec.getLsbD_xor, getLsbD_affine _ _ _ hr, getLsbD_affine _ _ _ hr, getLsbD_affine _ _ _ hr, ← parity_xor,
      and_xor_distrib]

/-- Column `k` of the matrix: what `affine` makes of the byte with bit `k` set. -/
theorem getLsbD_affine_twoPow (A : Mat) (r k : Nat) (hr : r < 8) (hk : k < 8) :
    (affine A (BitVec.twoPow 8 k)).getLsbD r = A.getLsbD (8 * (7 - r) + k) := by
  rw [getLsbD_affine _ _ _ hr, parity_and_twoPow _ _ hk, getLsbD_laneAt]
  simp [hk]

/-- A matrix is determined by its map: bit `i` is row `7 - i / 8`, column `i % 8`. -/
theorem affine_injective (A B : Mat) (h : ∀ y, affine A y = affine B y) : A = B :=
  BitVec.eq_of_getLsbD_eq fun i hi => by
    have hbit : 8 * (7 - (7 - i / 8)) + i % 8 = i := by omega
    have hcol := getLsbD_affine_twoPow (r := 7 - i / 8) (k := i % 8) (hr := by omega) (hk := by omega)
    rw [← hbit, ← hcol A, ← hcol B, h]

theorem affine_identity (y : Byte) : affine 0x0102040810204080 y = y :=
  (xorLinear_affine _).ext .id (by decide) y

/-- Settles O44: each row is a parity, and the map determines the matrix. -/
theorem affinePrimitiveIsTheMatrixProduct : Obligations.AffinePrimitiveIsTheMatrixProduct := by
  refine ⟨fun A y r hr => ?_, fun A => ⟨fun h => ?_, fun h => ?_⟩⟩
  · rw [getLsbD_affine _ _ _ hr, parity_eq_foldl]
    congr 1
    refine List.map_congr_left fun k hk => ?_
    rw [BitVec.getLsbD_and, getLsbD_laneAt, decide_eq_true (List.mem_range.1 hk), Bool.true_and]
  · exact affine_injective _ _ fun y => by rw [h, affine_identity]
  · exact h ▸ affine_identity

/-! ## The AES product (R11) -/

theorem reduceAt_eq_xor (k : Nat) (u : BitVec 16) :
    reduceAt k u = u ^^^ (if u.getLsbD (8 + k) then 0x11B#16 <<< k else 0) := by
  unfold reduceAt
  split <;> simp

theorem xorLinear_reduceAt (k : Nat) : XorLinear (reduceAt k) := by
  rw [funext (reduceAt_eq_xor k)]
  exact XorLinear.id.xor (.ite_getLsbD _ _)

theorem xorLinear_reduceAes : XorLinear reduceAes :=
  XorLinear.setWidth.comp <| (xorLinear_reduceAt 0).comp <| (xorLinear_reduceAt 1).comp <| (xorLinear_reduceAt 2).comp <|
    (xorLinear_reduceAt 3).comp <| (xorLinear_reduceAt 4).comp <| (xorLinear_reduceAt 5).comp <| xorLinear_reduceAt 6

theorem xorLinear_polyMul_left (b : Byte) : XorLinear (polyMul · b) :=
  .xorUpTo_apply 8 fun i => by
    cases b.getLsbD i
    · exact fun _ _ => by simp
    · exact (XorLinear.shiftLeft i).comp .setWidth

theorem xorLinear_polyMul_right (a : Byte) : XorLinear (polyMul a) := .xorUpTo_apply 8 fun i => .ite_getLsbD i _

theorem xorLinear_aesmul_left (b : Byte) : XorLinear (aesmul · b) := xorLinear_reduceAes.comp (xorLinear_polyMul_left b)

theorem xorLinear_aesmul_right (a : Byte) : XorLinear (aesmul a) := xorLinear_reduceAes.comp (xorLinear_polyMul_right a)

theorem xor_aesmul (a b c : Byte) : aesmul (a ^^^ b) c = aesmul a c ^^^ aesmul b c := xorLinear_aesmul_left c a b

theorem aesmul_xor (a b c : Byte) : aesmul a (b ^^^ c) = aesmul a b ^^^ aesmul a c := xorLinear_aesmul_right a b c

/-- X^j · X^k = X^k · X^j. -/
theorem aesmul_twoPow_comm : ∀ j < 8, ∀ k < 8,
    aesmul (.twoPow 8 j) (.twoPow 8 k) = aesmul (.twoPow 8 k) (.twoPow 8 j) := by decide +kernel

theorem aesmul_comm (a b : Byte) : aesmul a b = aesmul b a :=
  (xorLinear_aesmul_left b).ext (xorLinear_aesmul_right b) (fun j hj =>
    (xorLinear_aesmul_right _).ext (xorLinear_aesmul_left _) (aesmul_twoPow_comm j hj) b) a

theorem aesmul_zero (a : Byte) : aesmul a 0 = 0 := (xorLinear_aesmul_right a).map_zero

theorem aesmul_one (a : Byte) : aesmul a 1 = a := (xorLinear_aesmul_left 1).ext .id (by decide) a

/-- Multiplication by X: the shift, and the reduction by 0x11B of the bit shifted out. -/
theorem aesmul_two (a : Byte) : aesmul 0x02 a = (a <<< 1) ^^^ (if a.getLsbD 7 then 0x1B else 0) :=
  (xorLinear_aesmul_right 0x02).ext ((XorLinear.shiftLeft 1).xor (.ite_getLsbD 7 0x1B)) (by decide) a

/-! ### Associativity: for the factor X, then for its powers, then for every byte -/

theorem aesmul_two_assoc_twoPow : ∀ j < 8, ∀ k < 8,
    aesmul (aesmul 0x02 (.twoPow 8 j)) (.twoPow 8 k) = aesmul 0x02 (aesmul (.twoPow 8 j) (.twoPow 8 k)) := by
  decide +kernel

theorem aesmul_two_assoc (b c : Byte) : aesmul (aesmul 0x02 b) c = aesmul 0x02 (aesmul b c) :=
  ((xorLinear_aesmul_left c).comp (xorLinear_aesmul_right _)).ext
    ((xorLinear_aesmul_right _).comp (xorLinear_aesmul_left c)) (fun j hj =>
      (xorLinear_aesmul_right _).ext ((xorLinear_aesmul_right _).comp (xorLinear_aesmul_right _))
        (aesmul_two_assoc_twoPow j hj) c) b

theorem aesmul_two_twoPow : ∀ k < 7, aesmul 0x02 (.twoPow 8 k) = .twoPow 8 (k + 1) := by decide

theorem aesmul_twoPow_assoc (b c : Byte) (k : Nat) (hk : k < 8) :
    aesmul (aesmul (.twoPow 8 k) b) c = aesmul (.twoPow 8 k) (aesmul b c) := by
  induction k with
  | zero =>
    have hone (y : Byte) : aesmul (.twoPow 8 0) y = y := (aesmul_comm _ y).trans (aesmul_one y)
    rw [hone, hone]
  | succ k ih =>
    rw [← aesmul_two_twoPow k (by omega), aesmul_two_assoc, aesmul_two_assoc, ih (by omega), ← aesmul_two_assoc]

theorem aesmul_assoc (a b c : Byte) : aesmul (aesmul a b) c = aesmul a (aesmul b c) :=
  ((xorLinear_aesmul_left c).comp (xorLinear_aesmul_left b)).ext (xorLinear_aesmul_left _) (aesmul_twoPow_assoc b c) a

/-! ## The inverse (R11, log 13)

Squaring is linear, so a^256 = a needs a check of eight bytes only. Then e = a · a^254 has a · e = a and e · e = e, and the
only bytes with e · e = e are 0 and 1. -/

theorem xorLinear_square : XorLinear fun a => aesmul a a := fun a b => by
  have hcross : aesmul a b ^^^ aesmul b a = 0#8 := by rw [aesmul_comm a b, BitVec.xor_self]
  calc aesmul (a ^^^ b) (a ^^^ b)
      = (aesmul a a ^^^ aesmul b a) ^^^ (aesmul a b ^^^ aesmul b b) := by
        rw [aesmul_xor, xor_aesmul, xor_aesmul]
    _ = aesmul a a ^^^ aesmul b b ^^^ (aesmul a b ^^^ aesmul b a) := by ac_rfl
    _ = aesmul a a ^^^ aesmul b b := by rw [hcross, BitVec.xor_zero]

theorem xorLinear_aesFrobenius (n : Nat) : XorLinear (aesFrobenius · n) := by
  induction n with
  | zero => exact .id
  | succ n ih => exact xorLinear_square.comp ih

theorem aesFrobenius_eight (a : Byte) : aesFrobenius a 8 = a :=
  (xorLinear_aesFrobenius 8).ext .id (by decide +kernel) a

/-- a^2 · (a^2 ⋯ a^(2^n)) = a^(2^(n+1)). -/
theorem aesmul_aesPowers (a : Byte) (n : Nat) : aesmul (aesmul a a) (aesPowers a n) = aesFrobenius a (n + 1) := by
  induction n with
  | zero => exact aesmul_one _
  | succ n ih => rw [aesPowers, ← aesmul_assoc, ih]; rfl

theorem aesmul_aesmul_aesinv (a : Byte) : aesmul a (aesmul a (aesinv a)) = a := by
  rw [← aesmul_assoc, aesinv, aesmul_aesPowers, aesFrobenius_eight]

theorem eq_zero_or_one_of_aesmul_self : ∀ e : Byte, aesmul e e = e → e = 0 ∨ e = 1 := by decide +kernel

theorem aesmul_aesinv (a : Byte) (ha : a ≠ 0) : aesmul a (aesinv a) = 1 := by
  have hidem : aesmul (aesmul a (aesinv a)) (aesmul a (aesinv a)) = aesmul a (aesinv a) := by
    rw [aesmul_assoc, aesmul_comm (aesinv a), ← aesmul_assoc, aesmul_aesmul_aesinv]
  refine (eq_zero_or_one_of_aesmul_self _ hidem).resolve_left fun hzero => ha ?_
  rw [← aesmul_aesmul_aesinv a, hzero, aesmul_zero]

theorem aesinv_zero : aesinv 0 = 0 := by
  have hzero : aesFrobenius 0 7 = 0 := (xorLinear_aesFrobenius 7).map_zero
  rw [aesinv, aesPowers, hzero, aesmul_zero]

/-- Settles O45: the laws of the product are checked on powers of X, and extend to every byte by linearity. -/
theorem aesFieldLaws : Obligations.AesFieldLaws :=
  ⟨aesmul_comm, aesmul_xor, aesmul_assoc, fun a => ⟨aesmul_one a, aesmul_zero a⟩, aesmul_two, aesinv_zero,
    aesmul_aesinv⟩

end Sys2Proof.Machine
end

/-! # The state: control registers, reset, the invariant, and what an instruction writes (10_state.md)

The moves of the host and the platform have one equation each; the invariant is kept by every update of the state, so by every
step; and what instructions write is read off the shapes of a next state (`exec_shape`). -/

section
namespace Sys2Proof.Machine

/-! ## The moves of the host and the platform (60_exceptions.md R226, log 8) -/

section
variable {s : State} {index : BitVec 22} {value : Word} {rest : List HostMove}

theorem step_of_write (h : s.host = .write index value :: rest) :
    step s = .next (State.hostWrite { s with host := rest } index value) := by
  simp only [step, nextMove, h]

theorem step_of_read (h : s.host = .read index :: rest) :
    step s = .next (State.answerRead { s with host := rest } index) := by
  simp only [step, nextMove, h]

theorem step_of_assertReset (h : s.host = .assertReset :: rest) :
    step s = .next (State.assertReset { s with host := rest }) := by
  simp only [step, nextMove, h]

theorem step_of_releaseReset (h : s.host = .releaseReset :: rest) :
    step s = .next (State.releaseReset { s with host := rest }) := by
  simp only [step, nextMove, h]

end

/-! ## CTRL (10_state.md R27) -/

section
variable {s : State}

theorem ctrlAbort_of_not_running (h : s.run ≠ .running) (withStart : Bool) : s.ctrlAbort withStart = s := if_neg h

theorem ctrlAbort_of_running (h : s.run = .running) (withStart : Bool) :
    s.ctrlAbort withStart = if withStart then s.takeAbort else { s with abortLatch := true } := if_pos h

theorem ctrlAck_of_stopped (h : s.run = .halted ∨ s.run = .faulted) : s.ctrlAck = { s with run := .idle } := if_pos h

theorem ctrlAck_of_not_stopped (h : s.run = .running ∨ s.run = .idle) : s.ctrlAck = s :=
  if_neg (by rcases h with h | h <;> simp [h])

theorem ctrlStart_of_running (h : s.run = .running) : s.ctrlStart = s := if_pos h

theorem ctrlStart_of_not_running (h : s.run ≠ .running) : s.ctrlStart = s.start := if_neg h

/-- START overwrites the STATE that an ACK of the same write leaves. -/
theorem ctrlStart_ctrlAck (h : s.run ≠ .running) : s.ctrlAck.ctrlStart = s.start := by
  unfold State.ctrlAck
  split
  · rfl
  · exact ctrlStart_of_not_running h

theorem writeCtrl_of_running (h : s.run = .running) (value : Word) :
    s.writeCtrl value =
      if value.getLsbD 1 then (if value.getLsbD 0 then s.takeAbort.start else { s with abortLatch := true }) else s := by
  have hack {t : State} (ht : t.run = .running ∨ t.run = .idle) : (if value.getLsbD 2 then t.ctrlAck else t) = t := by
    rw [ctrlAck_of_not_stopped ht, ite_self]
  unfold State.writeCtrl
  dsimp only
  rw [ctrlAbort_of_running h]
  cases value.getLsbD 1 with
  | false => simp only [Bool.false_eq_true, if_false, hack (.inl h), ctrlStart_of_running h, ite_self]
  | true =>
    cases value.getLsbD 0 with
    | false => exact hack (.inl h)
    | true => exact (congrArg State.ctrlStart (hack (.inr rfl))).trans (ctrlStart_of_not_running nofun)

theorem writeCtrl_of_not_running (h : s.run ≠ .running) (value : Word) :
    s.writeCtrl value =
      if value.getLsbD 0 then s.start else if value.getLsbD 2 then s.ctrlAck else s := by
  simp only [State.writeCtrl, ctrlAbort_of_not_running h, ite_self]
  cases value.getLsbD 2 with
  | false => simp [ctrlStart_of_not_running h]
  | true => simp [ctrlStart_ctrlAck h]

end

/-- Out of reset, a write of the word at index 0 of the window is a write of CTRL. -/
theorem hostWrite_ctrl {s : State} (hreset : s.resetAsserted = false) (value : Word) :
    s.hostWrite 0 value = s.writeCtrl value := by
  rw [hostWrite_out_of_reset hreset]; rfl

/-- Settles O56: STATE decides which of the three commands of the write act. -/
theorem controlRegisterCommands : Obligations.ControlRegisterCommands := by
  intro s value rest hreset hhost
  have hstep : step s = .next (State.writeCtrl { s with host := rest } value) := by
    rw [step_of_write hhost, hostWrite_ctrl (s := { s with host := rest }) hreset]
  have running (h : s.run = .running) := writeCtrl_of_running (s := { s with host := rest }) h value
  have stopped (h : s.run ≠ .running) := writeCtrl_of_not_running (s := { s with host := rest }) h value
  refine ⟨_, hstep, (writeCtrl_keeps _ _).host, fun hstart hrun => ?_, fun hstart habort hrun => ?_,
    fun habort hstart hrun => ?_, fun habort hrun => ?_, fun hack hstart hrun => ?_, fun hack hstart hrun => ?_,
    fun hrun hstart => ?_⟩
  · rw [stopped hrun, if_pos hstart]; rfl
  · rw [running hrun, if_pos habort, if_pos hstart, hrun]; rfl
  · rw [running hrun, if_pos habort, hstart]; rfl
  · rw [running hrun, habort]; rfl
  · rw [stopped (by rcases hrun with h | h <;> simp [h]), hstart, if_pos hack]
    exact ctrlAck_of_stopped hrun
  · rw [stopped hrun, hstart, hack]; rfl
  · rw [stopped (by simp [hrun]), hstart, ctrlAck_of_not_stopped (s := { s with host := rest }) (.inr hrun), ite_self]
    rfl

/-! ## The register window (R28, 60_exceptions.md R225) -/

theorem windowPlace_register (c : Config) {index : BitVec 22} (h : index.toNat < 8) :
    windowPlace c index = .register (4 * index.toNat) := if_pos (by omega)

theorem windowPlace_reserved {c : Config} {index : BitVec 22} (hreg : 8 ≤ index.toNat)
    (himem : ¬ (0x400000 ≤ 4 * index.toNat ∧ 4 * index.toNat < 0x400000 + c.imemBytes))
    (hdmem : ¬ (0x800000 ≤ 4 * index.toNat ∧ 4 * index.toNat < 0x800000 + c.dmemBytes)) :
    windowPlace c index = .reserved := by
  rw [windowPlace, if_neg (by omega), if_neg himem, if_neg hdmem]

theorem hostRead_register {s : State} (hreset : s.resetAsserted = false) {index : BitVec 22} (h : index.toNat < 8) :
    (s.hostRead index).1 = s.readRegister (4 * index.toNat) := by
  rw [hostRead_out_of_reset hreset, windowPlace_register _ h]

theorem hostRead_reserved {s : State} (hreset : s.resetAsserted = false) {index : BitVec 22}
    (h : windowPlace s.cfg index = .reserved) : (s.hostRead index).1 = 0 := by
  rw [hostRead_out_of_reset hreset, h]

theorem done_iff (s : State) : s.done = true ↔ s.run = .halted ∨ s.run = .faulted := by
  simp [State.done]

/-- Settles O58: the first eight words of the window are the registers, and a word of no place reads 0. -/
theorem hostReadsTheControlRegisters : Obligations.HostReadsTheControlRegisters := by
  refine ⟨fun s hreset => ?_, done_iff, rfl, rfl, rfl, rfl⟩
  have hread {index : BitVec 22} (h : index.toNat < 8) := hostRead_register hreset h
  exact ⟨hread (by decide), hread (by decide), hread (by decide), hread (by decide), hread (by decide), hread (by decide),
    hread (by decide), hread (by decide),
    fun index hreg himem hdmem => hostRead_reserved hreset (windowPlace_reserved hreg himem hdmem)⟩

/-! ## Reset (10_state.md R31, 70_reset_and_hazards.md R240) -/

theorem releaseReset_of_asserted {s : State} (h : s.resetAsserted = true) : s.releaseReset = s.afterReset := if_pos h

theorem releaseReset_of_not_asserted {s : State} (h : s.resetAsserted = false) : s.releaseReset = s := if_neg (by simp [h])

theorem releaseReset_host (s : State) : s.releaseReset.host = s.host := by
  unfold State.releaseReset
  split <;> rfl

theorem tileStep_in_reset {s : State} (h : s.resetAsserted = true) : tileStep s = .next s := if_pos h

theorem answerRead_in_reset {s : State} (h : s.resetAsserted = true) (index : BitVec 22) :
    s.answerRead index = { s with hostReads := Config.freeWord s.draws :: s.hostReads, draws := s.draws + 1 } := by
  rw [State.answerRead, State.hostRead, if_pos h]; rfl

theorem State.TileMoves.resetAsserted {s u : State} (h : s.TileMoves u) : u.resetAsserted = s.resetAsserted := by
  obtain ⟨-, rfl⟩ | ⟨_, -, rfl⟩ := h <;> rfl

/-- `State.reset` and the state at the release of an asserted reset are R31's state of a tile with the same parameters. -/
theorem exists_afterReset {s t : State} (h : (s = State.reset ∧ t = s) ∨
    (s.resetAsserted = true ∧ ∃ rest, s.host = .releaseReset :: rest ∧ step s = .next t)) :
    ∃ u : State, u.cfg = s.cfg ∧ t = u.afterReset := by
  obtain ⟨rfl, rfl⟩ | ⟨hreset, rest, hhost, hstep⟩ := h
  · exact ⟨State.reset, rfl, rfl⟩
  · rw [step_of_releaseReset hhost] at hstep
    cases hstep
    exact ⟨{ s with host := rest }, rfl, releaseReset_of_asserted hreset⟩

/-- Settles O59: the values are those of `afterReset`, and under reset no move of the tile or the host acts. -/
theorem resetLeavesTheTileIdle : Obligations.ResetLeavesTheTileIdle := by
  refine ⟨fun s t h => ?_, fun s rest hhost => ?_, fun s rest hhost => step_of_assertReset hhost,
    fun s hreset => ⟨fun u hu => ?_, fun index value rest hhost => ?_, fun index rest hhost => ?_⟩⟩
  · obtain ⟨u, hcfg, rfl⟩ := exists_afterReset h
    exact ⟨hcfg, rfl, rfl, rfl, rfl, rfl, rfl, rfl, rfl, rfl, rfl, fun _ => ⟨rfl, rfl, rfl⟩⟩
  · exact ⟨_, step_of_releaseReset hhost, releaseReset_host _, fun h => releaseReset_of_not_asserted h⟩
  · rw [step_of_tileMoves hu, tileStep_in_reset (hu.resetAsserted.trans hreset)]
  · rw [step_of_write hhost, hostWrite_in_reset (s := { s with host := rest }) hreset]
  · rw [step_of_read hhost, answerRead_in_reset (s := { s with host := rest }) hreset]

/-! ## The invariant: reset meets it -/

theorem inv_resetWith (c : Config) : (State.resetWith c).Inv where
  pcAligned := rfl
  startPcAligned := rfl
  vectorWidth r := by
    rw [show (State.resetWith c).v[r.val] = 0#512 from Vector.getElem_replicate _, BitVec.toNat_zero]
    exact Nat.two_pow_pos _
  imemCanonical := .nil
  dmemCanonical := .nil
  gridCanonical := .nil
  imemBounded _ hp := absurd hp List.not_mem_nil
  dmemBounded _ hp := absurd hp List.not_mem_nil
  gridBounded _ hp := absurd hp List.not_mem_nil
  latchOnlyRunning h := nomatch h
  runningRecord h := nomatch h
  haltedRecord h := nomatch h
  faultedRecord h := nomatch h

/-- Settles O11: the registers hold 0 and the memories are empty. -/
theorem invariantHoldsAfterReset : Obligations.InvariantHoldsAfterReset := ⟨inv_resetWith, inv_resetWith _⟩

/-- The values of START_PC the host can store (R28). -/
theorem toNat_clearLowBits_mod_four (value : Word) : (value &&& 0xFFFFFFFC).toNat % 4 = 0 := by
  rw [BitVec.toNat_and, show 4 = 2 ^ 2 from rfl, Nat.and_mod_two_pow]
  exact Nat.and_zero _

/-! ## The invariant: every update of the state keeps it

`{ h with … }` gives the fields of the invariant that the update touches; the others are those of `h`. -/

namespace State.Inv

variable {s : State}

/-! ### The updates an instruction makes -/

theorem jump (h : s.Inv) (hrun : s.run = .running) {p : Word} (hp : p.toNat % 4 = 0) : (s.jump p).Inv :=
  { h with pcAligned := hp, haltedRecord := by simp [hrun], faultedRecord := by simp [hrun] }

theorem advance (h : s.Inv) (hrun : s.run = .running) : s.advance.Inv := h.jump hrun (aligned_add s.pc 1 h.pcAligned)

theorem setX (h : s.Inv) (r : XReg) (u : Word) : (s.setX r u).Inv := by
  unfold State.setX
  split
  · exact h
  · exact { h with }

theorem setFlag (h : s.Inv) (b : Bool) : (s.setFlag b).Inv := { h with }

theorem drawWide (h : s.Inv) : s.drawWide.2.Inv := { h with }

theorem setV (h : s.Inv) (r : VReg) (u : Wide) : (s.setV r u).Inv :=
  { h with
    vectorWidth := fun q => by
      simp only [setV_v, setV_cfg, Vector.getElem_set]
      split
      · rw [toNat_keep]; exact Nat.mod_lt _ (Nat.two_pow_pos _)
      · exact h.vectorWidth q }

theorem memWrite (h : s.Inv) (a n : Nat) (u : Wide) (hin : a + n ≤ s.cfg.dmemBytes) : (s.memWrite a n u).Inv :=
  { h with
    dmemCanonical := writeRange_wf _ _ _ _ h.dmemCanonical
    dmemBounded := writeRange_within _ _ _ _ _ h.dmemBounded hin }

theorem writeGrid (h : s.Inv) (g n : Nat) (f : Nat → Mat) (hin : g + n ≤ s.cfg.gridSize) : (s.writeGrid g n f).Inv :=
  { h with
    gridCanonical := writeRange_wf _ _ _ _ h.gridCanonical
    gridBounded := writeRange_within _ _ _ _ _ h.gridBounded hin }

theorem enterException (h : s.Inv) {e : Cause} (info : Word) (he : e ≠ .none) : (s.enterException e info).Inv :=
  { h with
    latchOnlyRunning := nofun
    runningRecord := nofun
    haltedRecord := nofun
    faultedRecord := fun _ => ⟨he, rfl⟩ }

theorem halt (h : s.Inv) (hrun : s.run = .running) : s.halt.Inv :=
  { h with
    latchOnlyRunning := nofun
    runningRecord := nofun
    haltedRecord := fun _ =>
      have ⟨hcause, _, hfinfo⟩ := h.runningRecord hrun
      ⟨hcause, hfinfo, rfl⟩
    faultedRecord := nofun }

/-- IDLE asks nothing of the record (10_state.md R27). -/
theorem enterIdle (h : s.Inv) (epc : Word) (latch : Bool) (hlatch : latch = false) :
    { s with epc := epc, run := .idle, abortLatch := latch }.Inv :=
  { h with latchOnlyRunning := by simp [hlatch], runningRecord := nofun, haltedRecord := nofun, faultedRecord := nofun }

theorem takeAbort (h : s.Inv) : s.takeAbort.Inv := h.enterIdle _ _ rfl

theorem start (h : s.Inv) : s.start.Inv :=
  { h with
    pcAligned := h.startPcAligned
    latchOnlyRunning := fun _ => rfl
    runningRecord := fun _ => ⟨rfl, rfl, rfl⟩
    haltedRecord := nofun
    faultedRecord := nofun }

theorem exec (h : s.Inv) (hrun : s.run = .running) {i : Instr} {t : State} (ht : exec i s = .next t) : t.Inv := by
  cases exec_shape ht with
  | trap _ info he => exact h.enterException info he
  | halt => exact h.halt hrun
  | jump k => exact h.jump hrun (aligned_add _ _ h.pcAligned)
  | stay => exact h.advance hrun
  | scalar d u => exact (h.setX d u).advance (by simpa)
  | vector d u => exact (h.setV d u).advance hrun
  | draw d => exact (h.drawWide.setV d _).advance hrun
  | flag b => exact (h.setFlag b).advance hrun
  | dmem _ u hin => exact (h.memWrite _ _ u hin).advance hrun
  | grid _ _ f hin => exact (h.writeGrid _ _ f hin).advance hrun

theorem tileStep (h : s.Inv) {t : State} (ht : tileStep s = .next t) : t.Inv := by
  obtain ⟨-, rfl⟩ | ⟨-, -, -, rfl⟩ | ⟨⟨-, hrun, -⟩, ⟨_, info, he, rfl⟩ | ⟨i, hi⟩⟩ := tileStep_cases ht
  · exact h
  · exact h.takeAbort
  · exact h.enterException info he
  · exact h.exec hrun hi

/-! ### The moves of the host and the platform -/

theorem abortLatch_eq_false (h : s.Inv) (hrun : s.run ≠ .running) : s.abortLatch = false :=
  Bool.eq_false_iff.2 fun hlatch => hrun (h.latchOnlyRunning hlatch)

theorem ctrlAck (h : s.Inv) : s.ctrlAck.Inv := by
  unfold State.ctrlAck
  split
  · rename_i hrun
    exact h.enterIdle s.epc s.abortLatch (h.abortLatch_eq_false (by rcases hrun with hr | hr <;> simp [hr]))
  · exact h

theorem writeCtrl (h : s.Inv) (value : Word) : (s.writeCtrl value).Inv := by
  by_cases hrun : s.run = .running
  · rw [writeCtrl_of_running hrun]
    split
    · split
      · exact h.takeAbort.start
      · exact { h with latchOnlyRunning := fun _ => hrun }
    · exact h
  · rw [writeCtrl_of_not_running hrun]
    split
    · exact h.start
    · split
      · exact h.ctrlAck
      · exact h

theorem writeStartPc (h : s.Inv) (value : Word) : (s.writeStartPc value).Inv := by
  unfold State.writeStartPc
  split
  · exact h
  · exact { h with startPcAligned := toNat_clearLowBits_mod_four value }

theorem hostWriteImem (h : s.Inv) (off : Nat) (value : Word) (hin : off + 4 ≤ s.cfg.imemBytes) :
    (s.hostWriteImem off value).Inv := by
  unfold State.hostWriteImem
  split
  · exact h
  · exact { h with
      imemCanonical := writeRange_wf _ _ _ _ h.imemCanonical
      imemBounded := writeRange_within _ _ _ _ _ h.imemBounded hin }

theorem hostWriteDmem (h : s.Inv) (off : Nat) (value : Word) (hin : off + 4 ≤ s.cfg.dmemBytes) :
    (s.hostWriteDmem off value).Inv := by
  unfold State.hostWriteDmem
  split
  · exact h
  · exact { h with
      dmemCanonical := writeRange_wf _ _ _ _ h.dmemCanonical
      dmemBounded := writeRange_within _ _ _ _ _ h.dmemBounded hin }

theorem hostWrite (h : s.Inv) (index : BitVec 22) (value : Word) : (s.hostWrite index value).Inv := by
  unfold State.hostWrite
  split
  · exact h
  · split
    · split
      · exact h.writeCtrl value
      · split
        · exact h.writeStartPc value
        · exact h
    · rename_i hplace; exact h.hostWriteImem _ value (windowPlace_imem hplace).2
    · rename_i hplace; exact h.hostWriteDmem _ value (windowPlace_dmem hplace).2
    · exact h

theorem answerRead (h : s.Inv) (index : BitVec 22) : (s.answerRead index).Inv := by
  obtain ⟨draws, u, heq⟩ := answerRead_eq s index
  rw [heq]
  exact { h with }

theorem assertReset (h : s.Inv) : s.assertReset.Inv := { h with }

theorem releaseReset (h : s.Inv) : s.releaseReset.Inv := by
  unfold State.releaseReset
  split
  · exact { inv_resetWith s.cfg with }
  · exact h

theorem withHost (h : s.Inv) (rest : List HostMove) : { s with host := rest }.Inv := { h with }

theorem step (h : s.Inv) {t : State} (ht : step s = .next t) : t.Inv := by
  obtain ⟨u, ⟨-, rfl⟩ | ⟨rest, -, rfl⟩, hu⟩ | ⟨index, value, rest, -, rfl⟩ | ⟨index, rest, -, rfl⟩ | ⟨rest, -, rfl⟩ |
    ⟨rest, -, rfl⟩ := step_cases ht
  · exact h.tileStep hu
  · exact (h.withHost rest).tileStep hu
  · exact (h.withHost rest).hostWrite index value
  · exact (h.withHost rest).answerRead index
  · exact (h.withHost rest).assertReset
  · exact (h.withHost rest).releaseReset

end State.Inv

/-- Settles O12: every update of the state keeps the invariant, and a step is made of those. -/
theorem everyStepKeepsTheInvariant : Obligations.EveryStepKeepsTheInvariant := fun _ _ h ht => h.step ht

/-! ## What an instruction writes, how it moves the pc (R20, R30), and where it stops (R31) -/

/-- Settles O15: the part each shape of a next state writes names the instruction; everything else is as before. -/
theorem onlyTheListedInstructionsWriteEachPart : Obligations.OnlyTheListedInstructionsWriteEachPart := by
  intro i s t h
  cases exec_shape h with
  | trap => simp
  | halt => simp
  | jump => simp
  | stay => simp
  | flag b hi => simp [hi]
  | dmem addr u hin hi => simp [hi]
  | grid g n f hin hi => simp [hi]
  | scalar d u hd =>
    refine ⟨by simp, fun r hr => ?_, by simp⟩
    rw [hd, not_imp_comm.1 (getX_setX_other s d r u) hr]
  | vector d u hd =>
    refine ⟨fun r hr => ?_, by simp⟩
    rw [hd, not_imp_comm.1 (getV_setV_other s d r u) hr]
  | draw d hi =>
    refine ⟨fun r hr => ?_, fun r hr => absurd rfl hr, by simp [State.drawWide]⟩
    rw [hi, not_imp_comm.1 (getV_setV_other s.drawWide.2 d r s.drawWide.1) hr]
    rfl

/-- Settles O18: a RUNNING tile that stays RUNNING jumped by `4 * k` or advanced. -/
theorem pcMovesByWholeInstructions : Obligations.PcMovesByWholeInstructions := by
  intro i s t hrun h hrun'
  have advanced {p : Word} (hp : p = s.pc + 4) : (transfersControl i = false → p = s.pc + 4) ∧ ∃ k, p = s.pc + 4 * k :=
    ⟨fun _ => hp, 1, hp⟩
  cases exec_shape h with
  | trap => nomatch hrun'
  | halt => nomatch hrun'
  | jump k hi => exact ⟨fun hi' => by simp [hi] at hi', k, rfl⟩
  | scalar d u => exact advanced (by simp)
  | stay => exact advanced rfl
  | vector => exact advanced rfl
  | draw => exact advanced rfl
  | flag => exact advanced rfl
  | dmem => exact advanced rfl
  | grid => exact advanced rfl

theorem exists_read_none_of_not_written {α : Type} {m : Memory α} {a n : Nat} (h : Memory.written m a n = false) :
    ∃ k, k < n ∧ Memory.read m (a + k) = none := by
  rw [Bool.eq_false_iff, ne_eq, written_iff] at h
  simpa using h

/-- `UninitRead` (10_state.md R31): the instruction reads a range in which some cell has not been written, and the fault
names the start of the range. -/
inductive UnwrittenRead (s : State) : Instr → Fault → Prop where
  | vld (d : VReg) (a : XReg) (imm14 : BitVec 14)
      (h : Memory.written s.dmem (s.effectiveAddress a imm14).toNat s.cfg.word.bytes = false) :
      UnwrittenRead s (.vld d a imm14) (.uninitDmem (s.effectiveAddress a imm14).toNat)
  | gbuild (a : XReg) (lgN : BitVec 3) (g : BitVec 11)
      (h : Memory.written s.dmem (s.getX a).toNat (8 * widthN lgN * widthN lgN) = false) :
      UnwrittenRead s (.gbuild a lgN g) (.uninitDmem (s.getX a).toNat)
  | affg (d a : VReg) (g : BitVec 11) (h : Memory.written s.grid g.toNat 1 = false) :
      UnwrittenRead s (.affg d a g) (.uninitGrid g.toNat)
  | grd (d : VReg) (g : BitVec 11) (h : Memory.written s.grid g.toNat 1 = false) :
      UnwrittenRead s (.grd d g) (.uninitGrid g.toNat)
  | xform (d a : VReg) (lgN : BitVec 3) (g : BitVec 11)
      (h : Memory.written s.grid g.toNat (widthN lgN * widthN lgN) = false) :
      UnwrittenRead s (.xform d a lgN g) (.uninitGrid g.toNat)

/-- The result is a next state, or a fault of which `P` holds. -/
def NextOrFault (P : Fault → Prop) (r : Result) : Prop := (∃ t, r = .next t) ∨ ∃ f, r = .fault f ∧ P f

section
variable {P : Fault → Prop}

theorem NextOrFault.next {t : State} : NextOrFault P (.next t) := .inl ⟨t, rfl⟩

theorem NextOrFault.fault {f : Fault} (h : P f) : NextOrFault P (.fault f) := .inr ⟨f, rfl, h⟩

theorem NextOrFault.ite {c : Prop} [Decidable c] {r r' : Result} (h : NextOrFault P r) (h' : NextOrFault P r') :
    NextOrFault P (if c then r else r') := by
  split
  · exact h
  · exact h'

/-- A read that is guarded as `UninitRead` asks: it faults where the range is not all written. -/
theorem NextOrFault.guarded {written : Bool} {f : Fault} {t : State} (h : written = false → P f) :
    NextOrFault P (if !written then .fault f else .next t) := by
  cases written with
  | false => exact .fault (h rfl)
  | true => exact .next

end

/-- An instruction answers a next state or stops on an unwritten cell of the range it reads. -/
theorem exec_nextOrFault (i : Instr) (s : State) : NextOrFault (UnwrittenRead s i) (exec i s) := by
  cases i with
  | vld d a imm14 => exact .ite .next (.ite .next (.guarded (.vld d a imm14)))
  | gbuild a lgN g => exact .ite .next (.ite .next (.ite .next (.guarded (.gbuild a lgN g))))
  | affg d a g => exact .ite .next (.guarded (.affg d a g))
  | grd d g => exact .ite .next (.guarded (.grd d g))
  | xform d a lgN g => exact .ite .next (.ite .next (.guarded (.xform d a lgN g)))
  | csrr => exact .ite .next .next
  | vmask => exact .ite .next .next
  | vblend => exact .ite .next .next
  | gwr => exact .ite .next .next
  | vst => exact .ite .next (.ite .next .next)
  | vfillx => exact .ite .next (.ite .next .next)
  | _ => exact .next

/-- Settles O19: a range that is not all written holds an unwritten cell. -/
theorem instructionsStopOnlyOnUnwrittenCells : Obligations.InstructionsStopOnlyOnUnwrittenCells := by
  intro i s
  obtain ⟨t, ht⟩ | ⟨f, hf, hread⟩ := exec_nextOrFault i s
  · simp [ht]
  · refine ⟨by simp [hf], fun f' hf' => ?_⟩
    obtain rfl : f = f' := by simpa [hf] using hf'
    cases hread with
    | vld d a imm14 h => exact .inl ⟨d, a, imm14, rfl, rfl, exists_read_none_of_not_written h⟩
    | gbuild a lgN g h => exact .inr (.inl ⟨a, lgN, g, rfl, rfl, exists_read_none_of_not_written h⟩)
    | affg d a g h =>
      exact .inr (.inr (.inl ⟨g, .inl ⟨d, a, rfl⟩, rfl, by simpa using exists_read_none_of_not_written h⟩))
    | grd d g h => exact .inr (.inr (.inl ⟨g, .inr ⟨d, rfl⟩, rfl, by simpa using exists_read_none_of_not_written h⟩))
    | xform d a lgN g h => exact .inr (.inr (.inr ⟨d, a, lgN, g, rfl, rfl, exists_read_none_of_not_written h⟩))

/-- Settles O20: the three laws of `getX` after `setX`. -/
theorem scalarZeroIsHardwired : Obligations.ScalarZeroIsHardwired :=
  ⟨getX_zero, setX_zero, fun s r u hr => ⟨by simp [getX_setX, hr], fun q hq => getX_setX_other s r q u hq⟩⟩

end Sys2Proof.Machine
end

/-! # Memory and the host (20_memory.md R41, R53; 60_exceptions.md R225, R226)

While RUNNING the host reaches CTRL alone; outside it a word of the window is a register, a word of one memory, or reserved. -/

section
namespace Sys2Proof.Machine

/-! ## The places of the window (R225) -/

section
variable {c : Config} {index : BitVec 22} {off : Nat}

/-- The registers lie at the offsets of their words (R225). -/
theorem eq_of_windowPlace_register (h : windowPlace c index = .register off) : off = 4 * index.toNat := by
  simp only [windowPlace] at h
  split at h
  · exact (WindowPlace.register.inj h).symm
  · split at h
    · cases h
    · split at h <;> cases h

/-- IMEM_BYTES is at most 2^22 (00_scope.md R5), so the window of IMEM ends where that of DMEM begins. -/
theorem imemBytes_le (c : Config) : c.imemBytes ≤ 0x400000 :=
  have hlog : 12 + c.imemSel.val ≤ 22 := by omega
  Nat.pow_le_pow_right (n := 2) (by decide) hlog

theorem windowPlace_of_imem (h : 4 * index.toNat = 0x400000 + off) (hoff : off < c.imemBytes) :
    windowPlace c index = .imem off := by
  rw [windowPlace, if_neg (by omega), if_pos (by omega), h, Nat.add_sub_cancel_left]

theorem windowPlace_of_dmem (h : 4 * index.toNat = 0x800000 + off) (hoff : off < c.dmemBytes) :
    windowPlace c index = .dmem off := by
  have himem := imemBytes_le c
  rw [windowPlace, if_neg (by omega), if_neg (by omega), if_pos (by omega), h, Nat.add_sub_cancel_left]

end

/-! ## Instructions do not write IMEM, and CTRL is the one word a RUNNING tile takes -/

/-- No shape of a next state writes IMEM (R41). -/
theorem exec_imem {i : Instr} {s t : State} (h : exec i s = .next t) : t.imem = s.imem := by
  cases exec_shape h with
  | scalar d u => simp
  | _ => rfl

theorem tileStep_imem {s t : State} (h : tileStep s = .next t) : t.imem = s.imem := by
  obtain ⟨-, rfl⟩ | ⟨-, -, -, rfl⟩ | ⟨-, ⟨_, _, -, rfl⟩ | ⟨i, hi⟩⟩ := tileStep_cases h
  · rfl
  · rfl
  · rfl
  · exact exec_imem hi

theorem State.TileMoves.imem {s u : State} (h : s.TileMoves u) : u.imem = s.imem := by
  obtain ⟨-, rfl⟩ | ⟨_, -, rfl⟩ := h <;> rfl

section
variable {s : State} {index : BitVec 22}

/-- R53: a RUNNING tile ignores every host write but one of CTRL. -/
theorem hostWrite_of_running (hrun : s.run = .running) (hindex : index ≠ 0) (value : Word) :
    s.hostWrite index value = s := by
  cases hreset : s.resetAsserted with
  | true => exact hostWrite_in_reset hreset index value
  | false =>
    rw [hostWrite_out_of_reset hreset]
    cases hplace : windowPlace s.cfg index with
    | register off =>
      have hctrl : off ≠ 0x000 := by rw [eq_of_windowPlace_register hplace]; bv_omega
      dsimp only
      rw [if_neg hctrl, State.writeStartPc, if_pos hrun, ite_self]
    | imem off => exact if_pos hrun
    | dmem off => exact if_pos hrun
    | reserved => rfl

theorem hostWrite_imem_of_running (hrun : s.run = .running) (index : BitVec 22) (value : Word) :
    (s.hostWrite index value).imem = s.imem := by
  by_cases hindex : index = 0
  · subst hindex
    cases hreset : s.resetAsserted with
    | true => rw [hostWrite_in_reset hreset]
    | false => rw [hostWrite_ctrl hreset, (writeCtrl_keeps s value).imem]
  · rw [hostWrite_of_running hrun hindex]

end

/-- Settles O14: the tile's step runs an instruction or leaves the memories alone, and while RUNNING a host write does not
reach IMEM. -/
theorem imemIsNotWrittenWhileRunning : Obligations.ImemIsNotWrittenWhileRunning := by
  refine ⟨fun _ _ _ => exec_imem, fun s t hrun hrelease hstep => ?_⟩
  obtain ⟨u, hu, ht⟩ | ⟨index, value, rest, -, rfl⟩ | ⟨index, rest, -, rfl⟩ | ⟨rest, -, rfl⟩ | ⟨rest, hhost, -⟩ :=
    step_cases hstep
  · exact (tileStep_imem ht).trans hu.imem
  · exact hostWrite_imem_of_running (s := { s with host := rest }) hrun index value
  · obtain ⟨draws, u, heq⟩ := answerRead_eq { s with host := rest } index
    rw [heq]
  · rfl
  · exact absurd hhost (hrelease rest)

/-! ## Host reads of the memories (R53) -/

section
variable {s : State} {index : BitVec 22} {off : Nat}

theorem hostReadMemory_of_running (hrun : s.run = .running) (m : List Host.Cell) (off : Nat) :
    s.hostReadMemory m off = s.drawWord := by
  simp only [State.hostReadMemory, if_pos hrun]

theorem hostReadMemory_of_not_running (hrun : s.run ≠ .running) (m : List Host.Cell) (off : Nat) :
    (s.hostReadMemory m off).1 = hostWord m off (Config.freeWord s.draws) := if_neg hrun

/-- While RUNNING a read of a word of either memory draws it, in reset and out of it. -/
theorem hostRead_of_running (hrun : s.run = .running)
    (hplace : (∃ off, windowPlace s.cfg index = .imem off) ∨ ∃ off, windowPlace s.cfg index = .dmem off) :
    s.hostRead index = s.drawWord := by
  cases hreset : s.resetAsserted with
  | true => exact if_pos hreset
  | false =>
    rw [hostRead_out_of_reset hreset]
    obtain ⟨off, h⟩ | ⟨off, h⟩ := hplace
    · rw [h]; exact hostReadMemory_of_running hrun _ _
    · rw [h]; exact hostReadMemory_of_running hrun _ _

theorem hostRead_imem (hreset : s.resetAsserted = false) (hrun : s.run ≠ .running)
    (hplace : windowPlace s.cfg index = .imem off) :
    (s.hostRead index).1 = hostWord s.imem off (Config.freeWord s.draws) := by
  rw [hostRead_out_of_reset hreset, hplace]; exact hostReadMemory_of_not_running hrun _ _

theorem hostRead_dmem (hreset : s.resetAsserted = false) (hrun : s.run ≠ .running)
    (hplace : windowPlace s.cfg index = .dmem off) :
    (s.hostRead index).1 = hostWord s.dmem off (Config.freeWord s.draws) := by
  rw [hostRead_out_of_reset hreset, hplace]; exact hostReadMemory_of_not_running hrun _ _

end

/-! ## Host writes outside RUNNING (R226, R28) -/

section
variable {s : State} {index : BitVec 22} {off : Nat}

theorem hostWrite_startPc (hreset : s.resetAsserted = false) (hrun : s.run ≠ .running) (value : Word) :
    s.hostWrite 5 value = { s with startPc := value &&& 0xFFFFFFFC } := by
  rw [hostWrite_out_of_reset hreset]; exact if_neg hrun

/-- A register other than CTRL and START_PC is read-only (R28). -/
theorem hostWrite_readOnly (hreset : s.resetAsserted = false) (hreg : index.toNat < 8) (hctrl : index ≠ 0)
    (hstart : index ≠ 5) (value : Word) : s.hostWrite index value = s := by
  have hctrl' : 4 * index.toNat ≠ 0x000 := by bv_omega
  have hstart' : 4 * index.toNat ≠ 0x014 := by bv_omega
  rw [hostWrite_out_of_reset hreset, windowPlace_register _ hreg]
  dsimp only
  rw [if_neg hctrl', if_neg hstart']

theorem hostWrite_reserved (hreset : s.resetAsserted = false) (hplace : windowPlace s.cfg index = .reserved)
    (value : Word) : s.hostWrite index value = s := by
  rw [hostWrite_out_of_reset hreset, hplace]

theorem hostWrite_imem (hreset : s.resetAsserted = false) (hrun : s.run ≠ .running)
    (hplace : windowPlace s.cfg index = .imem off) (value : Word) :
    s.hostWrite index value = { s with imem := Memory.writeRange s.imem off (byteAt value) 4 } := by
  rw [hostWrite_out_of_reset hreset, hplace]; exact if_neg hrun

theorem hostWrite_dmem (hreset : s.resetAsserted = false) (hrun : s.run ≠ .running)
    (hplace : windowPlace s.cfg index = .dmem off) (value : Word) :
    s.hostWrite index value = { s with dmem := Memory.writeRange s.dmem off (byteAt value) 4 } := by
  rw [hostWrite_out_of_reset hreset, hplace]; exact if_neg hrun

/-- The host's next read of a word of IMEM is what it has just written there. -/
theorem hostRead_hostWrite_imem (hreset : s.resetAsserted = false) (hrun : s.run ≠ .running)
    (hplace : windowPlace s.cfg index = .imem off) (value : Word) :
    ((s.hostWrite index value).hostRead index).1 = value := by
  rw [hostWrite_imem hreset hrun hplace,
    hostRead_imem (s := { s with imem := Memory.writeRange s.imem off (byteAt value) 4 }) hreset hrun hplace]
  exact hostWord_writeRange _ _ _ _

theorem hostRead_hostWrite_dmem (hreset : s.resetAsserted = false) (hrun : s.run ≠ .running)
    (hplace : windowPlace s.cfg index = .dmem off) (value : Word) :
    ((s.hostWrite index value).hostRead index).1 = value := by
  rw [hostWrite_dmem hreset hrun hplace,
    hostRead_dmem (s := { s with dmem := Memory.writeRange s.dmem off (byteAt value) 4 }) hreset hrun hplace]
  exact hostWord_writeRange _ _ _ _

end

/-- A write of a range sets its cells and leaves the others. -/
theorem read_writeRange_cases {α : Type} (m : Memory α) (a n : Nat) (f : Nat → α) :
    (∀ k, k < n → (Memory.writeRange m a f n).read (a + k) = some (f k)) ∧
      ∀ b, ¬ (a ≤ b ∧ b < a + n) → (Memory.writeRange m a f n).read b = Memory.read m b :=
  ⟨fun k hk => read_writeRange_inside m a n k f hk, fun b hb => by rw [read_writeRange, if_neg hb]⟩

/-- Settles O57: STATE, and outside RUNNING the place of the word in the window, decide what an access does. -/
theorem hostAndTileNeverShareMemory : Obligations.HostAndTileNeverShareMemory := by
  refine ⟨fun s index value rest hrun hindex hhost => ?_, fun s index rest hrun hwindow hhost => ?_,
    fun s index value rest hrun hreset hhost => ?_⟩
  · rw [step_of_write hhost, hostWrite_of_running (s := { s with host := rest }) hrun hindex]
  · have hplace : (∃ off, windowPlace s.cfg index = .imem off) ∨ ∃ off, windowPlace s.cfg index = .dmem off :=
      hwindow.imp (fun h => ⟨_, windowPlace_of_imem (Nat.add_sub_of_le h.1).symm (by omega)⟩)
        (fun h => ⟨_, windowPlace_of_dmem (Nat.add_sub_of_le h.1).symm (by omega)⟩)
    rw [step_of_read hhost, State.answerRead, hostRead_of_running (s := { s with host := rest }) hrun hplace]
    rfl
  · have hstep := step_of_write hhost
    have hrun' : State.run { s with host := rest } ≠ .running := hrun
    have hreset' : State.resetAsserted { s with host := rest } = false := hreset
    refine ⟨?_, fun hctrl hstart himem hdmem => ?_, fun off hindex hoff => ?_, fun off hindex hoff => ?_⟩
    · rintro rfl
      rw [hstep, hostWrite_startPc hreset' hrun']
    · rw [hstep]
      by_cases hreg : index.toNat < 8
      · rw [hostWrite_readOnly hreset' hreg hctrl hstart]
      · rw [hostWrite_reserved hreset' (windowPlace_reserved (by omega) himem hdmem)]
    · have hplace : windowPlace s.cfg index = .imem off := windowPlace_of_imem hindex hoff
      have hwrite := hostWrite_imem hreset' hrun' hplace value
      refine ⟨_, hstep, ?_, hostRead_hostWrite_imem hreset' hrun' hplace value, ?_⟩
      · rw [hwrite]
      · rw [hwrite]; exact read_writeRange_cases _ _ _ _
    · have hplace : windowPlace s.cfg index = .dmem off := windowPlace_of_dmem hindex hoff
      have hwrite := hostWrite_dmem hreset' hrun' hplace value
      refine ⟨_, hstep, ?_, hostRead_hostWrite_dmem hreset' hrun' hplace value, ?_⟩
      · rw [hwrite]
      · rw [hwrite]; exact read_writeRange_cases _ _ _ _

end Sys2Proof.Machine
end

/-! # The decoder and the encoder (30_encoding.md R61 to R71)

A packed word is known from its fields, so `decode` after `encode` reads the operands back, and a word that decodes is packed
again from the same fields. A row of the opcode table decides the words of its opcode: such a word is an instruction exactly
when its must-be-zero bits are 0 and the row's value condition holds. -/

section
namespace Sys2Proof

/-! ## A word is the packing of its fields (R61, R65) -/

section
variable {op : BitVec 6} {d a b : BitVec 4} {imm14 : BitVec 14} {imm22 : BitVec 22} {off26 : BitVec 26} {w : Word}

theorem pack_eq_iff :
    pack op d a b imm14 = w ↔ opOf w = op ∧ dOf w = d ∧ aOf w = a ∧ bOf w = b ∧ imm14Of w = imm14 := by
  constructor
  · rintro rfl; simp
  · rintro ⟨rfl, rfl, rfl, rfl, rfl⟩; exact pack_fields w

theorem packBranch_eq_iff : packBranch op d imm22 = w ↔ opOf w = op ∧ dOf w = d ∧ imm22Of w = imm22 := by
  constructor
  · rintro rfl; simp
  · rintro ⟨rfl, rfl, rfl⟩; exact packBranch_fields w

theorem packJump_eq_iff : packJump op off26 = w ↔ opOf w = op ∧ off26Of w = off26 := by
  constructor
  · rintro rfl; simp
  · rintro ⟨rfl, rfl⟩; exact packJump_fields w

theorem packJump_zero : ∀ op : BitVec 6, packJump op 0#26 = pack op 0 0 0 0 := by decide

theorem off26Of_eq_zero_iff : off26Of w = 0#26 ↔ dOf w = 0 ∧ aOf w = 0 ∧ bOf w = 0 ∧ imm14Of w = 0 := by
  have h : packJump (opOf w) 0#26 = w ↔ pack (opOf w) 0 0 0 0 = w := by rw [packJump_zero]
  rwa [packJump_eq_iff, pack_eq_iff, eq_self, true_and, true_and] at h

end

/-! ## The sub-fields of imm14 (R61)

A row with a sub-field of `k` bits has 0 in the bits of imm14 above it. The decoder, the encoder and the opcode table say so in
three ways: the high part is 0, imm14 is the sub-field after zeros, and a mask of the high part finds nothing. -/

section
variable {m k : Nat}

theorem eq_zero_append_low_iff (x : BitVec (m + k)) : x = 0#m ++ x.extractLsb' 0 k ↔ x.extractLsb' k m = 0 := by
  conv_lhs => lhs; rw [← BitVec.extractLsb'_append_extractLsb' (x := x)]
  exact BitVec.append_left_inj _

theorem and_high_eq_zero_iff (x : BitVec (m + k)) :
    x &&& (BitVec.allOnes m ++ 0#k) = 0 ↔ x.extractLsb' k m = 0 := by
  have hzero : (0 : BitVec (m + k)) = 0#m ++ 0#k := BitVec.zero_append_zero.symm
  conv_lhs =>
    rw [← BitVec.extractLsb'_append_extractLsb' (x := x), BitVec.and_append, BitVec.and_allOnes, BitVec.and_zero, hzero]
  exact BitVec.append_left_inj _

end

section
variable (w : Word)

theorem lgNOf_eq_extract : lgNOf w = (imm14Of w).extractLsb' 11 3 :=
  (BitVec.extractLsb'_extractLsb'_of_le (by decide)).symm

theorem gOf_eq_extract : gOf w = (imm14Of w).extractLsb' 0 11 :=
  (BitVec.extractLsb'_extractLsb'_of_le (by decide)).symm

theorem lvlOf_eq_extract : lvlOf w = (imm14Of w).extractLsb' 0 4 :=
  (BitVec.extractLsb'_extractLsb'_of_le (by decide)).symm

theorem lgsOf_eq_extract : lgsOf w = (imm14Of w).extractLsb' 0 3 :=
  (BitVec.extractLsb'_extractLsb'_of_le (by decide)).symm

theorem ofBool_getLsbD (j : Nat) : BitVec.ofBool (w.getLsbD j) = w.extractLsb' j 1 := by
  apply BitVec.eq_of_getLsbD_eq; intro i hi
  simp [show i = 0 by omega]

theorem ofBool_bitOf : BitVec.ofBool (bitOf w) = (imm14Of w).extractLsb' 0 1 := by
  rw [bitOf, ofBool_getLsbD, imm14Of, BitVec.extractLsb'_extractLsb'_of_le (by decide)]

theorem ofBool_oddOf_append_lvlOf : BitVec.ofBool (oddOf w) ++ lvlOf w = (imm14Of w).extractLsb' 0 5 := by
  rw [oddOf, ofBool_getLsbD, imm14Of, BitVec.extractLsb'_extractLsb'_of_le (by decide)]
  exact BitVec.extractLsb'_append_extractLsb'_eq_extractLsb' rfl

theorem lgNOf_append_gOf : lgNOf w ++ gOf w = imm14Of w := by
  rw [lgNOf_eq_extract, gOf_eq_extract]
  exact BitVec.extractLsb'_append_extractLsb' (w := 3) (len := 11)

theorem imm14Of_eq_append_g_iff : imm14Of w = 0#3 ++ gOf w ↔ lgNOf w = 0 := by
  rw [gOf_eq_extract, lgNOf_eq_extract]
  exact eq_zero_append_low_iff (m := 3) (k := 11) _

theorem imm14Of_eq_append_lgs_iff : imm14Of w = 0#11 ++ lgsOf w ↔ (imm14Of w).extractLsb' 3 11 = 0 := by
  rw [lgsOf_eq_extract]
  exact eq_zero_append_low_iff (m := 11) (k := 3) _

theorem imm14Of_eq_append_lvl_iff : imm14Of w = 0#10 ++ lvlOf w ↔ (imm14Of w).extractLsb' 4 10 = 0 := by
  rw [lvlOf_eq_extract]
  exact eq_zero_append_low_iff (m := 10) (k := 4) _

theorem imm14Of_eq_append_bit_iff :
    imm14Of w = 0#13 ++ BitVec.ofBool (bitOf w) ↔ (imm14Of w).extractLsb' 1 13 = 0 := by
  rw [ofBool_bitOf]
  exact eq_zero_append_low_iff (m := 13) (k := 1) _

theorem imm14Of_eq_append_odd_lvl_iff :
    imm14Of w = 0#9 ++ BitVec.ofBool (oddOf w) ++ lvlOf w ↔ (imm14Of w).extractLsb' 5 9 = 0 := by
  have hassoc : 0#9 ++ BitVec.ofBool (oddOf w) ++ lvlOf w = 0#9 ++ (BitVec.ofBool (oddOf w) ++ lvlOf w) :=
    BitVec.append_assoc
  rw [hassoc, ofBool_oddOf_append_lvlOf]
  exact eq_zero_append_low_iff (m := 9) (k := 5) _

end

/-! ## Decoding an encoded instruction (R62, R65) -/

/-- The four rows with a sub-field under must-be-zero bits, and the rows with a value condition, stand apart. -/
theorem decode_encode (ww : WordSel) (i : Instr) (h : i.wellFormed ww = true) : decode ww (encode i) = .instr i := by
  cases i with
  | vbcast d a lgs =>
    have hzero := (imm14Of_eq_append_lgs_iff (encode (.vbcast d a lgs))).1 (by simp [encode])
    simp_all [encode, decode, whenZero, rdOf, raOf]
  | vfill d bit =>
    have hzero := (imm14Of_eq_append_bit_iff (encode (.vfill d bit))).1 (by simp [encode])
    simp_all [encode, decode, whenZero, rdOf]
  | vmask d odd lvl =>
    have hzero := (imm14Of_eq_append_odd_lvl_iff (encode (.vmask d odd lvl))).1 (by simp [encode])
    simp_all [encode, decode, whenZeroAnd, rdOf, Instr.wellFormed]
  | vblend d a b lvl =>
    have hzero := (imm14Of_eq_append_lvl_iff (encode (.vblend d a b lvl))).1 (by simp [encode])
    simp_all [encode, decode, whenZeroAnd, rdOf, raOf, rbOf, Instr.wellFormed]
  | csrr | gbuild | xform => simp_all [encode, decode, whenZeroAnd, rdOf, raOf, Instr.wellFormed]
  | _ => simp [encode, decode, whenZero, rdOf, raOf, rbOf]

/-- Settles O2: every field of a packed word reads back, and a well-formed operand passes the decoder's checks. -/
theorem decodeOfEncodeIsTheInstruction : Obligations.DecodeOfEncodeIsTheInstruction := decode_encode

/-! ## Encoding a decoded word (R62, R66) -/

/-- If the decoder reads an instruction, `P` holds of it. -/
def Decoded.Implies (P : Instr → Prop) (d : Decoded) : Prop := ∀ i, d = .instr i → P i

section
variable {P : Instr → Prop} {zero ok : Bool} {r : Reject} {i : Instr}

theorem implies_instr : (Decoded.instr i).Implies P ↔ P i := by simp [Decoded.Implies]

theorem implies_illegal : (Decoded.illegal r).Implies P := by simp [Decoded.Implies]

theorem implies_whenZero : (whenZero zero i).Implies P ↔ (zero = true → P i) := by
  cases zero <;> simp [Decoded.Implies, whenZero]

theorem implies_whenZeroAnd : (whenZeroAnd zero ok r i).Implies P ↔ (zero = true → ok = true → P i) := by
  cases zero <;> cases ok <;> simp [Decoded.Implies, whenZeroAnd]

end

/-- In each branch of the decoder the checks it made are the fields the encoder writes as constants. -/
theorem decode_implies (ww : WordSel) (w : Word) :
    (decode ww w).Implies fun i => encode i = w ∧ i.wellFormed ww = true := by
  unfold decode
  split
  all_goals
    simp only [implies_instr, implies_illegal, implies_whenZero, implies_whenZeroAnd, Bool.and_eq_true, beq_iff_eq]
  all_goals
    intros
    simp [*, encode, Instr.wellFormed, pack_eq_iff, packBranch_eq_iff, packJump_eq_iff, rdOf, raOf, rbOf,
      lgNOf_append_gOf, imm14Of_eq_append_g_iff, imm14Of_eq_append_lgs_iff, imm14Of_eq_append_lvl_iff,
      imm14Of_eq_append_bit_iff, imm14Of_eq_append_odd_lvl_iff]

/-- Settles O3: a word that decodes is packed again from the fields the decoder read. -/
theorem encodeOfDecodeIsTheWord : Obligations.EncodeOfDecodeIsTheWord := fun ww w i h => decode_implies ww w i h

/-! ## The rows of the opcode table (R65, R66, R68) -/

theorem row_fields : ∀ r ∈ opcodeTable,
    opOf r.mask = 0x3F#6 ∧ dOf r.bits = 0 ∧ aOf r.bits = 0 ∧ bOf r.bits = 0 ∧ imm14Of r.bits = 0 := by decide

theorem row_eq_of_opOf_bits_eq :
    ∀ r ∈ opcodeTable, ∀ r' ∈ opcodeTable, opOf r.bits = opOf r'.bits → r = r' := by decide

/-! The fields of a row's mask, which the table writes as one number. -/

section
variable (n : Nat)

theorem extractLsb'_ofNat (start len : Nat) :
    (BitVec.ofNat 32 n).extractLsb' start len = BitVec.ofNat len ((n % 2 ^ 32) >>> start) := by
  rw [BitVec.extractLsb', BitVec.toNat_ofNat]

@[simp] theorem opOf_ofNat : opOf (BitVec.ofNat 32 n) = BitVec.ofNat 6 ((n % 2 ^ 32) >>> 26) := extractLsb'_ofNat n 26 6
@[simp] theorem dOf_ofNat : dOf (BitVec.ofNat 32 n) = BitVec.ofNat 4 ((n % 2 ^ 32) >>> 22) := extractLsb'_ofNat n 22 4
@[simp] theorem aOf_ofNat : aOf (BitVec.ofNat 32 n) = BitVec.ofNat 4 ((n % 2 ^ 32) >>> 18) := extractLsb'_ofNat n 18 4
@[simp] theorem bOf_ofNat : bOf (BitVec.ofNat 32 n) = BitVec.ofNat 4 ((n % 2 ^ 32) >>> 14) := extractLsb'_ofNat n 14 4
@[simp] theorem imm14Of_ofNat : imm14Of (BitVec.ofNat 32 n) = BitVec.ofNat 14 ((n % 2 ^ 32) >>> 0) := extractLsb'_ofNat n 0 14

end

theorem and_fullMask6 (x : BitVec 6) : x &&& 0x3F#6 = x := BitVec.and_allOnes
theorem and_fullMask4 (x : BitVec 4) : x &&& 0xF#4 = x := BitVec.and_allOnes
theorem and_fullMask14 (x : BitVec 14) : x &&& 0x3FFF#14 = x := BitVec.and_allOnes

section
variable (x : BitVec 14)

theorem and_maskAboveG_eq_zero_iff : x &&& 0x3800#14 = 0#14 ↔ x.extractLsb' 11 3 = 0 :=
  and_high_eq_zero_iff (m := 3) (k := 11) x

theorem and_maskAboveOddLvl_eq_zero_iff : x &&& 0x3FE0#14 = 0#14 ↔ x.extractLsb' 5 9 = 0 :=
  and_high_eq_zero_iff (m := 9) (k := 5) x

theorem and_maskAboveLvl_eq_zero_iff : x &&& 0x3FF0#14 = 0#14 ↔ x.extractLsb' 4 10 = 0 :=
  and_high_eq_zero_iff (m := 10) (k := 4) x

theorem and_maskAboveLgs_eq_zero_iff : x &&& 0x3FF8#14 = 0#14 ↔ x.extractLsb' 3 11 = 0 :=
  and_high_eq_zero_iff (m := 11) (k := 3) x

theorem and_maskAboveBit_eq_zero_iff : x &&& 0x3FFE#14 = 0#14 ↔ x.extractLsb' 1 13 = 0 :=
  and_high_eq_zero_iff (m := 13) (k := 1) x

end

section
variable {r : TableRow} {w : Word}

theorem opOf_eq_of_hits (hr : r ∈ opcodeTable) (h : r.hits w = true) : opOf w = opOf r.bits := by
  obtain ⟨hmask, -⟩ := row_fields r hr
  obtain ⟨hop, -⟩ := (r.hits_iff w).1 h
  rwa [hmask, and_fullMask6] at hop

/-- A word with the opcode of a row belongs to it when its must-be-zero bits are 0. -/
theorem hits_iff_of_opOf_eq (hr : r ∈ opcodeTable) (hop : opOf w = opOf r.bits) :
    r.hits w = true ↔ dOf w &&& dOf r.mask = 0 ∧ aOf w &&& aOf r.mask = 0 ∧ bOf w &&& bOf r.mask = 0 ∧
      imm14Of w &&& imm14Of r.mask = 0 := by
  obtain ⟨hmask, hd, ha, hb, himm⟩ := row_fields r hr
  rw [r.hits_iff, hmask, hd, ha, hb, himm, hop, and_fullMask6, eq_self, true_and]

end

theorem illegal_whenZero_iff {zero : Bool} {i : Instr} : (∃ e, whenZero zero i = .illegal e) ↔ ¬ zero = true := by
  cases zero <;> simp [whenZero]

theorem illegal_whenZeroAnd_iff {zero ok : Bool} {r : Reject} {i : Instr} :
    (∃ e, whenZeroAnd zero ok r i = .illegal e) ↔ ¬ (zero = true ∧ ok = true) := by
  cases zero <;> cases ok <;> simp [whenZeroAnd]

section
variable {ww : WordSel} {r : TableRow} {w : Word}

/-- The checks of the decoder at the opcode of a row are the row's mask and its value condition. -/
theorem decode_illegal_iff_of_row (hr : r ∈ opcodeTable) (hop : opOf w = opOf r.bits) :
    (∃ e, decode ww w = .illegal e) ↔ ¬ (r.hits w = true ∧ valueConditions ww r w = true) := by
  rw [hits_iff_of_opOf_eq hr hop]
  fin_cases hr
  all_goals
    simp only [BitVec.ofNat_eq_ofNat, opOf_ofNat] at hop
    simp [decode, hop, illegal_whenZero_iff, illegal_whenZeroAnd_iff, valueConditions, off26Of_eq_zero_iff,
      lgNOf_eq_extract, and_fullMask4, and_fullMask14, and_maskAboveG_eq_zero_iff, and_maskAboveOddLvl_eq_zero_iff,
      and_maskAboveLvl_eq_zero_iff, and_maskAboveLgs_eq_zero_iff, and_maskAboveBit_eq_zero_iff]

end

section
open Laws.TableRow

theorem encode_hits_row : ∀ i : Instr, Statement i
  | .nop => nop | .halt => halt | .j off26 => j off26 | .bnez d imm22 => bnez d imm22 | .beqz d imm22 => beqz d imm22
  | .bfs imm22 => bfs imm22 | .bfc imm22 => bfc imm22 | .li d imm22 => li d imm22 | .addi d a imm14 => addi d a imm14
  | .csrr d csr => csrr d csr | .vld d a imm14 => vld d a imm14 | .vst d a imm14 => vst d a imm14
  | .vmvx d a => vmvx d a | .xmvv d a => xmvv d a | .vbcast d a lgs => vbcast d a lgs | .vand d a b => vand d a b
  | .vor d a b => vor d a b | .vxor d a b => vxor d a b | .vnot d a => vnot d a | .vshl d a b => vshl d a b
  | .vshr d a b => vshr d a b | .vshli d a imm14 => vshli d a imm14 | .vshri d a imm14 => vshri d a imm14
  | .veq a b => veq a b | .vrand d => vrand d | .vfill d bit => vfill d bit | .vfillx d a => vfillx d a
  | .vmask d odd lvl => vmask d odd lvl | .vblend d a b lvl => vblend d a b lvl | .toaes d a => toaes d a
  | .fromaes d a => fromaes d a | .gfmul d a b => gfmul d a b | .gfaff d a b => gfaff d a b
  | .gfaffinv d a b => gfaffinv d a b | .tmul d a b => tmul d a b | .tinv d a => tinv d a | .mprep d a => mprep d a
  | .affg d a g => affg d a g | .gwr a g => gwr a g | .grd d g => grd d g | .gbuild a lgN g => gbuild a lgN g
  | .xform d a lgN g => xform d a lgN g

end

/-- Settles O4: the opcodes of the rows are distinct, and a row decides the words of its opcode. -/
theorem everyWordIsOneTableRowOrIllegal : Obligations.EveryWordIsOneTableRowOrIllegal := by
  refine ⟨fun r hr r' hr' w h h' => ?_, fun ww w i h => ?_, fun ww w e h r hr hhits => ?_⟩
  · exact row_eq_of_opOf_bits_eq r hr r' hr' ((opOf_eq_of_hits hr h).symm.trans (opOf_eq_of_hits hr' h'))
  · obtain ⟨hw, -⟩ := decode_implies ww w i h
    obtain ⟨r, hr, hmnemonic, hhits⟩ := encode_hits_row i
    rw [hw] at hhits
    have hlegal : ¬ ∃ e, decode ww w = .illegal e := by simp [h]
    rw [decode_illegal_iff_of_row hr (opOf_eq_of_hits hr hhits), not_not] at hlegal
    obtain ⟨-, hvalue⟩ := hlegal
    exact ⟨r, hr, hhits, hvalue, hmnemonic⟩
  · have hnot := (decode_illegal_iff_of_row hr (opOf_eq_of_hits hr hhits)).1 ⟨e, h⟩
    simpa [hhits] using hnot

/-! ## The five items of R67 -/

/-- Item 1: the opcodes with no row. -/
def reservedOpcodes : List (BitVec 6) :=
  [0x00#6, 0x0B#6, 0x0C#6, 0x0D#6, 0x0E#6, 0x0F#6, 0x15#6, 0x16#6, 0x17#6, 0x18#6, 0x19#6, 0x1A#6, 0x1B#6,
    0x1C#6, 0x1D#6, 0x1E#6, 0x1F#6, 0x2E#6, 0x2F#6, 0x3D#6, 0x3E#6, 0x3F#6]

theorem mem_reservedOpcodes_or_exists_row :
    ∀ op, op ∈ reservedOpcodes ∨ ∃ r ∈ opcodeTable, op = opOf r.bits := by decide

theorem decode_of_reserved {w : Word} (ww : WordSel) (h : opOf w ∈ reservedOpcodes) :
    decode ww w = .illegal .reservedOpcode := by
  unfold decode
  generalize opOf w = op at h
  fin_cases h <;> rfl

/-- The rows with a value condition, by their opcodes. -/
theorem row_mnemonic_iff : ∀ r ∈ opcodeTable,
    (r.mnemonic = "VMASK" ↔ opOf r.bits = 0x2C#6) ∧ (r.mnemonic = "VBLEND" ↔ opOf r.bits = 0x2D#6) ∧
    (r.mnemonic = "GBUILD" ↔ opOf r.bits = 0x3B#6) ∧ (r.mnemonic = "XFORM" ↔ opOf r.bits = 0x3C#6) ∧
    (r.mnemonic = "CSRR" ↔ opOf r.bits = 0x0A#6) := by decide

/-- Items 3 to 5. -/
def ValueItems (ww : WordSel) (w : Word) : Prop :=
  ((opOf w = 0x2C#6 ∨ opOf w = 0x2D#6) ∧ ww.lmax < (lvlOf w).toNat) ∨
  ((opOf w = 0x3B#6 ∨ opOf w = 0x3C#6) ∧ 4 < (lgNOf w).toNat) ∨
  (opOf w = 0x0A#6 ∧ imm14Of w ≠ 0 ∧ imm14Of w ≠ 1)

theorem valueConditions_eq_false_iff (ww : WordSel) {r : TableRow} {w : Word} (hr : r ∈ opcodeTable)
    (hop : opOf w = opOf r.bits) : valueConditions ww r w = false ↔ ValueItems ww w := by
  obtain ⟨hvmask, hvblend, hgbuild, hxform, hcsrr⟩ := row_mnemonic_iff r hr
  simp only [valueConditions, hvmask, hvblend, hgbuild, hxform, hcsrr, ← hop, ValueItems]
  split_ifs with hlvl hlgN hcsr
  · obtain h | h := hlvl <;> simp [h, levelOk]
  · obtain h | h := hlgN <;> simp [h, widthOk]
  · simp [hcsr, csrOk]
  · simp [hlvl, hlgN, hcsr]

/-- Settles O5: a reserved opcode has no row; at any other the row's mask is item 2 and its value condition items 3 to 5. -/
theorem illegalWordsAreTheFiveItems : Obligations.IllegalWordsAreTheFiveItems := by
  intro ww w
  change _ ↔ opOf w ∈ reservedOpcodes ∨ _ ∨ ValueItems ww w
  by_cases hreserved : opOf w ∈ reservedOpcodes
  · exact iff_of_true ⟨_, decode_of_reserved ww hreserved⟩ (.inl hreserved)
  · obtain ⟨r, hr, hop⟩ := (mem_reservedOpcodes_or_exists_row (opOf w)).resolve_left hreserved
    have hrow : (∃ r ∈ opcodeTable, opOf r.bits = opOf w ∧ r.hits w = false) ↔ r.hits w = false := by
      constructor
      · rintro ⟨r', hr', hop', hhits⟩
        rwa [row_eq_of_opOf_bits_eq r hr r' hr' (hop.symm.trans hop'.symm)]
      · exact fun hhits => ⟨r, hr, hop.symm, hhits⟩
    rw [decode_illegal_iff_of_row hr hop, hrow, ← valueConditions_eq_false_iff ww hr hop, not_and_or, Bool.not_eq_true,
      Bool.not_eq_true, or_iff_right hreserved]

/-- Settles O1: the decoder runs on the thirteen words. -/
theorem encodingExamplesDecode : Obligations.EncodingExamplesDecode := by
  unfold Obligations.EncodingExamplesDecode
  decide

end Sys2Proof
end

/-! # The sequencer and the scalar instructions (40_control_scalar.md R80 to R90)

Where the tile moves the step is `tileStep`, of which each branch has its equation. An instruction of this family answers one of
four updates, `advance`, `branchIf` or `jump`, `setX` then `advance`, and `halt`; CSRR alone can take an exception. -/

section
namespace Sys2Proof.Machine

/-! ## The tile's step, branch by branch (R80) -/

theorem runWord_of_decode {s : State} {w : Word} {i : Instr} (h : decode s.cfg.word w = .instr i) :
    runWord w s = exec i s := by
  rw [runWord, h]

theorem tileStep_of_abort {s : State} (hreset : s.resetAsserted = false) (hrun : s.run = .running)
    (habort : s.abortLatch = true) : tileStep s = .next s.takeAbort := by
  rw [tileStep, hreset, if_neg Bool.false_ne_true, if_pos hrun, if_pos habort]

theorem tileStep_of_not_running {s : State} (hrun : s.run ≠ .running) : tileStep s = .next s := by
  rw [tileStep, if_neg hrun, ite_self]

/-- Settles O6: the fetch finds the range, the four bytes and the instruction it asks for. -/
theorem stepRunsTheDecodedInstruction : Obligations.StepRunsTheDecodedInstruction := by
  intro s u i hu hfetching hpc hwritten hdecode
  rw [step_of_tileMoves hu, tileStep_of_fetch u hfetching hpc hwritten, runWord_of_decode hdecode]

/-- Settles O9: the two branches of the tile's step that fetch nothing. -/
theorem abortIsTakenBeforeTheFetchAndStoppedTilesRest : Obligations.AbortIsTakenBeforeTheFetchAndStoppedTilesRest := by
  refine ⟨fun s u hu hreset hrun habort => ⟨u.takeAbort, ?_, rfl, rfl, rfl, rfl, rfl, rfl, changesOnly_takeAbort u⟩,
    fun s u hu hrun => ?_⟩
  · rw [step_of_tileMoves hu, tileStep_of_abort hreset hrun habort]
  · rw [step_of_tileMoves hu, tileStep_of_not_running hrun]

/-! ## The word that `placeWord` stores (R243, log 11) -/

/-- A word is its four bytes, the lowest address first (20_memory.md R41). -/
theorem wordOfBytes_byteAt (w : Word) : wordOfBytes (byteAt w 0) (byteAt w 1) (byteAt w 2) (byteAt w 3) = w := by
  apply BitVec.eq_of_getLsbD_eq; intro k hk
  simp only [wordOfBytes, BitVec.getLsbD_append, getLsbD_laneAt]
  grind

/-- A word stored in IMEM is fetched from where it was stored. -/
theorem imemWord_of_writeRange {s : State} {m : List Host.Cell} {a : Nat} {w : Word}
    (h : s.imem = Memory.writeRange m a (byteAt w) 4) : s.imemWord a = w := by
  have hbyte (k : Nat) (hk : k < 4) : s.imemByte (a + k) = byteAt w k := by
    rw [State.imemByte, h, read_writeRange_inside _ _ _ _ _ hk, Option.getD_some]
  have hfirst : s.imemByte a = byteAt w 0 := hbyte 0 (by decide)
  rw [State.imemWord, hfirst, hbyte 1 (by decide), hbyte 2 (by decide), hbyte 3 (by decide), wordOfBytes_byteAt]

theorem written_writeRange {α : Type} (m : Memory α) (a n : Nat) (f : Nat → α) :
    Memory.written (Memory.writeRange m a f n) a n = true :=
  (written_iff _ _ _).2 fun k hk => by rw [read_writeRange_inside _ _ _ _ _ hk, Option.isSome_some]

section
variable (s : State) (w : Word)

/-- The tile moves next after `placeWord`: its host is silent as before, or lets it step first. -/
theorem placeWord_tileMoves : (s.placeWord w).TileMoves { s.placeWord w with host := s.host } := by
  by_cases hhost : s.host = []
  · have hplaced : (s.placeWord w).host = [] := if_pos hhost
    exact .inl ⟨hplaced, by rw [hhost, ← hplaced]⟩
  · exact .inr ⟨s.host, if_neg hhost, rfl⟩

/-- The pc that `placeWord` leaves, its own or 0, is inside IMEM. -/
theorem placeWord_pc_lt : (s.placeWord w).pc.toNat < s.cfg.imemBytes := by
  have hpos : 0 < s.cfg.imemBytes := Nat.two_pow_pos _
  simp only [State.placeWord]
  split
  next hfits => simp only [State.pcFits, Bool.and_eq_true, decide_eq_true_eq] at hfits; omega
  next => simpa using hpos

end

/-- Settles O7: the placed word is written, reads back, and decodes to the instruction it encodes. -/
theorem placedInstructionRunsNext : Obligations.PlacedInstructionRunsNext := by
  intro s i hwf
  have hword : s.withFetchWord 32 (encode i).toNat = s.placeWord (encode i) := by
    rw [State.withFetchWord, Nat.mod_eq_of_lt (encode i).isLt, BitVec.ofNat_toNat, BitVec.setWidth_eq]
  rw [hword]
  refine stepRunsTheDecodedInstruction _ _ i (placeWord_tileMoves s (encode i)) ⟨rfl, rfl, rfl⟩ (placeWord_pc_lt s (encode i))
    (written_writeRange _ _ _ _) ?_
  rw [imemWord_of_writeRange rfl]
  exact decode_encode _ i hwf

/-! ## Encoding clauses -/

section
variable {op : BitVec 6} {zero : Word → Bool} {ok : WordSel → Word → Bool} {r : Reject} {mk : Word → Instr}

/-- A row with no must-be-zero bit. -/
theorem encodedAs_of_instr (h : ∀ ww w, opOf w = op → decode ww w = .instr (mk w)) :
    EncodedAs op (fun _ _ => true) mk :=
  fun ww w hop => ⟨fun _ => h ww w hop, nofun⟩

/-- A row with must-be-zero bits (R67 item 2). -/
theorem encodedAs_of_whenZero (h : ∀ ww w, opOf w = op → decode ww w = whenZero (zero w) (mk w)) :
    EncodedAs op (fun _ w => zero w) mk := by
  intro ww w hop
  rw [h ww w hop]
  constructor <;> intro hzero <;> simp [whenZero, hzero]

/-- A row with must-be-zero bits and a value condition (R67 items 3 to 5). -/
theorem encodedAs_of_whenZeroAnd (h : ∀ ww w, opOf w = op → decode ww w = whenZeroAnd (zero w) (ok ww w) r (mk w)) :
    EncodedAs op (fun ww w => zero w && ok ww w) mk := by
  intro ww w hop
  rw [h ww w hop]
  dsimp only
  cases zero w <;> cases ok ww w <;> simp [whenZeroAnd]

end

/-! ## NOP and HALT (R81, R82) -/

/-- Settles O21: NOP is `advance`. -/
theorem nopOnlyAdvancesThePc : Obligations.NopOnlyAdvancesThePc :=
  ⟨encodedAs_of_whenZero fun _ _ hop => by simp [decode, hop], rfl, fun s => ⟨s.advance, rfl, rfl, changesOnly_advance s⟩⟩

/-- A host read of four written bytes, outside RUNNING, answers them (20_memory.md R53). -/
theorem byteAt_hostReadMemory {t : State} (hrun : t.run ≠ .running) {m : List Host.Cell} {off : Nat}
    (hwritten : ∀ k, k < 4 → (Memory.read m (off + k)).isSome = true) {k : Nat} (hk : k < 4) :
    some (byteAt (t.hostReadMemory m off).1 k) = Memory.read m (off + k) := by
  obtain ⟨b, hb⟩ := Option.isSome_iff_exists.1 (hwritten k hk)
  rw [hostReadMemory_of_not_running hrun, hostWord, byteAt, laneAt_ofLanes 8 (by decide) _ 4 k hk (by decide), hb,
    Option.getD_some]

/-- Settles O22: HALT is `State.halt`, which leaves DMEM alone and the tile outside RUNNING. -/
theorem haltStopsTheProgram : Obligations.HaltStopsTheProgram := by
  refine ⟨encodedAs_of_whenZero fun _ _ hop => by simp [decode, hop], rfl, fun s =>
    ⟨s.halt, rfl, rfl, rfl, rfl, rfl, rfl, rfl, rfl, changesOnly_halt s, fun off hwritten k hk => ?_⟩⟩
  exact byteAt_hostReadMemory (t := s.halt) (m := s.dmem) nofun hwritten hk

/-! ## Jumps and branches (R83 to R87) -/

/-- Settles O23: J is a jump to its target. -/
theorem jumpGoesToItsTarget : Obligations.JumpGoesToItsTarget :=
  ⟨encodedAs_of_instr fun _ _ hop => by simp [decode, hop], fun off26 s =>
    ⟨s.jump (s.jumpTarget off26), rfl, jumpTarget_eq s off26, changesOnly_jump s _, faultsAtFetch _⟩⟩

/-- What a branch on the condition `p` does, whatever `p` tests. -/
theorem next_branchIf (s : State) (imm22 : BitVec 22) {taken : Bool} {p : Prop} [Decidable p] (h : taken = true ↔ p) :
    ∃ t : State, (.next (s.branchIf taken imm22) : Result) = .next t ∧
      t.pc = (if p then s.pc + BitVec.ofInt 32 (4 * imm22.toInt) else s.pc + 4) ∧ ChangesOnly {} s t ∧ FaultsAtFetch t :=
  ⟨_, rfl, (branchIf_pc s taken imm22).trans (if_congr h rfl rfl), changesOnly_branchIf s taken imm22, faultsAtFetch _⟩

/-- Settles O24: both branches test one register, and x0 is 0. -/
theorem scalarBranchesTestOneRegister : Obligations.ScalarBranchesTestOneRegister :=
  ⟨encodedAs_of_instr fun _ _ hop => by simp [decode, hop], encodedAs_of_instr fun _ _ hop => by simp [decode, hop],
    fun _ imm22 s => next_branchIf s imm22 bne_iff_ne, fun _ imm22 s => next_branchIf s imm22 beq_iff_eq,
    fun _ _ => rfl, fun imm22 s => ⟨_, rfl, branchIf_pc s true imm22⟩⟩

/-- Settles O25: both branches test the flag. -/
theorem flagBranchesTestTheFlag : Obligations.FlagBranchesTestTheFlag :=
  ⟨encodedAs_of_whenZero fun _ _ hop => by simp [decode, hop], encodedAs_of_whenZero fun _ _ hop => by simp [decode, hop],
    fun imm22 s => next_branchIf s imm22 Iff.rfl, fun imm22 s => next_branchIf s imm22 (by simp)⟩

/-! ## LI, ADDI and CSRR (R88 to R90) -/

section
variable (s : State) (d : XReg) (u : Word)

theorem getX_setX_self : (s.setX d u).getX d = if d = 0 then 0 else u := by
  split
  next hd => rw [hd, getX_zero]
  next hd => rw [getX_setX, if_pos ⟨rfl, hd⟩]

/-- What an instruction does that writes the one scalar register. -/
theorem next_setX {u' : Word} (h : u = u') :
    ∃ t : State, (.next (s.setX d u).advance : Result) = .next t ∧ t.getX d = (if d = 0 then 0 else u') ∧
      t.pc = s.pc + 4 ∧ ChangesOnly { scalar := fun r => r = d } s t :=
  ⟨_, rfl, by rw [advance_getX, getX_setX_self, h], by simp, changesOnly_setX s d u⟩

end

/-- Settles O26: LI writes its zero-extended immediate, ADDI the sum modulo 2^32. -/
theorem liAndAddiWriteOneScalar : Obligations.LiAndAddiWriteOneScalar :=
  ⟨encodedAs_of_instr fun _ _ hop => by simp [decode, hop], encodedAs_of_whenZero fun _ _ hop => by simp [decode, hop],
    fun d _ s => next_setX s d _ (BitVec.ofNat_toNat _ _).symm, fun d _ _ s => next_setX s d _ (add_offset _ _)⟩

/-- What CSRR does with the number of a register. -/
theorem next_csrr {s : State} {csr : BitVec 14} {u : Word} (hok : csrOk csr = true) (h : s.csrValue csr = u) (d : XReg) :
    ∃ t, exec (.csrr d csr) s = .next t ∧ (d ≠ 0 → t.getX d = u) ∧ t.pc = s.pc + 4 ∧
      ChangesOnly { scalar := fun r => r = d } s t := by
  have hexec : exec (.csrr d csr) s = .next (s.setX d (s.csrValue csr)).advance := if_pos hok
  obtain ⟨t, ht, hx, hframe⟩ := next_setX s d (s.csrValue csr) h
  exact ⟨t, hexec.trans ht, fun hd => hx.trans (if_neg hd), hframe⟩

theorem exec_csrr_of_not_csrOk {csr : BitVec 14} (h : csrOk csr = false) (d : XReg) (s : State) :
    exec (.csrr d csr) s = .next (s.enterException .illegalInstruction (encode (.csrr d csr))) :=
  if_neg (Bool.eq_false_iff.1 h)

/-- The five fields of HWCFG (10_state.md R28). -/
theorem hwcfg_fields (c : Config) :
    (hwcfg c).extractLsb' 0 2 = c.word.code ∧ (hwcfg c).extractLsb' 2 6 = 0 ∧
      (hwcfg c).extractLsb' 8 8 = BitVec.ofNat 8 c.gridLog ∧ (hwcfg c).extractLsb' 16 8 = BitVec.ofNat 8 c.imemLog ∧
      (hwcfg c).extractLsb' 24 8 = BitVec.ofNat 8 c.dmemLog := by
  refine ⟨?_, ?_, ?_, ?_, ?_⟩
  all_goals
    apply BitVec.eq_of_getLsbD_eq; intro k hk
    simp only [hwcfg, BitVec.getLsbD_extractLsb', BitVec.getLsbD_append]
    grind

/-- Settles O27: the two numbers of `csrOk` read a register, every other takes the exception, and each logarithm fits its
field of HWCFG. -/
theorem csrrReadsHwcfgOrHwid : Obligations.CsrrReadsHwcfgOrHwid := by
  refine ⟨?_, fun d s => next_csrr rfl rfl d, fun d s => next_csrr rfl rfl d, fun d csr s h0 h1 => ?_, fun c => ?_⟩
  · exact encodedAs_of_whenZeroAnd (ok := fun _ w => csrOk (imm14Of w)) (r := .unknownCsr) fun _ _ hop => by
      simp [decode, hop]
  · exact exec_csrr_of_not_csrOk (by simpa [csrOk] using ⟨h0, h1⟩) d s
  · have hgridLog : c.gridLog < 2 ^ 8 := by unfold Config.gridLog; omega
    have himemLog : c.imemLog < 2 ^ 8 := by unfold Config.imemLog; omega
    have hdmemLog : c.dmemLog < 2 ^ 8 := by unfold Config.dmemLog; omega
    obtain ⟨hwsel, hzero, hgrid, himem, hdmem⟩ := hwcfg_fields c
    rw [hgrid, himem, hdmem, BitVec.toNat_ofNat, BitVec.toNat_ofNat, BitVec.toNat_ofNat, Nat.mod_eq_of_lt hgridLog,
      Nat.mod_eq_of_lt himemLog, Nat.mod_eq_of_lt hdmemLog]
    exact ⟨hwsel, hzero, rfl, rfl, rfl⟩

end Sys2Proof.Machine
end

/-! # The wide-word instructions (41_wide_word.md R100 to R114)

All but VEQ, which writes the flag, write one vector register: a proof is the word that the register then holds, bit by bit or as
a number, and `changesOnly_setV`. VRAND takes a free draw with it; VFILLX, VMASK and VBLEND can take an exception. -/

section
namespace Sys2Proof.Machine

/-! ## What an instruction does that writes one vector register -/

section
variable (s : State) (d : VReg) (u : Wide)

theorem next_setV {P : Wide → Prop} (h : P (keep s.cfg.word u)) :
    ∃ t : State, (.next (s.setV d u).advance : Result) = .next t ∧ P (t.getV d) ∧ t.pc = s.pc + 4 ∧
      ChangesOnly { vec := fun r => r = d } s t :=
  ⟨_, rfl, by rwa [advance_getV, getV_setV_same], rfl, changesOnly_setV s d u⟩

theorem next_setV_getLsbD {f : Nat → Bool} (h : ∀ i, (keep s.cfg.word u).getLsbD i = f i) :
    ∃ t : State, (.next (s.setV d u).advance : Result) = .next t ∧ (∀ i, (t.getV d).getLsbD i = f i) ∧ t.pc = s.pc + 4 ∧
      ChangesOnly { vec := fun r => r = d } s t :=
  next_setV s d u (P := fun w => ∀ i, w.getLsbD i = f i) h

theorem next_setV_toNat {n : Nat} (h : (keep s.cfg.word u).toNat = n) :
    ∃ t : State, (.next (s.setV d u).advance : Result) = .next t ∧ (t.getV d).toNat = n ∧ t.pc = s.pc + 4 ∧
      ChangesOnly { vec := fun r => r = d } s t :=
  next_setV s d u (P := fun w => w.toNat = n) h

end

/-! ## VAND, VOR, VXOR and VNOT (R100 to R103) -/

theorem getLsbD_keep_not (ww : WordSel) (u : Wide) (i : Nat) :
    (keep ww (~~~ u)).getLsbD i = (decide (i < ww.bits) && !u.getLsbD i) := by
  have hbits := ww.bits_le
  rw [getLsbD_keep, BitVec.getLsbD_not]
  by_cases hi : i < ww.bits
  · simp [hi, show i < 512 by omega]
  · simp [hi]

/-- Settles O28: a register reads as W bits, which AND, OR and XOR keep and the complement is cut to. -/
theorem bitwiseLogicActsOnEveryBit : Obligations.BitwiseLogicActsOnEveryBit := by
  refine ⟨encodedAs_of_whenZero fun _ _ hop => by simp [decode, hop], encodedAs_of_whenZero fun _ _ hop => by simp [decode, hop],
    encodedAs_of_whenZero fun _ _ hop => by simp [decode, hop], encodedAs_of_whenZero fun _ _ hop => by simp [decode, hop],
    fun d a b s => ⟨?_, ?_, ?_, ?_⟩⟩
  · exact next_setV_getLsbD s d _ fun i => by rw [keep_and, keep_getV, keep_getV, BitVec.getLsbD_and]
  · exact next_setV_getLsbD s d _ fun i => by rw [keep_or, keep_getV, keep_getV, BitVec.getLsbD_or]
  · exact next_setV_getLsbD s d _ fun i => by rw [keep_xor, keep_getV, keep_getV, BitVec.getLsbD_xor]
  · exact next_setV_getLsbD s d _ (getLsbD_keep_not _ _)

/-! ## VSHL, VSHR, VSHLI and VSHRI (R104 to R108) -/

section
variable (s : State) (d a : VReg) (c : Nat)

/-- A left shift by any count, whatever the count was read from. -/
theorem next_shiftLeft :
    ∃ t : State, (.next (s.setV d (shiftLeft s.cfg.word (s.getV a) c)).advance : Result) = .next t ∧
      (t.getV d).toNat = (if s.cfg.word.bits ≤ c then 0 else (s.getV a).toNat * 2 ^ c % 2 ^ s.cfg.word.bits) ∧
      t.pc = s.pc + 4 ∧ ChangesOnly { vec := fun r => r = d } s t :=
  next_setV_toNat s d _ (by rw [keep_shiftLeft, toNat_shiftLeft])

theorem next_shiftRight :
    ∃ t : State, (.next (s.setV d (shiftRight s.cfg.word (s.getV a) c)).advance : Result) = .next t ∧
      (t.getV d).toNat = (if s.cfg.word.bits ≤ c then 0 else (s.getV a).toNat / 2 ^ c) ∧
      t.pc = s.pc + 4 ∧ ChangesOnly { vec := fun r => r = d } s t :=
  next_setV_toNat s d _ (by rw [keep_shiftRight, toNat_shiftRight, keep_getV])

end

/-- Settles O29: the count is the whole register. -/
theorem registerShiftsFollowTheShiftPrimitives : Obligations.RegisterShiftsFollowTheShiftPrimitives :=
  ⟨encodedAs_of_whenZero fun _ _ hop => by simp [decode, hop], encodedAs_of_whenZero fun _ _ hop => by simp [decode, hop],
    fun d a b s => ⟨next_shiftLeft s d a (s.regCount b), next_shiftRight s d a (s.regCount b)⟩⟩

/-- Settles O30: the count is the immediate. -/
theorem immediateShiftsFollowTheShiftPrimitives : Obligations.ImmediateShiftsFollowTheShiftPrimitives :=
  ⟨encodedAs_of_whenZero fun _ _ hop => by simp [decode, hop], encodedAs_of_whenZero fun _ _ hop => by simp [decode, hop],
    fun d a imm14 s => ⟨next_shiftLeft s d a (immCount imm14), next_shiftRight s d a (immCount imm14)⟩⟩

/-! ## VEQ (R109) -/

/-- Above the W bits both registers read 0, so the W bits decide. -/
theorem equalityFlag_getV_iff (s : State) (a b : VReg) :
    equalityFlag (s.getV a) (s.getV b) = true ↔
      ∀ i, i < s.cfg.word.bits → (s.getV a).getLsbD i = (s.getV b).getLsbD i := by
  rw [equalityFlag, beq_iff_eq]
  refine ⟨fun h i _ => by rw [h], fun h => BitVec.eq_of_getLsbD_eq fun i _ => ?_⟩
  by_cases hi : i < s.cfg.word.bits
  · exact h i hi
  · rw [getLsbD_getV_of_ge s a i (Nat.le_of_not_lt hi), getLsbD_getV_of_ge s b i (Nat.le_of_not_lt hi)]

/-- Settles O31: VEQ writes the flag alone. -/
theorem veqSetsTheFlagOnEquality : Obligations.VeqSetsTheFlagOnEquality :=
  ⟨encodedAs_of_whenZero fun _ _ hop => by simp [decode, hop], fun a b s =>
    ⟨_, rfl, equalityFlag_getV_iff s a b, rfl, changesOnly_setFlag s _⟩⟩

/-! ## VRAND (R110) -/

theorem changesOnly_drawWide_setV (s : State) (d : VReg) (u : Wide) :
    ChangesOnly { vec := fun r => r = d, draws := True } s (s.drawWide.2.setV d u).advance where
  cfg := rfl
  vec _ hr := getV_setV_other s.drawWide.2 _ _ u hr
  scalar _ _ := rfl
  flag _ := rfl
  grid _ _ := rfl
  dmem _ _ := rfl
  imem _ := rfl
  draws h := absurd trivial h
  control _ := ⟨rfl, rfl, rfl, rfl, rfl⟩
  startPc := rfl
  resetAsserted := rfl
  host := rfl
  hostReads := rfl

/-- Settles O32: the draw is cut to W bits, and the count goes on. -/
theorem vrandTakesAFreshDraw : Obligations.VrandTakesAFreshDraw := by
  refine ⟨encodedAs_of_whenZero fun _ _ hop => by simp [decode, hop], fun d s =>
    ⟨_, rfl, fun i => ?_, rfl, rfl, changesOnly_drawWide_setV s d _⟩⟩
  rw [advance_getV, getV_setV_same, getLsbD_keep]

/-! ## VFILL and VFILLX (R111, R112) -/

theorem next_fillOnes (s : State) (d : VReg) :
    ∃ t : State, (.next (s.setV d (allOnes s.cfg.word)).advance : Result) = .next t ∧
      (t.getV d).toNat = 2 ^ s.cfg.word.bits - 1 ∧ t.pc = s.pc + 4 ∧ ChangesOnly { vec := fun r => r = d } s t :=
  next_setV_toNat s d _ (by rw [keep_allOnes, toNat_allOnes])

/-- Settles O33: the two values of the bit. -/
theorem vfillFillsWithTheBit : Obligations.VfillFillsWithTheBit := by
  refine ⟨encodedAs_of_whenZero fun _ _ hop => by simp [decode, hop], fun d bit s => ?_⟩
  cases bit with
  | false => exact next_setV_toNat s d 0#512 (by rw [toNat_keep, BitVec.toNat_zero, Nat.zero_mod, if_neg Bool.false_ne_true])
  | true => exact next_fillOnes s d

section
variable {s : State} {a : XReg} (d : VReg)

theorem exec_vfillx_of_zero (h : s.getX a = 0) : exec (.vfillx d a) s = .next (s.setV d 0).advance := if_pos h

theorem exec_vfillx_of_one (h : s.getX a = 1) :
    exec (.vfillx d a) s = .next (s.setV d (allOnes s.cfg.word)).advance := by
  rw [exec, execVfillx, if_neg (by simp [h]), if_pos h]

theorem exec_vfillx_of_ne (h0 : s.getX a ≠ 0) (h1 : s.getX a ≠ 1) :
    exec (.vfillx d a) s = .next (s.enterException .illegalOperand (s.getX a)) := by
  rw [exec, execVfillx, if_neg h0, if_neg h1, raise]

end

/-- Settles O34: the three branches of VFILLX. -/
theorem vfillxFillsOrRaisesIllegalOperand : Obligations.VfillxFillsOrRaisesIllegalOperand := by
  refine ⟨encodedAs_of_whenZero fun _ _ hop => by simp [decode, hop], fun d a s =>
    ⟨fun h => ?_, fun h => ?_, exec_vfillx_of_ne d⟩⟩
  · rw [exec_vfillx_of_zero d h]
    exact next_setV s d 0 (P := (· = 0)) (keep_zero _)
  · rw [exec_vfillx_of_one d h]
    exact next_fillOnes s d

/-! ## VMASK and VBLEND (R113, R114, R25) -/

section
variable {s : State} {lvl : BitVec 4} (d a b : VReg) (odd : Bool)

theorem exec_vmask_of_le (h : lvl.toNat ≤ s.cfg.word.lmax) :
    exec (.vmask d odd lvl) s =
      .next (s.setV d (if odd then oddMask s.cfg.word lvl.toNat else evenMask s.cfg.word lvl.toNat)).advance :=
  if_pos (decide_eq_true h)

theorem exec_vmask_of_gt (h : s.cfg.word.lmax < lvl.toNat) :
    exec (.vmask d odd lvl) s = .next (s.enterException .illegalInstruction (encode (.vmask d odd lvl))) :=
  if_neg (by simpa [levelOk] using h)

theorem exec_vblend_of_le (h : lvl.toNat ≤ s.cfg.word.lmax) :
    exec (.vblend d a b lvl) s = .next (s.setV d (blendWord s.cfg.word lvl.toNat (s.getV a) (s.getV b))).advance :=
  if_pos (decide_eq_true h)

theorem exec_vblend_of_gt (h : s.cfg.word.lmax < lvl.toNat) :
    exec (.vblend d a b lvl) s = .next (s.enterException .illegalInstruction (encode (.vblend d a b lvl))) :=
  if_neg (by simpa [levelOk] using h)

end

section
variable (ww : WordSel) (lvl : Nat)

theorem keep_evenMask : keep ww (evenMask ww lvl) = evenMask ww lvl := keep_keep ww _

theorem keep_oddMask : keep ww (oddMask ww lvl) = oddMask ww lvl := keep_keep ww _

/-- A bit of an odd block is a bit of no even block: the masks leave one of the two words. -/
theorem getLsbD_blendWord (u u' : Wide) (i : Nat) :
    (blendWord ww lvl u u').getLsbD i =
      (decide (i < ww.bits) && if i / 2 ^ lvl % 2 = 0 then u.getLsbD i else u'.getLsbD i) := by
  rw [blendWord, BitVec.getLsbD_or, BitVec.getLsbD_and, BitVec.getLsbD_and, getLsbD_evenMask, getLsbD_oddMask]
  obtain h | h := Nat.mod_two_eq_zero_or_one (i / 2 ^ lvl) <;> simp [h, Bool.and_comm]

end

/-- The blend of two registers, which read 0 above the W bits as their blend does. -/
theorem getLsbD_keep_blendWord_getV (s : State) (a b : VReg) (lvl i : Nat) :
    (keep s.cfg.word (blendWord s.cfg.word lvl (s.getV a) (s.getV b))).getLsbD i =
      if i / 2 ^ lvl % 2 = 0 then (s.getV a).getLsbD i else (s.getV b).getLsbD i := by
  rw [getLsbD_keep, getLsbD_blendWord]
  by_cases hi : i < s.cfg.word.bits
  · simp [hi]
  · simp [hi, getLsbD_getV_of_ge s _ i (Nat.le_of_not_lt hi)]

/-- Settles O35: the two masks, bit by bit, and the level that is too high. -/
theorem vmaskLoadsTheInterleaveMask : Obligations.VmaskLoadsTheInterleaveMask := by
  refine ⟨?_, fun d odd lvl s => ⟨fun h => ?_, exec_vmask_of_gt d odd⟩⟩
  · exact encodedAs_of_whenZeroAnd (ok := fun ww w => levelOk ww (lvlOf w)) (r := .levelTooHigh) fun _ _ hop => by
      simp [decode, hop]
  · rw [exec_vmask_of_le d odd h]
    refine next_setV_getLsbD s d _ fun i => ?_
    cases odd with
    | false => simp [keep_evenMask, getLsbD_evenMask]
    | true => simp [keep_oddMask, getLsbD_oddMask]

/-- Settles O36: the blend, bit by bit, and the level that is too high. -/
theorem vblendMergesAlternatingBlocks : Obligations.VblendMergesAlternatingBlocks := by
  refine ⟨?_, fun d a b lvl s => ⟨fun h => ?_, exec_vblend_of_gt d a b⟩⟩
  · exact encodedAs_of_whenZeroAnd (ok := fun ww w => levelOk ww (lvlOf w)) (r := .levelTooHigh) fun _ _ hop => by
      simp [decode, hop]
  · rw [exec_vblend_of_le d a b h]
    exact next_setV_getLsbD s d _ (getLsbD_keep_blendWord_getV s a b lvl.toNat)

end Sys2Proof.Machine
end

/-! # The packed containers, and the load and store of a word (42_packed.md R130 to R135)

VLD and VST make the same two checks of their address, which are said once, of `State.wordAccess`. A load and a store are then
told byte by byte, and R135 follows from the two, since a word is its bytes. -/

section
namespace Sys2Proof.Machine

/-! ## VBCAST, VMVX and XMVV (R130 to R132) -/

/-- The W bits of a word hold its lanes that end at W or below. -/
theorem laneAt_keep (ww : WordSel) (u : Wide) {s i : Nat} (h : s * (i + 1) ≤ ww.bits) :
    laneAt s (keep ww u) i = laneAt s u i := by
  apply BitVec.eq_of_getLsbD_eq
  intro b hb
  have hbit : s * i + b < ww.bits := by rw [Nat.mul_succ] at h; omega
  rw [getLsbD_laneAt, getLsbD_laneAt, getLsbD_keep, decide_eq_true hbit, Bool.true_and]

/-- Settles O37: the lanes that VBCAST assembles lie in the W bits. -/
theorem vbcastCopiesLaneZero : Obligations.VbcastCopiesLaneZero := by
  refine ⟨encodedAs_of_whenZero fun _ _ hop => by simp [decode, hop], fun d a lgs s => ?_⟩
  have hlanes : 2 ^ lgs.toNat * (s.cfg.word.bits / 2 ^ lgs.toNat) ≤ s.cfg.word.bits := Nat.mul_div_le _ _
  refine next_setV s d _ (P := fun w => ∀ i, i < s.cfg.word.bits / 2 ^ lgs.toNat →
    laneAt (2 ^ lgs.toNat) w i = laneAt (2 ^ lgs.toNat) (s.getV a) 0) fun i hi => ?_
  rw [laneAt_keep _ _ ((Nat.mul_le_mul_left _ hi).trans hlanes)]
  exact laneAt_ofLanes _ (Nat.two_pow_pos _) _ _ i hi (hlanes.trans s.cfg.word.bits_le)

theorem toNat_keep_setWidth (ww : WordSel) (x : Word) : (keep ww (x.setWidth 512)).toNat = x.toNat := by
  have hbits : 32 ≤ ww.bits := by cases ww <;> decide
  rw [toNat_keep, BitVec.toNat_setWidth_of_le (by decide)]
  exact Nat.mod_eq_of_lt (x.isLt.trans_le (Nat.pow_le_pow_right (by decide) hbits))

/-- Settles O38: a scalar fits in a word, and the low 32 bits of a word are its remainder modulo 2^32. -/
theorem movesBetweenScalarAndVector : Obligations.MovesBetweenScalarAndVector :=
  ⟨encodedAs_of_whenZero fun _ _ hop => by simp [decode, hop], encodedAs_of_whenZero fun _ _ hop => by simp [decode, hop],
    fun d _ s => next_setV_toNat s d _ (toNat_keep_setWidth _ _),
    fun d _ s => next_setX s d _ (BitVec.ofNat_toNat _ _).symm⟩

/-! ## The checks of VLD and VST (R133, 60_exceptions.md R210) -/

/-- An access to the word of DMEM at `addr`: the answer `access`, once the address is aligned and in range. -/
def State.wordAccess (s : State) (addr : Word) (access : Result) : Result :=
  if addr.toNat % s.cfg.word.bytes ≠ 0 then raise .dataMisaligned addr s
  else if !s.inDmem addr.toNat s.cfg.word.bytes then raise .dataAccessFault addr s
  else access

/-- VLD's access: the load of a word that has been written. -/
theorem exec_vld_eq (d : VReg) (a : XReg) (imm14 : BitVec 14) (s : State) :
    exec (.vld d a imm14) s =
      s.wordAccess (s.effectiveAddress a imm14)
        (if !Memory.written s.dmem (s.effectiveAddress a imm14).toNat s.cfg.word.bytes then
          .fault (.uninitDmem (s.effectiveAddress a imm14).toNat)
        else .next (s.setV d (s.memRead (s.effectiveAddress a imm14).toNat s.cfg.word.bytes)).advance) := rfl

/-- VST's access: the store. -/
theorem exec_vst_eq (d : VReg) (a : XReg) (imm14 : BitVec 14) (s : State) :
    exec (.vst d a imm14) s =
      s.wordAccess (s.effectiveAddress a imm14)
        (.next (s.memWrite (s.effectiveAddress a imm14).toNat s.cfg.word.bytes (s.getV d)).advance) := rfl

section
variable {s : State} {addr : Word} (access : Result)

theorem wordAccess_of_misaligned (h : addr.toNat % s.cfg.word.bytes ≠ 0) :
    s.wordAccess addr access = .next (s.enterException .dataMisaligned addr) := if_pos h

theorem wordAccess_of_outside (haligned : addr.toNat % s.cfg.word.bytes = 0)
    (h : s.cfg.dmemBytes < addr.toNat + s.cfg.word.bytes) :
    s.wordAccess addr access = .next (s.enterException .dataAccessFault addr) := by
  rw [State.wordAccess, if_neg (not_not_intro haligned), if_pos (by simpa [State.inDmem] using h), raise]

theorem wordAccess_of_inside (haligned : addr.toNat % s.cfg.word.bytes = 0)
    (h : addr.toNat + s.cfg.word.bytes ≤ s.cfg.dmemBytes) : s.wordAccess addr access = access := by
  rw [State.wordAccess, if_neg (not_not_intro haligned), if_neg (by simpa [State.inDmem] using h)]

end

/-! ## VLD and VST inside DMEM (R133, R134) -/

section
variable {s : State} {a : XReg} {imm14 : BitVec 14} {addr : Word} (d : VReg)
variable (haddr : s.effectiveAddress a imm14 = addr) (haligned : addr.toNat % s.cfg.word.bytes = 0)
variable (hinside : addr.toNat + s.cfg.word.bytes ≤ s.cfg.dmemBytes)
include haddr haligned hinside

/-- A load of written bytes. -/
theorem next_vld (hwritten : ∀ p, p < s.cfg.word.bytes → (Memory.read s.dmem (addr.toNat + p)).isSome = true) :
    ∃ t, exec (.vld d a imm14) s = .next t ∧
      (∀ p, p < s.cfg.word.bytes → some (byteAt (t.getV d) p) = Memory.read s.dmem (addr.toNat + p)) ∧
      t.pc = s.pc + 4 ∧ ChangesOnly { vec := fun r => r = d } s t := by
  have hexec : exec (.vld d a imm14) s = .next (s.setV d (s.memRead addr.toNat s.cfg.word.bytes)).advance := by
    rw [exec_vld_eq, haddr, wordAccess_of_inside _ haligned hinside, (written_iff _ _ _).2 hwritten]; rfl
  refine ⟨_, hexec, fun p hp => ?_, rfl, changesOnly_setV s d _⟩
  obtain ⟨c, hc⟩ := Option.isSome_iff_exists.1 (hwritten p hp)
  have hbyte : byteAt ((s.setV d (s.memRead addr.toNat s.cfg.word.bytes)).advance.getV d) p = s.dmemByte (addr.toNat + p) :=
    byteAt_setV_ofByteLanes s d (fun k => s.dmemByte (addr.toNat + k)) p hp
  rw [hbyte, State.dmemByte, hc, Option.getD_some]

/-- A load of an unwritten byte (10_state.md R31, log 6). -/
theorem exec_vld_of_unwritten {p : Nat} (hp : p < s.cfg.word.bytes) (h : Memory.read s.dmem (addr.toNat + p) = none) :
    exec (.vld d a imm14) s = .fault (.uninitDmem addr.toNat) := by
  rw [exec_vld_eq, haddr, wordAccess_of_inside _ haligned hinside, not_written_of_read_none _ _ _ p hp h]; rfl

theorem next_vst :
    ∃ t, exec (.vst d a imm14) s = .next t ∧
      (∀ p, p < s.cfg.word.bytes → Memory.read t.dmem (addr.toNat + p) = some (byteAt (s.getV d) p)) ∧
      t.pc = s.pc + 4 ∧
      ChangesOnly { dmem := fun k => addr.toNat ≤ k ∧ k < addr.toNat + s.cfg.word.bytes } s t := by
  have hexec : exec (.vst d a imm14) s = .next (s.memWrite addr.toNat s.cfg.word.bytes (s.getV d)).advance := by
    rw [exec_vst_eq, haddr, wordAccess_of_inside _ haligned hinside]
  exact ⟨_, hexec, fun p => read_writeRange_inside s.dmem _ _ p (byteAt (s.getV d)), rfl, changesOnly_memWrite s _ _ _⟩

end

/-- Settles O39: the two checks, and inside DMEM the load or the unwritten byte. -/
theorem vldLoadsAlignedWords : Obligations.VldLoadsAlignedWords := by
  refine ⟨encodedAs_of_whenZero fun _ _ hop => by simp [decode, hop], fun d a imm14 s addr hsum => ?_⟩
  have haddr : s.effectiveAddress a imm14 = addr := (effectiveAddress_eq s a imm14).trans hsum.symm
  refine ⟨fun h => ?_, fun haligned h => ?_, fun haligned hinside =>
    ⟨next_vld d haddr haligned hinside, fun _ => exec_vld_of_unwritten d haddr haligned hinside⟩⟩
  · rw [exec_vld_eq, haddr, wordAccess_of_misaligned _ h]
  · rw [exec_vld_eq, haddr, wordAccess_of_outside _ haligned h]

/-- Settles O40: the two checks, and inside DMEM the store. -/
theorem vstStoresAlignedWords : Obligations.VstStoresAlignedWords := by
  refine ⟨encodedAs_of_whenZero fun _ _ hop => by simp [decode, hop], fun d a imm14 s addr haddr => ?_⟩
  refine ⟨haddr.trans (effectiveAddress_eq s a imm14), fun h => ?_, fun haligned h => ?_, next_vst d haddr.symm⟩
  · rw [exec_vst_eq, ← haddr, wordAccess_of_misaligned _ h]
  · rw [exec_vst_eq, ← haddr, wordAccess_of_outside _ haligned h]

/-! ## A store and then a load (R135) -/

/-- Settles O41: each byte of the loaded word is the byte that the store left in DMEM, and a register is its W/8 bytes. -/
theorem storeThenLoadReturnsTheWord : Obligations.StoreThenLoadReturnsTheWord := by
  intro k d a a' imm imm' s t u addr haddr haligned hinside hvst hcfg haddr' hkept
  obtain ⟨_, hvst', hstored, -, hframe⟩ := next_vst k haddr.symm haligned hinside
  obtain rfl : t = _ := Host.Outcome.next.inj (hvst.symm.trans hvst')
  have hucfg : u.cfg = s.cfg := hcfg.trans hframe.cfg
  have hbyte (p : Nat) (hp : p < s.cfg.word.bytes) : Memory.read u.dmem (addr.toNat + p) = some (byteAt (s.getV k) p) :=
    (hkept p hp).trans (hstored p hp)
  rw [← hucfg] at haligned hinside hbyte
  obtain ⟨t', hvld, hloaded, -, hframe'⟩ :=
    next_vld d haddr' haligned hinside fun p hp => by rw [hbyte p hp, Option.isSome_some]
  have hkeep : keep s.cfg.word (t'.getV d) = t'.getV d := by rw [← hucfg, ← hframe'.cfg, keep_getV]
  refine ⟨t', hvld, eq_of_bytes s.cfg.word _ _ hkeep (keep_getV s k) fun p hp => ?_⟩
  rw [← hucfg] at hp
  exact Option.some.inj ((hloaded p hp).trans (hbyte p hp))

end Sys2Proof.Machine
end

/-! # Basis change (43_basis_change.md R145 to R148)

The tower product commutes with XOR in each factor, as the AES product and the maps of T2A and A2T do. So R145 is an equation
between maps that are known from the eight bytes with one bit set, and it is checked there for each row of R146. -/

section
namespace Sys2Proof.Machine

/-! ## The tower product is linear in each factor (93_implementation_defined.md G3) -/

/-- `x` is a value of `n` bits held in a byte. -/
def HasBits (n : Nat) (x : Byte) : Prop := ∀ i, n ≤ i → x.getLsbD i = false

/-- The half `a0` of a value of 2^(k+1) bits. -/
def lowHalf (k : Nat) (x : Byte) : Byte := x &&& BitVec.ofNat 8 (2 ^ 2 ^ k - 1)

/-- The half `a1` of a value of 2^(k+1) bits. -/
def highHalf (k : Nat) (x : Byte) : Byte := x >>> 2 ^ k

/-- The constant `alpha` of G3 at level `k + 1`. -/
def towerAlpha (k : Nat) : Byte := if k = 0 then 1 else BitVec.ofNat 8 (2 ^ (2 ^ k / 2))

section
variable {n : Nat} {x y : Byte} (k : Nat)

theorem HasBits.xor (hx : HasBits n x) (hy : HasBits n y) : HasBits n (x ^^^ y) := fun i hi => by
  rw [BitVec.getLsbD_xor, hx i hi, hy i hi, Bool.xor_false]

theorem hasBits_eight (x : Byte) : HasBits 8 x := fun i hi => BitVec.getLsbD_of_ge x i hi

theorem hasBits_lowHalf (x : Byte) : HasBits (2 ^ k) (lowHalf k x) := fun i hi => by
  simp [lowHalf, BitVec.getLsbD_ofNat, Nat.testBit_two_pow_sub_one, Nat.not_lt.2 hi]

theorem hasBits_highHalf (hx : HasBits (2 ^ (k + 1)) x) : HasBits (2 ^ k) (highHalf k x) := fun i hi => by
  rw [highHalf, BitVec.getLsbD_ushiftRight]
  exact hx _ (by rw [Nat.pow_succ]; omega)

theorem lowHalf_xor (x y : Byte) : lowHalf k (x ^^^ y) = lowHalf k x ^^^ lowHalf k y := by
  simp only [lowHalf, BitVec.and_comm _ (BitVec.ofNat _ _), and_xor_distrib]

theorem highHalf_xor (x y : Byte) : highHalf k (x ^^^ y) = highHalf k x ^^^ highHalf k y :=
  BitVec.ushiftRight_xor_distrib x y _

/-- Two halves that are put together do not overlap. -/
theorem or_shiftLeft_eq_xor (hx : HasBits n x) (y : Byte) : x ||| y <<< n = x ^^^ y <<< n :=
  BitVec.eq_of_getLsbD_eq fun i _ => by
    rw [BitVec.getLsbD_or, BitVec.getLsbD_xor]
    by_cases hi : i < n
    · simp [hi]
    · simp [hx i (Nat.not_lt.1 hi)]

theorem HasBits.join (hx : HasBits (2 ^ k) x) (hy : HasBits (2 ^ k) y) : HasBits (2 ^ (k + 1)) (x ||| y <<< 2 ^ k) :=
  fun i hi => by
    rw [Nat.pow_succ] at hi
    rw [BitVec.getLsbD_or, BitVec.getLsbD_shiftLeft, hx i (by omega), hy (i - 2 ^ k) (by omega)]
    simp

end

/-- One level of G3, with the halves of the factors named. -/
theorem towmulAt_succ (k : Nat) (a b : Byte) :
    towmulAt (k + 1) a b =
      (towmulAt k (lowHalf k a) (lowHalf k b) ^^^ towmulAt k (highHalf k a) (highHalf k b)) |||
        ((towmulAt k (lowHalf k a ^^^ highHalf k a) (lowHalf k b ^^^ highHalf k b) ^^^
            towmulAt k (lowHalf k a) (lowHalf k b) ^^^ towmulAt k (highHalf k a) (highHalf k b)) ^^^
          towmulAt k (towmulAt k (highHalf k a) (highHalf k b)) (towerAlpha k)) <<< 2 ^ k := rfl

theorem towmulAt_comm (k : Nat) (a b : Byte) : towmulAt k a b = towmulAt k b a := by
  induction k generalizing a b with
  | zero => exact BitVec.and_comm a b
  | succ k ih =>
    rw [towmulAt_succ, towmulAt_succ, ih (lowHalf k a), ih (highHalf k a), ih (lowHalf k a ^^^ highHalf k a)]

theorem hasBits_towmulAt {k : Nat} {a : Byte} (ha : HasBits (2 ^ k) a) (b : Byte) : HasBits (2 ^ k) (towmulAt k a b) := by
  induction k generalizing a b with
  | zero => exact fun i hi => by rw [towmulAt, BitVec.getLsbD_and, ha i hi, Bool.false_and]
  | succ k ih =>
    have hlow := hasBits_lowHalf k a
    have hhigh := hasBits_highHalf k ha
    have hz0 := ih hlow (lowHalf k b)
    have hz2 := ih hhigh (highHalf k b)
    exact (hz0.xor hz2).join k ((((ih (hlow.xor hhigh) _).xor hz0).xor hz2).xor (ih hz2 _))

theorem towmulAt_xor {k : Nat} {a a' : Byte} (ha : HasBits (2 ^ k) a) (ha' : HasBits (2 ^ k) a') (b : Byte) :
    towmulAt k (a ^^^ a') b = towmulAt k a b ^^^ towmulAt k a' b := by
  induction k generalizing a a' b with
  | zero => simp only [towmulAt, BitVec.and_comm _ b, and_xor_distrib]
  | succ k ih =>
    have hlow (x : Byte) := hasBits_lowHalf k x
    have hhigh {x : Byte} (hx : HasBits (2 ^ (k + 1)) x) := hasBits_highHalf k hx
    have hz2 {x : Byte} (hx : HasBits (2 ^ (k + 1)) x) := hasBits_towmulAt (hhigh hx) (highHalf k b)
    have join {x : Byte} (hx : HasBits (2 ^ (k + 1)) x) :=
      or_shiftLeft_eq_xor ((hasBits_towmulAt (hlow x) (lowHalf k b)).xor (hz2 hx))
    have hsum : lowHalf k (a ^^^ a') ^^^ highHalf k (a ^^^ a') =
        (lowHalf k a ^^^ highHalf k a) ^^^ (lowHalf k a' ^^^ highHalf k a') := by
      rw [lowHalf_xor, highHalf_xor]; ac_rfl
    rw [towmulAt_succ, join (ha.xor ha'), towmulAt_succ, join ha, towmulAt_succ, join ha', hsum, lowHalf_xor, highHalf_xor,
      ih (hlow a) (hlow a'), ih (hhigh ha) (hhigh ha'), ih ((hlow a).xor (hhigh ha)) ((hlow a').xor (hhigh ha')),
      ih (hz2 ha) (hz2 ha')]
    simp only [BitVec.shiftLeft_xor_distrib]
    ac_rfl

theorem towmul_comm (a b : Byte) : towmul a b = towmul b a := towmulAt_comm 3 a b

theorem xorLinear_towmul_left (b : Byte) : XorLinear (towmul · b) := fun a a' =>
  towmulAt_xor (k := 3) (hasBits_eight a) (hasBits_eight a') b

theorem xorLinear_towmul_right (a : Byte) : XorLinear (towmul a) := fun b b' => by
  simp only [towmul_comm a]; exact xorLinear_towmul_left a b b'

/-! ## `toaes` and `fromaes` (R145) -/

/-! ### The rows of R146, on the bytes with one bit set -/

theorem fromaes_toaes_twoPow_of_row : ∀ r : Fin 8, ∀ k < 8,
    affine (a2tOfRow r) (affine (t2aOfRow r) (.twoPow 8 k)) = .twoPow 8 k := by decide +kernel

theorem toaes_fromaes_twoPow_of_row : ∀ r : Fin 8, ∀ k < 8,
    affine (t2aOfRow r) (affine (a2tOfRow r) (.twoPow 8 k)) = .twoPow 8 k := by decide +kernel

theorem toaes_towmul_twoPow_of_row : ∀ r : Fin 8, ∀ j < 8, ∀ k < 8,
    affine (t2aOfRow r) (towmul (.twoPow 8 j) (.twoPow 8 k)) =
      aesmul (affine (t2aOfRow r) (.twoPow 8 j)) (affine (t2aOfRow r) (.twoPow 8 k)) := by decide +kernel

/-! ### Every tile and every byte -/

section
variable (c : Config)

theorem xorLinear_toaes : XorLinear (toaes c) := xorLinear_affine _

theorem xorLinear_fromaes : XorLinear (fromaes c) := xorLinear_affine _

theorem fromaes_toaes (y : Byte) : fromaes c (toaes c y) = y :=
  ((xorLinear_fromaes c).comp (xorLinear_toaes c)).ext .id (fromaes_toaes_twoPow_of_row c.row) y

theorem toaes_fromaes (y : Byte) : toaes c (fromaes c y) = y :=
  ((xorLinear_toaes c).comp (xorLinear_fromaes c)).ext .id (toaes_fromaes_twoPow_of_row c.row) y

theorem toaes_towmul (p q : Byte) : toaes c (towmul p q) = aesmul (toaes c p) (toaes c q) :=
  ((xorLinear_toaes c).comp (xorLinear_towmul_left q)).ext ((xorLinear_aesmul_left _).comp (xorLinear_toaes c))
    (fun j hj => ((xorLinear_toaes c).comp (xorLinear_towmul_right _)).ext
      ((xorLinear_aesmul_right _).comp (xorLinear_toaes c)) (toaes_towmul_twoPow_of_row c.row j hj) q) p

end

/-- Settles O43: three equations between linear maps, checked on the bytes with one bit set. -/
theorem basisChangeIsAFieldIsomorphism : Obligations.BasisChangeIsAFieldIsomorphism := fun c =>
  ⟨fun y => ⟨fromaes_toaes c y, toaes_fromaes c y⟩, toaes_towmul c⟩

/-! ## TOAES and FROMAES (R147, R148) -/

/-- What an instruction does that writes one vector register byte by byte. -/
theorem next_setV_byteAt (s : State) (d : VReg) (f : Nat → Byte) :
    ∃ t : State, (.next (s.setV d (ofByteLanes s.cfg.word f)).advance : Result) = .next t ∧
      (∀ p, p < s.cfg.word.bytes → byteAt (t.getV d) p = f p) ∧ t.pc = s.pc + 4 ∧
      ChangesOnly { vec := fun r => r = d } s t :=
  ⟨_, rfl, byteAt_setV_ofByteLanes s d f, rfl, changesOnly_setV s d _⟩

theorem affine_t2a_one (c : Config) : affine c.t2a 1 = 1 :=
  (show ∀ r : Fin 8, affine (t2aOfRow r) 1 = 1 by decide) c.row

/-- Byte `p` of GFAFF takes its matrix from qword `p / 8`, which is T2A for every byte of the word. -/
theorem exec_toaes_eq_exec_gfaff {s : State} {b : VReg} (h : ∀ q, q < s.cfg.word.qwords → qwordAt (s.getV b) q = s.cfg.t2a)
    (d a : VReg) : exec (.toaes d a) s = exec (.gfaff d a b) s := by
  have hbytes : s.cfg.word.bytes = 8 * s.cfg.word.qwords := by
    have := s.cfg.word.bytes_mul
    have := s.cfg.word.qwords_mul
    omega
  have hlanes : ofByteLanes s.cfg.word (fun p => toaes s.cfg (byteAt (s.getV a) p)) =
      ofByteLanes s.cfg.word fun p => affine (qwordAt (s.getV b) (p / 8)) (byteAt (s.getV a) p) :=
    ofByteLanes_congr _ _ _ fun p hp => by rw [h (p / 8) (by omega), toaes]
  exact congrArg (fun u => (.next (s.setV d u).advance : Result)) hlanes

theorem next_fromaes (s : State) (d a : VReg) :
    ∃ t, exec (.fromaes d a) s = .next t ∧
      (∀ p, p < s.cfg.word.bytes → byteAt (t.getV d) p = fromaes s.cfg (byteAt (s.getV a) p)) ∧
      t.pc = s.pc + 4 ∧ ChangesOnly { vec := fun r => r = d } s t := next_setV_byteAt s d _

/-- FROMAES gives back the word whose bytes `toaes` has mapped. -/
theorem next_fromaes_of_toaes {s t : State} {a d : VReg} (hcfg : t.cfg = s.cfg)
    (h : ∀ p, p < s.cfg.word.bytes → byteAt (t.getV d) p = toaes s.cfg (byteAt (s.getV a) p)) (d' : VReg) :
    ∃ u, exec (.fromaes d' d) t = .next u ∧ u.getV d' = s.getV a := by
  obtain ⟨u, hu, hbytes, -, hframe⟩ := next_fromaes t d' d
  rw [hcfg] at hbytes
  have hkeep : keep s.cfg.word (u.getV d') = u.getV d' := by rw [← hcfg, ← hframe.cfg, keep_getV]
  refine ⟨u, hu, eq_of_bytes s.cfg.word _ _ hkeep (keep_getV s a) fun p hp => ?_⟩
  rw [hbytes p hp, h p hp, fromaes_toaes]

/-- Settles O42: a word is its bytes, and `fromaes` undoes `toaes` on each. -/
theorem basisChangeInstructionsMapEveryByte : Obligations.BasisChangeInstructionsMapEveryByte := by
  refine ⟨encodedAs_of_whenZero fun _ _ hop => by simp [decode, hop],
    encodedAs_of_whenZero fun _ _ hop => by simp [decode, hop],
    fun c => ⟨(xorLinear_affine _).map_zero, affine_t2a_one c⟩, fun d a b s h => exec_toaes_eq_exec_gfaff h d a,
    fun d a s => ⟨?_, next_fromaes s d a⟩⟩
  obtain ⟨t, ht, hbytes, hpc, hframe⟩ := next_setV_byteAt s d fun p => toaes s.cfg (byteAt (s.getV a) p)
  exact ⟨t, ht, hbytes, hpc, hframe, next_fromaes_of_toaes hframe.cfg hbytes⟩

end Sys2Proof.Machine
end

/-! # GF(2^8) arithmetic (44_gf8_arith.md R155 to R160)

Each of the five instructions writes one vector register byte by byte, so `next_setV_byteAt` says what it does. TMUL and TINV
go through the AES basis; that `toaes` carries the tower product to the AES product makes them the product and the inverse of the
tower field itself, whatever the row of R146 (R160). -/

section
namespace Sys2Proof.Machine

/-! ## TMUL and TINV in the tower field (R158 to R160) -/

section
variable (c : Config)

theorem toaes_ne_zero {p : Byte} (hp : p ≠ 0) : toaes c p ≠ 0 := fun hzero =>
  hp <| by rw [← fromaes_toaes c p, hzero, (xorLinear_fromaes c).map_zero]

theorem fromaes_one : fromaes c 1 = 1 := by
  have hinv := fromaes_toaes c 1
  rwa [toaes, affine_t2a_one] at hinv

theorem tmulByte_eq_towmul (p q : Byte) : tmulByte c p q = towmul p q := by
  rw [tmulByte, ← toaes_towmul, fromaes_toaes]

theorem tinvByte_zero : tinvByte c 0 = 0 := by
  rw [tinvByte, (xorLinear_toaes c).map_zero, aesinv_zero, (xorLinear_fromaes c).map_zero]

theorem towmul_tinvByte {p : Byte} (hp : p ≠ 0) : towmul p (tinvByte c p) = 1 := by
  rw [← tmulByte_eq_towmul c, tmulByte, tinvByte, toaes_fromaes, aesmul_aesinv _ (toaes_ne_zero c hp), fromaes_one]

end

section
variable (s : State) (d a b : VReg)

theorem next_tmul :
    ∃ t, exec (.tmul d a b) s = .next t ∧
      (∀ p, p < s.cfg.word.bytes → byteAt (t.getV d) p = tmulByte s.cfg (byteAt (s.getV a) p) (byteAt (s.getV b) p)) ∧
      t.pc = s.pc + 4 ∧ ChangesOnly { vec := fun r => r = d } s t := next_setV_byteAt s d _

theorem next_tinv :
    ∃ t, exec (.tinv d a) s = .next t ∧
      (∀ p, p < s.cfg.word.bytes → byteAt (t.getV d) p = tinvByte s.cfg (byteAt (s.getV a) p)) ∧
      t.pc = s.pc + 4 ∧ ChangesOnly { vec := fun r => r = d } s t := next_setV_byteAt s d _

end

/-- Settles O48: the two bytes' definitions, with `toaes` and `fromaes` the maps of T2A and A2T. -/
theorem tmulAndTinvGoThroughTheAesBasis : Obligations.TmulAndTinvGoThroughTheAesBasis :=
  ⟨encodedAs_of_whenZero fun _ _ hop => by simp [decode, hop], encodedAs_of_whenZero fun _ _ hop => by simp [decode, hop],
    fun d a b s => ⟨next_tmul s d a b, next_tinv s d a⟩⟩

/-- Settles O49: `tmulByte` is the tower product on every row, and `tinvByte` the inverse in it. -/
theorem tmulAndTinvDoNotDependOnTheRow : Obligations.TmulAndTinvDoNotDependOnTheRow := by
  refine ⟨fun d a b s => ?_, fun d a s => ?_⟩
  · obtain ⟨t, ht, hbytes, -⟩ := next_tmul s d a b
    exact ⟨t, ht, fun p hp => (hbytes p hp).trans (tmulByte_eq_towmul _ _ _)⟩
  · obtain ⟨t, ht, hbytes, -⟩ := next_tinv s d a
    refine ⟨t, ht, fun p hp => ?_⟩
    rw [hbytes p hp]
    exact ⟨fun hzero => by rw [hzero, tinvByte_zero], towmul_tinvByte s.cfg⟩

/-! ## GFMUL (R155) -/

theorem exec_gfmul_comm (d a b : VReg) (s : State) : exec (.gfmul d a b) s = exec (.gfmul d b a) s :=
  congrArg (fun f => (.next (s.setV d (ofByteLanes s.cfg.word f)).advance : Result)) (funext fun _ => aesmul_comm _ _)

/-- Settles O46: the laws of `aesmul`, and one product for each byte. -/
theorem gfmulMultipliesEveryByte : Obligations.GfmulMultipliesEveryByte :=
  ⟨encodedAs_of_whenZero fun _ _ hop => by simp [decode, hop], exec_gfmul_comm, fun y => ⟨aesmul_zero y, aesmul_one y⟩,
    fun d _ _ s => next_setV_byteAt s d _⟩

/-! ## GFAFF and GFAFFINV (R156, R157) -/

/-- Row `i` of the bit-reverse matrix picks bit `i`. -/
theorem byteAt_bitReverse : ∀ i < 8, byteAt (0x8040201008040201 : Mat) i = .twoPow 8 i := by decide

theorem getLsbD_affine_bitReverse (y : Byte) (r : Nat) (hr : r < 8) :
    (affine 0x8040201008040201 y).getLsbD r = y.getLsbD (7 - r) := by
  have hi : 7 - r < 8 := by omega
  rw [getLsbD_affine _ _ _ hr, byteAt_bitReverse _ hi, BitVec.and_comm, parity_and_twoPow _ _ hi]

/-- Settles O47: `affine` is linear in its byte, and the two named matrices are known row by row. -/
theorem gfaffAndGfaffinvUseTheQwordsMatrix : Obligations.GfaffAndGfaffinvUseTheQwordsMatrix :=
  ⟨encodedAs_of_whenZero fun _ _ hop => by simp [decode, hop], encodedAs_of_whenZero fun _ _ hop => by simp [decode, hop],
    xorLinear_affine, fun A => (xorLinear_affine A).map_zero, aesinv_zero, affine_identity, getLsbD_affine_bitReverse,
    fun d _ _ s => ⟨next_setV_byteAt s d _, next_setV_byteAt s d _⟩⟩

end Sys2Proof.Machine
end

/-! # The 8-bit affine transformations (45_affine8.md R170 to R175)

MPREP transposes a qword so that byte `k` of the source becomes column `k` of the matrix, which R171 reads as a linear map.
AFFG, GWR and GRD make the same checks of their grid entry, which are said once, of `State.gridAccess` and `State.gridLoad`. -/

section
namespace Sys2Proof.Machine

/-! ## MPREP (R170, R171) -/

section
variable (c : Mat)

theorem getLsbD_mprep64 {r k : Nat} (hr : r < 8) (hk : k < 8) :
    (mprep64 c).getLsbD (8 * (7 - r) + k) = c.getLsbD (8 * k + r) := by
  have hin : 8 * (7 - r) + k < 64 := by omega
  have hrow : 7 - (8 * (7 - r) + k) / 8 = r := by omega
  have hcol : (8 * (7 - r) + k) % 8 = k := by omega
  rw [mprep64, getLsbD_ofBits, hrow, hcol, decide_eq_true hin, Bool.true_and]

/-- Column `k` of the prepared matrix is byte `k` of the source. -/
theorem affine_mprep64_twoPow {k : Nat} (hk : k < 8) : affine (mprep64 c) (.twoPow 8 k) = byteAt c k :=
  BitVec.eq_of_getLsbD_eq fun r hr => by
    rw [getLsbD_affine_twoPow _ _ _ hr hk, getLsbD_mprep64 c hr hk, getLsbD_laneAt, decide_eq_true hr, Bool.true_and]

theorem affine_mprep64 (y : Byte) : affine (mprep64 c) y = linearMap (fun k => byteAt c k) y := by
  rw [(xorLinear_affine _).eq_xorUpTo, linearMap]
  exact xorUpTo_congr _ _ 8 fun k hk => by rw [affine_mprep64_twoPow c hk]

end

/-- An instruction that writes one vector register qword by qword. -/
theorem next_setV_qwordAt (s : State) (d : VReg) (f : Nat → Mat) :
    ∃ t : State, (.next (s.setV d (ofQwordLanes s.cfg.word f)).advance : Result) = .next t ∧
      (∀ q, q < s.cfg.word.qwords → qwordAt (t.getV d) q = f q) ∧ t.pc = s.pc + 4 ∧
      ChangesOnly { vec := fun r => r = d } s t :=
  ⟨_, rfl, qwordAt_setV_ofQwordLanes s d f, rfl, changesOnly_setV s d _⟩

/-- Settles O50: each qword is transposed, and an affine map is the XOR of the columns its byte selects. -/
theorem mprepPreparesTheMatrix : Obligations.MprepPreparesTheMatrix := by
  refine ⟨encodedAs_of_whenZero fun _ _ hop => by simp [decode, hop], fun d a s => ?_, affine_mprep64⟩
  obtain ⟨t, ht, hqwords, hpc, hframe⟩ := next_setV_qwordAt s d fun q => mprep64 (qwordAt (s.getV a) q)
  exact ⟨t, ht, fun q r k hq hr hk => by rw [hqwords q hq, getLsbD_mprep64 _ hr hk], hpc, hframe⟩

/-! ## The checks of a grid access (R173 to R175, 10_state.md R31) -/

/-- An access to the `n` entries of the grid from `g`: the answer `access`, once they are in range. -/
def State.gridAccess (s : State) (g : BitVec 11) (n : Nat) (access : Result) : Result :=
  if !s.inGrid g.toNat n then raise .gridRange (g.setWidth 32) s else access

/-- A read of the `n` entries of the grid from `g`: the answer `access`, once they have been written. -/
def State.gridLoad (s : State) (g : BitVec 11) (n : Nat) (access : Result) : Result :=
  if !Memory.written s.grid g.toNat n then .fault (.uninitGrid g.toNat) else access

section
variable (s : State) (d a : VReg) (g : BitVec 11)

theorem exec_affg_eq :
    exec (.affg d a g) s = s.gridAccess g 1 (s.gridLoad g 1 <|
      .next (s.setV d (ofByteLanes s.cfg.word fun p => affine (s.gridEntry g.toNat) (byteAt (s.getV a) p))).advance) := rfl

theorem exec_gwr_eq :
    exec (.gwr a g) s = s.gridAccess g 1 (.next (s.writeGrid g.toNat 1 fun _ => qwordAt (s.getV a) 0).advance) := rfl

theorem exec_grd_eq :
    exec (.grd d g) s = s.gridAccess g 1 (s.gridLoad g 1 <|
      .next (s.setV d (ofQwordLanes s.cfg.word fun _ => s.gridEntry g.toNat)).advance) := rfl

end

section
variable {s : State} {g : BitVec 11} {n : Nat} (access : Result)

theorem gridAccess_of_outside (h : s.cfg.gridSize < g.toNat + n) :
    s.gridAccess g n access = .next (s.enterException .gridRange (BitVec.ofNat 32 g.toNat)) := by
  rw [State.gridAccess, if_pos (by simpa [State.inGrid] using h), raise, BitVec.ofNat_toNat]

theorem gridAccess_of_inside (h : g.toNat + n ≤ s.cfg.gridSize) : s.gridAccess g n access = access := by
  rw [State.gridAccess, if_neg (by simpa [State.inGrid] using h)]

theorem gridLoad_of_unwritten {k : Nat} (hk : k < n) (h : Memory.read s.grid (g.toNat + k) = none) :
    s.gridLoad g n access = .fault (.uninitGrid g.toNat) := by
  rw [State.gridLoad, not_written_of_read_none _ _ _ k hk h]; rfl

theorem gridLoad_of_written (h : ∀ k, k < n → (Memory.read s.grid (g.toNat + k)).isSome = true) :
    s.gridLoad g n access = access := by
  rw [State.gridLoad, (written_iff _ _ _).2 h]; rfl

/-- A load of one written entry. -/
theorem gridLoad_of_read {A : Mat} (h : Memory.read s.grid g.toNat = some A) : s.gridLoad g 1 access = access :=
  gridLoad_of_written _ fun k hk => by rw [Nat.lt_one_iff.1 hk, Nat.add_zero, h, Option.isSome_some]

end

/-! ## AFFG, GWR and GRD on an entry of the grid (R173 to R175) -/

theorem gridEntry_of_read {s : State} {k : Nat} {A : Mat} (h : Memory.read s.grid k = some A) : s.gridEntry k = A := by
  rw [State.gridEntry, h, Option.getD_some]

section
variable {s : State} {g : BitVec 11} (d a : VReg) (hinside : g.toNat < s.cfg.gridSize)
include hinside

theorem exec_affg_of_unwritten (h : Memory.read s.grid g.toNat = none) :
    exec (.affg d a g) s = .fault (.uninitGrid g.toNat) := by
  rw [exec_affg_eq, gridAccess_of_inside _ hinside, gridLoad_of_unwritten _ Nat.one_pos h]

theorem exec_grd_of_unwritten (h : Memory.read s.grid g.toNat = none) :
    exec (.grd d g) s = .fault (.uninitGrid g.toNat) := by
  rw [exec_grd_eq, gridAccess_of_inside _ hinside, gridLoad_of_unwritten _ Nat.one_pos h]

theorem next_affg {A : Mat} (h : Memory.read s.grid g.toNat = some A) :
    ∃ t, exec (.affg d a g) s = .next t ∧
      (∀ p, p < s.cfg.word.bytes → byteAt (t.getV d) p = affine A (byteAt (s.getV a) p)) ∧
      t.pc = s.pc + 4 ∧ ChangesOnly { vec := fun r => r = d } s t := by
  rw [exec_affg_eq, gridAccess_of_inside _ hinside, gridLoad_of_read _ h, gridEntry_of_read h]
  exact next_setV_byteAt s d _

theorem next_grd {A : Mat} (h : Memory.read s.grid g.toNat = some A) :
    ∃ t, exec (.grd d g) s = .next t ∧ (∀ q, q < s.cfg.word.qwords → qwordAt (t.getV d) q = A) ∧
      t.pc = s.pc + 4 ∧ ChangesOnly { vec := fun r => r = d } s t := by
  rw [exec_grd_eq, gridAccess_of_inside _ hinside, gridLoad_of_read _ h, gridEntry_of_read h]
  exact next_setV_qwordAt s d _

theorem next_gwr :
    ∃ t, exec (.gwr a g) s = .next t ∧ Memory.read t.grid g.toNat = some ((s.getV a).extractLsb' 0 64) ∧
      t.pc = s.pc + 4 ∧ ChangesOnly { grid := fun k => k = g.toNat } s t := by
  rw [exec_gwr_eq, gridAccess_of_inside _ hinside]
  refine ⟨_, rfl, read_writeRange_inside s.grid g.toNat 1 0 _ Nat.one_pos, rfl, ?_⟩
  exact (changesOnly_writeGrid s g.toNat 1 _).mono (fun _ => id) (fun _ => id) id (fun _ _ => by omega) (fun _ => id) id id

end

/-- Settles O51: the range check, and inside the grid the load of one entry, written or not, or its store. -/
theorem gridEntryInstructions : Obligations.GridEntryInstructions := by
  refine ⟨encodedAs_of_whenZero fun _ _ hop => by simp [decode, hop], encodedAs_of_whenZero fun _ _ hop => by simp [decode, hop],
    encodedAs_of_whenZero fun _ _ hop => by simp [decode, hop], fun d a g s => ⟨fun houtside => ?_, fun hinside => ?_⟩⟩
  · have hrange : s.cfg.gridSize < g.toNat + 1 := Nat.lt_succ_of_le houtside
    rw [exec_affg_eq, exec_gwr_eq, exec_grd_eq]
    exact ⟨gridAccess_of_outside _ hrange, gridAccess_of_outside _ hrange, gridAccess_of_outside _ hrange⟩
  · exact ⟨fun A hread => ⟨next_affg d a hinside hread, next_grd d hinside hread⟩,
      fun hread => ⟨exec_affg_of_unwritten d a hinside hread, exec_grd_of_unwritten d hinside hread⟩, next_gwr a hinside⟩

end Sys2Proof.Machine
end

/-! # The N×N engine (46_affine_nxn.md R185 to R191)

GBUILD and XFORM make their checks in one order: the width, the grid range and, for GBUILD, the DMEM range; then the bytes or
entries they read must have been written. Each check is said once, of the answer that it guards. GBUILD writes at entry (i, j)
the map from byte i of a lane to byte j of its image, so XFORM's sum over j is the sum of R185 taken eight basis images at a
time (R189). The decomposition of R190 moves the same bytes by whole-word shifts, and its blend tree picks byte `p` from
partial word `p mod N` (R191). -/

section
namespace Sys2Proof.Machine

/-! ## The checks of GBUILD and XFORM (R187, R188) -/

/-- An instruction `i` of width `lgN`: the answer `access`, once the width is legal (30_encoding.md R67 item 4, log 12). -/
def State.widthAccess (s : State) (lgN : BitVec 3) (i : Instr) (access : Result) : Result :=
  if !widthOk lgN then raiseIllegal i s else access

/-- A read of the `n` bytes of DMEM from `addr`, of any alignment: the answer `access`, once they are in range and written. -/
def State.dmemLoad (s : State) (addr : Word) (n : Nat) (access : Result) : Result :=
  if !s.inDmem addr.toNat n then raise .dataAccessFault addr s
  else if !Memory.written s.dmem addr.toNat n then .fault (.uninitDmem addr.toNat)
  else access

/-- What GBUILD leaves: the prepared matrices of the basis images at `x[a]`, in the `N * N` entries from `g`. -/
def State.gbuildState (s : State) (a : XReg) (g : BitVec 11) (N : Nat) : State :=
  (s.writeGrid g.toNat (N * N) fun k => s.gridMatrix (s.getX a).toNat N (k / N) (k % N)).advance

/-- What XFORM leaves: the grid from `g` applied to every lane of the source. -/
def State.xformState (s : State) (d a : VReg) (g : BitVec 11) (N : Nat) : State :=
  (s.setV d (ofByteLanes s.cfg.word (s.xformByte g.toNat N (s.getV a)))).advance

section
variable {lgN : BitVec 3} {N : Nat} (hN : N = 2 ^ lgN.toNat) (g : BitVec 11) (s : State)
include hN

theorem exec_gbuild_eq (a : XReg) :
    exec (.gbuild a lgN g) s = s.widthAccess lgN (.gbuild a lgN g) (s.gridAccess g (N * N)
      (s.dmemLoad (s.getX a) (8 * N * N) (.next (s.gbuildState a g N)))) := by subst hN; rfl

theorem exec_xform_eq (d a : VReg) :
    exec (.xform d a lgN g) s = s.widthAccess lgN (.xform d a lgN g) (s.gridAccess g (N * N)
      (s.gridLoad g (N * N) (.next (s.xformState d a g N)))) := by subst hN; rfl

end

section
variable (s : State) {lgN : BitVec 3} (i : Instr) (access : Result)

theorem widthAccess_of_gt (h : 4 < lgN.toNat) :
    s.widthAccess lgN i access = .next (s.enterException .illegalInstruction (encode i)) :=
  if_pos (by simpa [widthOk] using h)

theorem widthAccess_of_le (h : lgN.toNat ≤ 4) : s.widthAccess lgN i access = access :=
  if_neg (by simpa [widthOk] using h)

end

theorem eq_of_ite_fault {c : Prop} [Decidable c] {f : Fault} {t t' : State}
    (h : (if c then .fault f else .next t : Result) = .next t') : t' = t := by
  split at h
  · cases h
  · exact (Host.Outcome.next.inj h).symm

section
variable {s : State} {addr : Word} {n : Nat} (access : Result)

theorem dmemLoad_of_outside (h : s.cfg.dmemBytes < addr.toNat + n) :
    s.dmemLoad addr n access = .next (s.enterException .dataAccessFault addr) :=
  if_pos (by simpa [State.inDmem] using h)

theorem dmemLoad_of_inside (h : addr.toNat + n ≤ s.cfg.dmemBytes) :
    s.dmemLoad addr n access =
      if !Memory.written s.dmem addr.toNat n then .fault (.uninitDmem addr.toNat) else access :=
  if_neg (by simpa [State.inDmem] using h)

section
variable (hinside : addr.toNat + n ≤ s.cfg.dmemBytes)
include hinside

theorem dmemLoad_of_unwritten {k : Nat} (hk : k < n) (h : Memory.read s.dmem (addr.toNat + k) = none) :
    s.dmemLoad addr n access = .fault (.uninitDmem addr.toNat) := by
  rw [dmemLoad_of_inside _ hinside, not_written_of_read_none _ _ _ k hk h]; rfl

theorem dmemLoad_of_written (h : ∀ k, k < n → (Memory.read s.dmem (addr.toNat + k)).isSome = true) :
    s.dmemLoad addr n access = access := by
  rw [dmemLoad_of_inside _ hinside, (written_iff _ _ _).2 h]; rfl

/-- In range, the one other answer is a fault. -/
theorem eq_of_dmemLoad {t t' : State} (h : s.dmemLoad addr n (.next t) = .next t') : t' = t := by
  rw [dmemLoad_of_inside _ hinside] at h
  exact eq_of_ite_fault h

end

theorem eq_of_gridLoad {g : BitVec 11} {t t' : State} (h : s.gridLoad g n (.next t) = .next t') : t' = t := eq_of_ite_fault h

end

/-! ## The lanes of N bytes (R185, R188) -/

section
variable {lgN : BitVec 3} {N : Nat} (hN : N = 2 ^ lgN.toNat) (hle : lgN.toNat ≤ 4)
include hN hle

theorem width_dvd_sixteen : N ∣ 16 := hN ▸ Nat.pow_dvd_pow 2 hle

theorem width_dvd_bytes (ww : WordSel) : N ∣ ww.bytes :=
  (width_dvd_sixteen hN hle).trans (by cases ww <;> decide)

/-- A basis image fits in the 512 bits it is held in. -/
theorem width_bits_le : 8 * N ≤ 512 := by
  have := Nat.le_of_dvd (by decide) (width_dvd_sixteen hN hle)
  omega

end

theorem mul_add_div_of_lt {l N i : Nat} (hi : i < N) : (l * N + i) / N = l := by
  rw [Nat.mul_comm, Nat.mul_add_div (Nat.zero_lt_of_lt hi), Nat.div_eq_of_lt hi, Nat.add_zero]

theorem mul_add_lt_mul {l m N i : Nat} (hl : l < m) (hi : i < N) : l * N + i < m * N := by
  rw [Nat.mul_comm l]
  exact Nat.mul_add_lt_mul_of_lt_of_lt hl hi

/-- The bytes of the lanes lie in the word. -/
theorem lane_byte_lt {n N l i : Nat} (hl : l < n / N) (hi : i < N) : l * N + i < n :=
  (mul_add_lt_mul hl hi).trans_le (Nat.div_mul_le_self n N)

theorem xformByte_lane (s : State) (g : Nat) (src : Wide) {N i : Nat} (l : Nat) (hi : i < N) :
    s.xformByte g N src (l * N + i) =
      xorUpTo (fun j => affine (s.gridEntry (g + j * N + i)) (byteAt src (l * N + j))) N := by
  rw [State.xformByte, Nat.mul_add_mod_of_lt hi, mul_add_div_of_lt hi]

/-! ## GBUILD and XFORM past their checks (R186 to R188) -/

/-- The basis images as GBUILD gathers them: byte `k` of column (i, j) is byte `j` of `bases[8i+k]`. -/
theorem byteAt_basisColumn (s : State) (A : Nat) {N i j k : Nat} (hwidth : 8 * N ≤ 512) (hj : j < N) (hk : k < 8) :
    byteAt (s.basisColumn A N i j) k = byteAt (s.basis A N (8 * i + k)) j := by
  rw [State.basisColumn, State.basis, State.memRead, byteAt, byteAt, laneAt_ofLanes 8 (by decide) _ 8 k hk (by decide),
    laneAt_ofLanes 8 (by decide) _ N j hj hwidth]

/-- Entry (i, j) maps byte `i` of a lane to its part of byte `j` of the image (R171, R186). -/
theorem affine_gridMatrix (s : State) (A : Nat) {N i j : Nat} (hwidth : 8 * N ≤ 512) (hj : j < N) (y : Byte) :
    affine (s.gridMatrix A N i j) y = linearMap (fun k => byteAt (s.basis A N (8 * i + k)) j) y := by
  rw [State.gridMatrix, affine_mprep64, linearMap, linearMap]
  exact xorUpTo_congr _ _ 8 fun k hk => by rw [byteAt_basisColumn s A hwidth hj hk]

theorem read_gbuildState (s : State) (a : XReg) (g : BitVec 11) {N i j : Nat} (hi : i < N) (hj : j < N) :
    Memory.read (s.gbuildState a g N).grid (g.toNat + (i * N + j)) = some (s.gridMatrix (s.getX a).toNat N i j) := by
  rw [State.gbuildState, advance_grid, writeGrid_grid, read_writeRange_inside _ _ _ _ _ (mul_add_lt_mul hi hj),
    mul_add_div_of_lt hj, Nat.mul_add_mod_of_lt hj]

theorem read_gbuildState_isSome (s : State) (a : XReg) (g : BitVec 11) {N k : Nat} (hk : k < N * N) :
    (Memory.read (s.gbuildState a g N).grid (g.toNat + k)).isSome = true := by
  rw [State.gbuildState, advance_grid, writeGrid_grid, read_writeRange_inside _ _ _ _ _ hk, Option.isSome_some]

theorem getV_xformState (s : State) (d a : VReg) (g : BitVec 11) (N : Nat) :
    (s.xformState d a g N).getV d = ofByteLanes s.cfg.word (s.xformByte g.toNat N (s.getV a)) := by
  rw [State.xformState, advance_getV, getV_setV_same, keep_ofByteLanes]

theorem byteAt_xformState (s : State) (d a : VReg) (g : BitVec 11) {N l i : Nat} (hl : l < s.cfg.word.bytes / N) (hi : i < N) :
    byteAt ((s.xformState d a g N).getV d) (l * N + i) =
      xorUpTo (fun j => affine (s.gridEntry (g.toNat + j * N + i)) (byteAt (s.getV a) (l * N + j))) N := by
  rw [getV_xformState, byteAt_ofByteLanes _ _ _ (lane_byte_lt hl hi), xformByte_lane _ _ _ _ hi]

section
variable {lgN : BitVec 3} {N : Nat} (hN : N = 2 ^ lgN.toNat) (hle : lgN.toNat ≤ 4) {g : BitVec 11} {s : State}
variable (hgrid : g.toNat + N * N ≤ s.cfg.gridSize)
include hN hle hgrid

theorem exec_gbuild_of_inside (a : XReg) :
    exec (.gbuild a lgN g) s = s.dmemLoad (s.getX a) (8 * N * N) (.next (s.gbuildState a g N)) := by
  rw [exec_gbuild_eq hN, widthAccess_of_le _ _ _ hle, gridAccess_of_inside _ hgrid]

theorem exec_xform_of_inside (d a : VReg) :
    exec (.xform d a lgN g) s = s.gridLoad g (N * N) (.next (s.xformState d a g N)) := by
  rw [exec_xform_eq hN, widthAccess_of_le _ _ _ hle, gridAccess_of_inside _ hgrid]

theorem next_gbuild {a : XReg} (hdmem : (s.getX a).toNat + 8 * N * N ≤ s.cfg.dmemBytes)
    (hwritten : ∀ k, k < 8 * N * N → (Memory.read s.dmem ((s.getX a).toNat + k)).isSome = true) :
    ∃ t, exec (.gbuild a lgN g) s = .next t ∧
      (∀ i j, i < N → j < N → ∃ m, Memory.read t.grid (g.toNat + i * N + j) = some m ∧
        ∀ r k, r < 8 → k < 8 → m.getLsbD (8 * (7 - r) + k) =
          (byteAt (s.basis (s.getX a).toNat N (8 * i + k)) j).getLsbD r) ∧
      t.pc = s.pc + 4 ∧ ChangesOnly { grid := fun k => g.toNat ≤ k ∧ k < g.toNat + N * N } s t := by
  refine ⟨s.gbuildState a g N, ?_, fun i j hi hj => ⟨s.gridMatrix (s.getX a).toNat N i j, ?_, fun r k hr hk => ?_⟩, rfl,
    changesOnly_writeGrid s _ _ _⟩
  · rw [exec_gbuild_of_inside hN hle hgrid, dmemLoad_of_written _ hdmem hwritten]
  · rw [Nat.add_assoc, read_gbuildState s a g hi hj]
  · rw [State.gridMatrix, getLsbD_mprep64 _ hr hk, ← byteAt_basisColumn s _ (width_bits_le hN hle) hj hk, getLsbD_laneAt,
      decide_eq_true hr, Bool.true_and]

theorem next_xform (d a : VReg) (hwritten : ∀ k, k < N * N → (Memory.read s.grid (g.toNat + k)).isSome = true) :
    ∃ t, exec (.xform d a lgN g) s = .next t ∧
      (∀ l i, l < s.cfg.word.bytes / N → i < N → byteAt (t.getV d) (l * N + i) =
        xorUpTo (fun j => affine (s.gridEntry (g.toNat + j * N + i)) (byteAt (s.getV a) (l * N + j))) N) ∧
      t.pc = s.pc + 4 ∧ ChangesOnly { vec := fun r => r = d } s t := by
  refine ⟨s.xformState d a g N, ?_, fun l i => byteAt_xformState s d a g, rfl, changesOnly_setV s d _⟩
  rw [exec_xform_of_inside hN hle hgrid, gridLoad_of_written _ hwritten]

end

/-- Settles O52: the three checks in their order, and past them the load of the basis images, written or not. -/
theorem gbuildBuildsTheGrid : Obligations.GbuildBuildsTheGrid := by
  refine ⟨?_, fun a lgN g s N hN => ⟨fun h => ?_, fun hle h => ?_, fun hle hgrid h => ?_, fun hle hgrid hdmem k hk h => ?_,
    fun hle hgrid hdmem hwritten => next_gbuild hN hle hgrid hdmem hwritten⟩⟩
  · exact encodedAs_of_whenZeroAnd (ok := fun _ w => widthOk (lgNOf w)) (r := .widthTooLarge) fun _ _ hop => by
      simp [decode, hop]
  · rw [exec_gbuild_eq hN, widthAccess_of_gt _ _ _ h]
  · rw [exec_gbuild_eq hN, widthAccess_of_le _ _ _ hle, gridAccess_of_outside _ h]
  · rw [exec_gbuild_of_inside hN hle hgrid, dmemLoad_of_outside _ h]
  · rw [exec_gbuild_of_inside hN hle hgrid, dmemLoad_of_unwritten _ hdmem hk h]

/-- Settles O53: the two checks, and inside the grid the load of its entries, written or not. -/
theorem xformAppliesTheGrid : Obligations.XformAppliesTheGrid := by
  refine ⟨?_, fun d a lgN g s N hN => ⟨fun h => ?_, fun hle h => ?_, fun hle hgrid =>
    ⟨fun k hk h => ?_, next_xform hN hle hgrid d a⟩⟩⟩
  · exact encodedAs_of_whenZeroAnd (ok := fun _ w => widthOk (lgNOf w)) (r := .widthTooLarge) fun _ _ hop => by
      simp [decode, hop]
  · rw [exec_xform_eq hN, widthAccess_of_gt _ _ _ h]
  · rw [exec_xform_eq hN, widthAccess_of_le _ _ _ hle, gridAccess_of_outside _ h]
  · rw [exec_xform_of_inside hN hle hgrid, gridLoad_of_unwritten _ hk h]

/-! ## GBUILD and then XFORM (R189) -/

theorem xorUpTo_add {n : Nat} (f : Nat → BitVec n) (a b : Nat) :
    xorUpTo f (a + b) = xorUpTo f a ^^^ xorUpTo (fun i => f (a + i)) b := by
  induction b with
  | zero => exact BitVec.xor_zero.symm
  | succ b ih => rw [← Nat.add_assoc, xorUpTo, ih, xorUpTo, BitVec.xor_assoc]

/-- A long XOR, block by block. -/
theorem xorUpTo_mul {n : Nat} (f : Nat → BitVec n) (m k : Nat) :
    xorUpTo f (m * k) = xorUpTo (fun j => xorUpTo (fun i => f (m * j + i)) m) k := by
  induction k with
  | zero => rfl
  | succ k ih => rw [Nat.mul_succ, xorUpTo_add, ih, xorUpTo]

theorem xorLinear_byteAt {n : Nat} (i : Nat) : XorLinear fun w : BitVec n => byteAt w i := fun _ _ => BitVec.extractLsb'_xor

/-- Two values of whole bytes with the same bytes are the same. -/
theorem eq_of_byteAt {n : Nat} {x y : BitVec (8 * n)} (h : ∀ i, i < n → byteAt x i = byteAt y i) : x = y := by
  rw [← ofLanes_laneAt 8 (by decide) x n fun b hb => BitVec.getLsbD_of_ge x b hb,
    ← ofLanes_laneAt 8 (by decide) y n fun b hb => BitVec.getLsbD_of_ge y b hb]
  exact ofLanes_congr 8 _ _ n h

theorem byteAt_laneAt {n N i : Nat} (w : BitVec n) (l : Nat) (hi : i < N) :
    byteAt (laneAt (8 * N) w l) i = byteAt w (l * N + i) := by
  apply BitVec.eq_of_getLsbD_eq
  intro b hb
  have hbit : 8 * i + b < 8 * N := by omega
  have hplace : 8 * N * l + (8 * i + b) = 8 * (l * N + i) + b := by ring
  rw [getLsbD_laneAt, getLsbD_laneAt, getLsbD_laneAt, decide_eq_true hbit, Bool.true_and, hplace]

theorem byteAt_setWidth {n N i : Nat} (w : BitVec n) (hi : i < N) : byteAt (w.setWidth (8 * N)) i = byteAt w i := by
  apply BitVec.eq_of_getLsbD_eq
  intro b hb
  have hbit : 8 * i + b < 8 * N := by omega
  rw [getLsbD_laneAt, getLsbD_laneAt, BitVec.getLsbD_setWidth, decide_eq_true hbit, Bool.true_and]

/-- Byte `i` of the image, from the source a byte at a time: byte `j` selects among the bases `8j … 8j+7`. -/
theorem byteAt_linearMap {N : Nat} (bases : Nat → BitVec (8 * N)) (x : BitVec (8 * N)) (i : Nat) :
    byteAt (linearMap bases x) i =
      xorUpTo (fun j => linearMap (fun k => byteAt (bases (8 * j + k)) i) (byteAt x j)) N := by
  rw [linearMap, (xorLinear_byteAt i).map_xorUpTo, xorUpTo_mul]
  refine xorUpTo_congr _ _ N fun j _ => xorUpTo_congr _ _ 8 fun k hk => ?_
  rw [getLsbD_laneAt, decide_eq_true hk, Bool.true_and, apply_ite (byteAt · i), (xorLinear_byteAt i).map_zero]

/-- Settles O54: byte `i` of a lane of the result and byte `i` of its linear image are one XOR over the bytes of the source. -/
theorem gbuildThenXformAppliesTheLinearMap : Obligations.GbuildThenXformAppliesTheLinearMap := by
  intro a lgN g s t u N hN hle hgrid hdmem hgbuild hcfg hkept d v
  rw [exec_gbuild_of_inside hN hle hgrid] at hgbuild
  obtain rfl := eq_of_dmemLoad hdmem hgbuild
  obtain ⟨t', hxform, hbytes, -⟩ := next_xform hN hle (hcfg ▸ hgrid) d v fun k hk => by
    rw [hkept k hk, read_gbuildState_isSome s a g hk]
  have hentry (i j : Nat) (hi : i < N) (hj : j < N) :
      u.gridEntry (g.toNat + j * N + i) = s.gridMatrix (s.getX a).toNat N j i := by
    refine gridEntry_of_read ?_
    rw [Nat.add_assoc, hkept _ (mul_add_lt_mul hj hi), read_gbuildState s a g hj hi]
  refine ⟨t', hxform, fun l hl => eq_of_byteAt fun i hi => ?_⟩
  rw [byteAt_laneAt _ _ hi, hbytes l i hl hi, byteAt_linearMap]
  refine xorUpTo_congr _ _ N fun j hj => ?_
  rw [hentry i j hi hj, affine_gridMatrix s _ (width_bits_le hN hle) hi, byteAt_laneAt _ _ hj]
  simp only [byteAt_setWidth _ hi]

/-! ## The blend tree (R191) -/

section
variable {ww : WordSel}

theorem keep_blendWord {u u' : Wide} (lvl : Nat) (h : keep ww u = u) (h' : keep ww u' = u') :
    keep ww (blendWord ww lvl u u') = blendWord ww lvl u u' := by
  rw [blendWord, keep_or, keep_and, keep_and, h, h', keep_evenMask, keep_oddMask]

theorem getLsbD_blendWord_of_keep {u u' : Wide} (lvl b : Nat) (h : keep ww u = u) (h' : keep ww u' = u') :
    (blendWord ww lvl u u').getLsbD b = if b / 2 ^ lvl % 2 = 0 then u.getLsbD b else u'.getLsbD b := by
  rw [getLsbD_blendWord]
  split
  · rw [← getLsbD_keep, h]
  · rw [← getLsbD_keep, h']

theorem blendPairs_range (lvl : Nat) (P : Nat → Wide) (n : Nat) :
    blendPairs ww lvl ((List.range (2 * n)).map P) =
      (List.range n).map fun i => blendWord ww lvl (P (2 * i)) (P (2 * i + 1)) := by
  induction n generalizing P with
  | zero => rfl
  | succ n ih =>
    have hrange : (List.range (2 * (n + 1))).map P = P 0 :: P 1 :: (List.range (2 * n)).map fun i => P (i + 2) := by
      rw [Nat.mul_succ, List.range_succ_eq_map, List.range_succ_eq_map]
      simp [Function.comp_def]
    rw [hrange, blendPairs, ih, List.range_succ_eq_map]
    simp [Function.comp_def, Nat.mul_add]

/-- Bit `b` of the tree's word is bit `b` of the word that block `b / 2^lvl` has in turn. -/
theorem blendTree_range {w : Wide} {k lvl : Nat} {P : Nat → Wide} (hP : ∀ i, keep ww (P i) = P i)
    (hw : ∀ b, w.getLsbD b = (P (b / 2 ^ lvl % 2 ^ k)).getLsbD b) :
    blendTree ww k lvl ((List.range (2 ^ k)).map P) = [w] := by
  induction k generalizing lvl P with
  | zero =>
    have hroot : w = P 0 := BitVec.eq_of_getLsbD_eq fun b _ => by rw [hw, Nat.pow_zero, Nat.mod_one]
    rw [hroot]; rfl
  | succ k ih =>
    rw [blendTree, Nat.pow_succ', blendPairs_range]
    refine ih (fun i => keep_blendWord lvl (hP _) (hP _)) fun b => ?_
    have hblock : b / 2 ^ (lvl + 1) = b / 2 ^ lvl / 2 := by rw [Nat.pow_succ, Nat.div_div_eq_div_mul]
    rw [hw, Nat.pow_succ', Nat.mod_mul, getLsbD_blendWord_of_keep _ _ (hP _) (hP _), hblock]
    obtain h | h := Nat.mod_two_eq_zero_or_one (b / 2 ^ lvl)
    · rw [h, if_pos rfl, Nat.zero_add]
    · rw [h, if_neg (by decide), Nat.add_comm]

end

/-! ## The decomposition (R190) -/

theorem byteAt_shiftBytes (ww : WordSel) (u : Wide) {i j p : Nat} (hi : i ≤ p) (hp : p < ww.bytes)
    (hsrc : p - i + j < ww.bytes) : byteAt (shiftBytes ww u i j) p = byteAt u (p - i + j) := by
  have hbits := ww.bytes_mul
  apply BitVec.eq_of_getLsbD_eq
  intro b hb
  rw [getLsbD_laneAt, getLsbD_laneAt, decide_eq_true hb, Bool.true_and, Bool.true_and, shiftBytes]
  split
  · have hplace : 8 * p + b - 8 * (i - j) = 8 * (p - i + j) + b := by omega
    rw [getLsbD_shiftLeft, decide_eq_true (by omega), decide_eq_true (by omega), hplace]; rfl
  · have hplace : 8 * p + b + 8 * (j - i) = 8 * (p - i + j) + b := by omega
    rw [getLsbD_shiftRight, decide_eq_true (by omega), hplace]; rfl

theorem getLsbD_byteAt {n : Nat} (w : BitVec n) (b : Nat) : (byteAt w (b / 8)).getLsbD (b % 8) = w.getLsbD b := by
  rw [getLsbD_laneAt, decide_eq_true (Nat.mod_lt b (by decide)), Bool.true_and, Nat.div_add_mod]

theorem keep_shiftBytes (ww : WordSel) (u : Wide) (i j : Nat) : keep ww (shiftBytes ww u i j) = shiftBytes ww u i j := by
  unfold shiftBytes
  split
  · exact keep_shiftLeft ww u _
  · exact keep_shiftRight ww u _

section
variable (s : State) (g : Nat) {N : Nat} (src : Wide)

theorem keep_partialWord (i : Nat) : keep s.cfg.word (s.partialWord g N src i) = s.partialWord g N src i := by
  have hlinear : XorLinear (keep s.cfg.word) := keep_xor s.cfg.word
  rw [State.partialWord, hlinear.map_xorUpTo]
  exact xorUpTo_congr _ _ N fun j _ => keep_shiftBytes _ _ i j

/-- The shift of step `j` brings byte `j` of every lane to place `i`. -/
theorem byteAt_partialWord {l i : Nat} (hl : l < s.cfg.word.bytes / N) (hi : i < N) :
    byteAt (s.partialWord g N src i) (l * N + i) =
      xorUpTo (fun j => affine (s.gridEntry (g + j * N + i)) (byteAt src (l * N + j))) N := by
  rw [State.partialWord, (xorLinear_byteAt _).map_xorUpTo]
  refine xorUpTo_congr _ _ N fun j hj => ?_
  have hsrc : l * N + j < s.cfg.word.bytes := lane_byte_lt hl hj
  have hplace : l * N + i - i + j = l * N + j := by rw [Nat.add_sub_cancel]
  rw [byteAt_shiftBytes _ _ (Nat.le_add_left _ _) (lane_byte_lt hl hi) (hplace ▸ hsrc), hplace, affineWord,
    byteAt_ofByteLanes _ _ _ hsrc]

/-- Byte `p` of XFORM's word is byte `p` of partial word `p mod N` (R191). -/
theorem xformByte_eq_byteAt_partialWord (hdvd : N ∣ s.cfg.word.bytes) {p : Nat} (hp : p < s.cfg.word.bytes) :
    s.xformByte g N src p = byteAt (s.partialWord g N src (p % N)) p := by
  have hi : p % N < N := Nat.mod_lt p (Nat.pos_of_dvd_of_pos hdvd s.cfg.word.bytes_pos)
  have hbyte := byteAt_partialWord s g src (Nat.div_lt_div_of_lt_of_dvd hdvd hp) hi
  rwa [← xformByte_lane s g src _ hi, Nat.div_add_mod', eq_comm] at hbyte

theorem getLsbD_xformWord (hdvd : N ∣ s.cfg.word.bytes) (b : Nat) :
    (ofByteLanes s.cfg.word (s.xformByte g N src)).getLsbD b = (s.partialWord g N src (b / 8 % N)).getLsbD b := by
  have hbits := s.cfg.word.bytes_mul
  rw [← keep_ofByteLanes, ← keep_partialWord, getLsbD_keep, getLsbD_keep]
  by_cases hb : b < s.cfg.word.bits
  · have hp : b / 8 < s.cfg.word.bytes := by omega
    rw [← getLsbD_byteAt, byteAt_ofByteLanes _ _ _ hp, xformByte_eq_byteAt_partialWord s g src hdvd hp, getLsbD_byteAt]
  · simp [hb]

end

/-- Settles O55: XFORM's word has each byte from the partial word that the blend tree picks it from. -/
theorem shiftAndBlendDecompositionEqualsXform : Obligations.ShiftAndBlendDecompositionEqualsXform := by
  intro d a lgN g s t N hN hle hgrid hxform
  rw [exec_xform_of_inside hN hle hgrid] at hxform
  rw [eq_of_gridLoad hxform, getV_xformState, hN]
  refine blendTree_range (keep_partialWord s _ _) fun b => ?_
  exact getLsbD_xformWord s _ _ (hN ▸ width_dvd_bytes hN hle s.cfg.word) b

end Sys2Proof.Machine
end

/-! # Exceptions and reset (60_exceptions.md R200 to R211, R220; 70_reset_and_hazards.md R242)

Exception entry is `State.enterException`, whose footprint is the control and status registers: the fetch, the decoder and every
instruction fault by it. Every move of the machine leaves the parameters alone. -/

section
namespace Sys2Proof.Machine

/-! ## Exception entry (R201, R203), from an instruction, the fetch (R205) and the decoder (R206) -/

/-- Settles O10: `raise` answers the exception entry. -/
theorem exceptionEntryRecordsAndStops : Obligations.ExceptionEntryRecordsAndStops :=
  ⟨fun s e info =>
    ⟨s.enterException e info, rfl, rfl, rfl, rfl, rfl, rfl, rfl, rfl, changesOnly_enterException s e info⟩,
    rfl, rfl, rfl, rfl, rfl, rfl, rfl⟩

theorem runWord_of_illegal {s : State} {w : Word} {e : Reject} (h : decode s.cfg.word w = .illegal e) :
    runWord w s = .next (s.enterException .illegalInstruction w) := by
  rw [runWord, h]; rfl

/-- `UninitRead` at the fetch (10_state.md R31, log 6). -/
theorem tileStep_of_unwritten {s : State} (hfetching : s.Fetching) (hpc : s.pc.toNat < s.cfg.imemBytes)
    (hwritten : Memory.written s.imem s.pc.toNat 4 = false) : tileStep s = .fault (.uninitImem s.pc.toNat) := by
  rw [tileStep_of_fetching hfetching, fetchAndRun, if_neg (Nat.not_le.2 hpc), hwritten]; rfl

/-- Settles O8: the pc is outside IMEM, or the word is written and illegal, or one of its bytes is not written. -/
theorem fetchAndDecodeFaults : Obligations.FetchAndDecodeFaults := by
  intro s u hu hfetching
  refine ⟨fun hpc => ?_, fun e hpc hwritten hdecode => ?_, fun k hk hpc hread => ?_⟩
  · exact ⟨_, faultsAtFetch s u hu hfetching hpc, rfl, rfl, rfl, rfl, rfl, changesOnly_enterException _ _ _⟩
  · have hstep : step s = .next (u.enterException .illegalInstruction (u.imemWord u.pc.toNat)) := by
      rw [step_of_tileMoves hu, tileStep_of_fetch u hfetching hpc hwritten, runWord_of_illegal hdecode]
    exact ⟨_, hstep, rfl, rfl, rfl, rfl, rfl, changesOnly_enterException _ _ _⟩
  · rw [step_of_tileMoves hu, tileStep_of_unwritten hfetching hpc (not_written_of_read_none _ _ _ k hk hread)]

/-! ## The three ways an instruction of a program ends (R200, R203, R220) -/

/-- An instruction halts, takes an exception, or leaves STATE, the record and the abort latch alone. -/
theorem exec_halts_or_traps_or_goesOn {i : Instr} {s t : State} (h : exec i s = .next t) :
    (i = .halt ∧ t = s.halt) ∨ (∃ e info, e ≠ .none ∧ t = s.enterException e info) ∨
      (t.run = s.run ∧ t.cause = s.cause ∧ t.epc = s.epc ∧ t.finfo = s.finfo ∧ t.abortLatch = s.abortLatch) := by
  cases exec_shape h with
  | halt hi => exact .inl ⟨hi, rfl⟩
  | trap e info he => exact .inr (.inl ⟨e, info, he, rfl⟩)
  | scalar d u => exact .inr (.inr (by simp))
  | _ => exact .inr (.inr ⟨rfl, rfl, rfl, rfl, rfl⟩)

/-- Settles O16: of the three ways only the exception leaves a RUNNING tile FAULTED. -/
theorem everyExceptionIsPrecise : Obligations.EveryExceptionIsPrecise := by
  intro i s t hrun h hfaulted
  obtain ⟨-, rfl⟩ | ⟨e, info, he, rfl⟩ | ⟨hrun', -⟩ := exec_halts_or_traps_or_goesOn h
  · nomatch hfaulted
  · exact ⟨he, rfl, rfl, changesOnly_enterException s e info⟩
  · simp [hrun', hrun] at hfaulted

/-- Settles O17: the three ways leave a RUNNING tile HALTED, FAULTED and RUNNING. -/
theorem onlyHaltAndExceptionsStopAProgram : Obligations.OnlyHaltAndExceptionsStopAProgram := by
  intro i s t hrun h
  obtain ⟨hi, rfl⟩ | ⟨e, info, he, rfl⟩ | ⟨hrun', hrecord⟩ := exec_halts_or_traps_or_goesOn h
  · exact .inl ⟨rfl, hi⟩
  · exact .inr (.inl ⟨rfl, he⟩)
  · exact .inr (.inr ⟨hrun'.trans hrun, hrecord⟩)

/-! ## The return from an exception (R211) -/

/-- Clearing bits 1:0, as START_PC does (10_state.md R28), keeps an aligned address. -/
theorem clearLowBits_of_aligned {p : Word} (h : p.toNat % 4 = 0) : p &&& 0xFFFFFFFC = p := by
  have hlow : p &&& 3 = 0 :=
    BitVec.eq_of_toNat_eq ((BitVec.toNat_and p 3).trans ((Nat.and_two_pow_sub_one_eq_mod p.toNat 2).trans h))
  calc p &&& 0xFFFFFFFC = (p &&& 0xFFFFFFFC) ||| (p &&& 3) := by rw [hlow]; exact BitVec.or_zero.symm
    _ = p &&& (0xFFFFFFFC ||| 3) := BitVec.and_or_distrib_left.symm
    _ = p := BitVec.and_allOnes

/-- Settles O60: the write of START_PC stores EPC as it is, and the write of CTRL is START. -/
theorem hostRestartsAFaultedTile : Obligations.HostRestartsAFaultedTile := by
  intro s rest hreset hrun hepc hhost
  have hrun' : s.run ≠ .running := by simp [hrun]
  obtain ⟨-, -, hwrites⟩ := hostAndTileNeverShareMemory
  obtain ⟨hwrite, -⟩ := hwrites s 5 s.epc _ hrun' hreset hhost
  obtain ⟨u, hu, -, hstart, -⟩ := controlRegisterCommands { s with host := .write 0 1 :: rest, startPc := s.epc } 1 rest hreset rfl
  obtain rfl := hstart rfl hrun'
  have hstartPc := hwrite rfl
  rw [clearLowBits_of_aligned hepc] at hstartPc
  exact ⟨_, _, hstartPc, hu, rfl, rfl, rfl, rfl, rfl, rfl, rfl, rfl, rfl, rfl, rfl, rfl⟩

/-! ## The parameters of the tile (R242) -/

theorem exec_cfg {i : Instr} {s t : State} (h : exec i s = .next t) : t.cfg = s.cfg := by
  obtain ⟨-, -, -, -, -, -, hcfg, -⟩ := onlyTheListedInstructionsWriteEachPart i s t h
  exact hcfg

theorem tileStep_cfg {s t : State} (h : tileStep s = .next t) : t.cfg = s.cfg := by
  obtain ⟨-, rfl⟩ | ⟨-, -, -, rfl⟩ | ⟨-, ⟨_, _, -, rfl⟩ | ⟨i, hi⟩⟩ := tileStep_cases h
  · rfl
  · rfl
  · rfl
  · exact exec_cfg hi

theorem State.TileMoves.cfg {s u : State} (h : s.TileMoves u) : u.cfg = s.cfg := by
  obtain ⟨-, rfl⟩ | ⟨_, -, rfl⟩ := h <;> rfl

theorem answerRead_cfg (s : State) (index : BitVec 22) : (s.answerRead index).cfg = s.cfg := by
  obtain ⟨draws, u, heq⟩ := answerRead_eq s index
  rw [heq]

theorem releaseReset_cfg (s : State) : s.releaseReset.cfg = s.cfg := by
  unfold State.releaseReset
  split <;> rfl

/-- Settles O13: neither the tile's step nor a move of the host or the platform changes the parameters. -/
theorem noStepChangesTheParameters : Obligations.NoStepChangesTheParameters := by
  intro s t h
  obtain ⟨u, hu, ht⟩ | ⟨index, value, rest, -, rfl⟩ | ⟨index, rest, -, rfl⟩ | ⟨rest, -, rfl⟩ | ⟨rest, -, rfl⟩ := step_cases h
  · exact (tileStep_cfg ht).trans hu.cfg
  · exact (hostWrite_keeps { s with host := rest } index value).cfg
  · exact answerRead_cfg { s with host := rest } index
  · rfl
  · exact releaseReset_cfg { s with host := rest }

end Sys2Proof.Machine
end
